-- ==== Sys2Proof/Word.lean ====
section
/-! DEFINITION. The word and byte types of the block (00_scope.md R10, R11, 20_memory.md R36). -/

namespace Sys2Proof

/-- One 32-bit word: the unit of every interface value and of every stored value (R10). A binary32
value is identified with its bit pattern (R11). -/
abbrev Word := BitVec 32

/-- One byte of a byte-serial transport (R36). Nothing inside the block is a byte. -/
abbrev Byte := BitVec 8

end Sys2Proof
end

