-- ==== Sys2Proof/Syntax.lean ====
section
/-! DEFINITION. The ports and the ten commands of the block (30_encoding.md R50 to R54). -/

namespace Sys2Proof

/-- The two command ports: `p` the producer port, `q` the consumer port (R50, R51). -/
inductive PortId where
  | p
  | q
  deriving DecidableEq, Repr

/-- The ten host commands, one constructor per row of the opcode map (R53), with the operands as R54
assembles them: the fields BAND, MODE, CNT of the command word, and the argument word. FEED_BLOCK
carries its sample count only: its samples follow on the port and are taken one at a time (R90). -/
inductive Instr where
  /-- FEED, R89 -/
  | feed (x : Word)
  /-- FEED_BLOCK, R90 -/
  | feedBlock (cnt : BitVec 16)
  /-- SET_SAMPLE_RATE, R91 -/
  | setSampleRate (rate : Word)
  /-- GET_SAMPLE_RATE, R92 -/
  | getSampleRate
  /-- GET_PEAK, R94 -/
  | getPeak (band : BitVec 4) (duration : Word)
  /-- GET_RMS, R95 -/
  | getRms (band : BitVec 4) (duration : Word)
  /-- PEAK_N, R96 -/
  | peakN (band : BitVec 4) (range : Word)
  /-- RMS_N, R97 -/
  | rmsN (band : BitVec 4) (range : Word)
  /-- COPY_WAVEFORM, R98 -/
  | copyWaveform (band : BitVec 4) (length : Word)
  /-- GET_BAND_AVERAGES, R99 -/
  | getBandAverages (mode : BitVec 4) (length : Word)
  deriving DecidableEq, Repr

/-- The port a command is assigned to (R51). -/
def Instr.port : Instr → PortId
  | .feed _ => .p
  | .feedBlock _ => .p
  | .setSampleRate _ => .p
  | .getSampleRate => .q
  | .getPeak _ _ => .q
  | .getRms _ _ => .q
  | .peakN _ _ => .q
  | .rmsN _ _ => .q
  | .copyWaveform _ _ => .q
  | .getBandAverages _ _ => .q

end Sys2Proof
end

