-- ==== Sys2Proof/WellFormed.lean ====
section
/-! DEFINITION. When a command is well formed: it stands on its own port, and its BAND and MODE are ones the
assembler syntax can name (30_encoding.md R51, R58). The width of every field is already in the type of
the operand. A command whose BAND or MODE is out of range still decodes and still runs; its rule answers
it with a status code (R54). -/

namespace Sys2Proof

/-- The BAND operand, where the command has one, is one of b0 to b3 (R58). -/
def Instr.bandOk : Instr → Bool
  | .getPeak b _ => decide (b.toNat < 4)
  | .getRms b _ => decide (b.toNat < 4)
  | .peakN b _ => decide (b.toNat < 4)
  | .rmsN b _ => decide (b.toNat < 4)
  | .copyWaveform b _ => decide (b.toNat < 4)
  | .feed _ => true
  | .feedBlock _ => true
  | .setSampleRate _ => true
  | .getSampleRate => true
  | .getBandAverages _ _ => true

/-- The MODE operand, where the command has one, is 0 (linear) or 1 (log) (R58). -/
def Instr.modeOk : Instr → Bool
  | .getBandAverages m _ => decide (m.toNat < 2)
  | .feed _ => true
  | .feedBlock _ => true
  | .setSampleRate _ => true
  | .getSampleRate => true
  | .getPeak _ _ => true
  | .getRms _ _ => true
  | .peakN _ _ => true
  | .rmsN _ _ => true
  | .copyWaveform _ _ => true

/-- A command sent on port `port` that the assembler syntax of R58 can write without `.word`. -/
def Instr.wellFormed (port : PortId) (i : Instr) : Bool :=
  decide (i.port = port) && i.bandOk && i.modeOk

end Sys2Proof
end

