-- ==== Sys2Proof/Decode.lean ====
section
/-! DEFINITION. Decoding a port's word stream and encoding a command (30_encoding.md R52 to R57), the byte order of
a byte-serial transport (20_memory.md R36), and the reading of an opcode-table word. -/

namespace Sys2Proof

/-! ## The command word -/

/-- OPC, bits 7:0 (R52). -/
def opcField (w : Word) : BitVec 8 := w.extractLsb' 0 8

/-- BAND, bits 11:8 (R52). -/
def bandField (w : Word) : BitVec 4 := w.extractLsb' 8 4

/-- MODE, bits 15:12 (R52). -/
def modeField (w : Word) : BitVec 4 := w.extractLsb' 12 4

/-- CNT, bits 31:16 (R52). -/
def cntField (w : Word) : BitVec 16 := w.extractLsb' 16 16

/-- The command word with the four fields at their places (R52). -/
def commandWord (cnt : BitVec 16) (mode band : BitVec 4) (opc : BitVec 8) : Word :=
  cnt ++ mode ++ band ++ opc

/-! ## The opcode map -/

/-- The ten assigned opcodes, by mnemonic (R53). -/
inductive Opcode where
  | feed
  | feedBlock
  | setSampleRate
  | getSampleRate
  | getPeak
  | getRms
  | peakN
  | rmsN
  | copyWaveform
  | getBandAverages
  deriving DecidableEq, Repr

/-- The OPC value of each mnemonic (R53). -/
def opcodeCode : Opcode → BitVec 8
  | .feed => 0x01#8
  | .feedBlock => 0x02#8
  | .setSampleRate => 0x03#8
  | .getSampleRate => 0x10#8
  | .getPeak => 0x11#8
  | .getRms => 0x12#8
  | .peakN => 0x13#8
  | .rmsN => 0x14#8
  | .copyWaveform => 0x15#8
  | .getBandAverages => 0x16#8

/-- The port of each mnemonic (R51, R53). -/
def opcodePort : Opcode → PortId
  | .feed => .p
  | .feedBlock => .p
  | .setSampleRate => .p
  | .getSampleRate => .q
  | .getPeak => .q
  | .getRms => .q
  | .peakN => .q
  | .rmsN => .q
  | .copyWaveform => .q
  | .getBandAverages => .q

/-- The mnemonic of an OPC value; every other value is unassigned (R53, R57 (a)). -/
def opcodeOfCode (b : BitVec 8) : Option Opcode :=
  match b.toNat with
  | 0x01 => some .feed
  | 0x02 => some .feedBlock
  | 0x03 => some .setSampleRate
  | 0x10 => some .getSampleRate
  | 0x11 => some .getPeak
  | 0x12 => some .getRms
  | 0x13 => some .peakN
  | 0x14 => some .rmsN
  | 0x15 => some .copyWaveform
  | 0x16 => some .getBandAverages
  | _ => none

/-- The mnemonic an OPC value has on a port: an opcode of the other port is not assigned there (R51). -/
def opcodeOn (port : PortId) (b : BitVec 8) : Option Opcode :=
  match opcodeOfCode b with
  | some op => if opcodePort op = port then some op else none
  | none => none

/-- ARGS(opc, w): how many argument words follow the command word (R55). -/
def argCount (op : Opcode) (w : Word) : Nat :=
  match op with
  | .feed => 1
  | .feedBlock => (cntField w).toNat
  | .setSampleRate => 1
  | .getSampleRate => 0
  | .getPeak => 1
  | .getRms => 1
  | .peakN => 1
  | .rmsN => 1
  | .copyWaveform => 1
  | .getBandAverages => 1

/-- RESERVED(opc, w): the bits the command does not use, read as one number (R55). -/
def reservedBits (op : Opcode) (w : Word) : Nat :=
  match op with
  | .feed => (w.extractLsb' 8 24).toNat
  | .feedBlock => (w.extractLsb' 8 8).toNat
  | .setSampleRate => (w.extractLsb' 8 24).toNat
  | .getSampleRate => (w.extractLsb' 8 24).toNat
  | .getPeak => (w.extractLsb' 12 20).toNat
  | .getRms => (w.extractLsb' 12 20).toNat
  | .peakN => (w.extractLsb' 12 20).toNat
  | .rmsN => (w.extractLsb' 12 20).toNat
  | .copyWaveform => (w.extractLsb' 12 20).toNat
  | .getBandAverages => (w.extractLsb' 16 16 ++ w.extractLsb' 8 4).toNat

/-! ## Decoding -/

/-- Why the decoder turns a command away (R57). -/
inductive DecodeError where
  /-- OPC is not assigned to the port: ERR_OPCODE, R57 (a) -/
  | unassignedOpcode
  /-- a reserved field is not zero: ERR_RESERVED, R57 (b) -/
  | reservedField
  deriving DecidableEq, Repr

/-- What a port finds at the head of its word stream. -/
inductive Decoded where
  /-- the stream does not yet hold the whole command: the port waits (R55, 60_exceptions.md R107 (c)) -/
  | wait
  /-- a command, and the stream after its words -/
  | command (i : Instr) (rest : List Word)
  /-- a command turned away: `args` argument words are still to be consumed from `rest` -/
  | reject (e : DecodeError) (args : Nat) (rest : List Word)
  deriving DecidableEq, Repr

/-- Whether the decoder waits for one argument word before the command runs. FEED_BLOCK takes its samples
one at a time while it runs (R55, 44_commands.md R90 (d)). -/
def takesArg : Opcode → Bool
  | .feed => true
  | .feedBlock => false
  | .setSampleRate => true
  | .getSampleRate => false
  | .getPeak => true
  | .getRms => true
  | .peakN => true
  | .rmsN => true
  | .copyWaveform => true
  | .getBandAverages => true

/-- Operand assembly: the command from its opcode, command word and argument word (R54). -/
def assemble (op : Opcode) (w arg : Word) : Instr :=
  match op with
  | .feed => .feed arg
  | .feedBlock => .feedBlock (cntField w)
  | .setSampleRate => .setSampleRate arg
  | .getSampleRate => .getSampleRate
  | .getPeak => .getPeak (bandField w) arg
  | .getRms => .getRms (bandField w) arg
  | .peakN => .peakN (bandField w) arg
  | .rmsN => .rmsN (bandField w) arg
  | .copyWaveform => .copyWaveform (bandField w) arg
  | .getBandAverages => .getBandAverages (modeField w) arg

/-- decode(port) of R55 on the words the port has received: total, and every word it does not accept is
turned away by name. -/
def decode (port : PortId) : List Word → Decoded
  | [] => .wait
  | w :: rest =>
    match opcodeOn port (opcField w) with
    | none => .reject .unassignedOpcode 0 rest
    | some op =>
      if reservedBits op w ≠ 0 then .reject .reservedField (argCount op w) rest
      else if takesArg op then
        match rest with
        | [] => .wait
        | arg :: rest' => .command (assemble op w arg) rest'
      else .command (assemble op w 0#32) rest

/-! ## Encoding -/

/-- The words of a command (R53, R54, R58). The samples of FEED_BLOCK are not operands of the command word;
`encodeBlock` writes them. -/
def encode : Instr → List Word
  | .feed x => [commandWord 0#16 0#4 0#4 (opcodeCode .feed), x]
  | .feedBlock cnt => [commandWord cnt 0#4 0#4 (opcodeCode .feedBlock)]
  | .setSampleRate rate => [commandWord 0#16 0#4 0#4 (opcodeCode .setSampleRate), rate]
  | .getSampleRate => [commandWord 0#16 0#4 0#4 (opcodeCode .getSampleRate)]
  | .getPeak band d => [commandWord 0#16 0#4 band (opcodeCode .getPeak), d]
  | .getRms band d => [commandWord 0#16 0#4 band (opcodeCode .getRms), d]
  | .peakN band r => [commandWord 0#16 0#4 band (opcodeCode .peakN), r]
  | .rmsN band r => [commandWord 0#16 0#4 band (opcodeCode .rmsN), r]
  | .copyWaveform band l => [commandWord 0#16 0#4 band (opcodeCode .copyWaveform), l]
  | .getBandAverages mode l => [commandWord 0#16 mode 0#4 (opcodeCode .getBandAverages), l]

/-- FEED_BLOCK with its samples, for at most 65535 of them (R53, R58). -/
def encodeBlock (xs : List Word) : List Word :=
  encode (.feedBlock (BitVec.ofNat 16 xs.length)) ++ xs

/-! ## Byte-serial transport -/

/-- A word from its four bytes, least significant byte first (20_memory.md R36). -/
def wordOfBytes (b0 b1 b2 b3 : Byte) : Word := b3 ++ b2 ++ b1 ++ b0

/-! ## Opcode-table words -/

/-- The words of a command whose bits are `w`, bit 0 the least significant bit of the command word, a later
word's bits counting on; every bit from `nbits` up is 0. As many argument words as the command takes. -/
def tableWords (nbits w : Nat) : List Word :=
  let bits := w % 2 ^ nbits
  let w0 : Word := BitVec.ofNat 32 bits
  let args := match opcodeOfCode (opcField w0) with
    | some op => argCount op w0
    | none => 0
  w0 :: (List.range args).map fun k => BitVec.ofNat 32 (bits / 2 ^ (32 * (k + 1)))

/-- The port the command with bits `w` is sent on: the one its opcode is assigned to (R51); P where it is
assigned to none, where every port answers ERR_OPCODE. -/
def tablePort (nbits w : Nat) : PortId :=
  match opcodeOfCode (opcField (BitVec.ofNat 32 (w % 2 ^ nbits))) with
  | some op => opcodePort op
  | none => .p

/-- The command the decoder reads from an opcode-table word, or none where it turns the word away. -/
def decodeTableWord (nbits w : Nat) : Option Instr :=
  match decode (tablePort nbits w) (tableWords nbits w) with
  | .command i _ => some i
  | .wait => none
  | .reject _ _ _ => none

end Sys2Proof
end

