-- ==== Sys2Proof/Machine/Flags.lean ====
section
/-! DEFINITION. The block has no flags, condition codes or predicates (10_state.md R29). The outcome of a command is its
response status, which nothing keeps: this file holds the status codes (60_exceptions.md R101). -/

namespace Sys2Proof.Machine

/-- The status codes (R101); codes 6 to 255 are never produced. -/
inductive Status where
  | ok
  | errOpcode
  | errReserved
  | errBand
  | errRange
  | errArg
  deriving DecidableEq, Repr

/-- The code of a status (R101). -/
def statusCode : Status → BitVec 8
  | .ok => 0#8
  | .errOpcode => 1#8
  | .errReserved => 2#8
  | .errBand => 3#8
  | .errRange => 4#8
  | .errArg => 5#8

/-- The status word: the code in bits 7:0, bits 31:8 zero (30_encoding.md R56). -/
def statusWord (st : Status) : Word := (statusCode st).zeroExtend 32

/-- The place of an error in the order in which errors are reported (60_exceptions.md R104): a command that
meets several reports the one with the lowest place. -/
def statusPriority : Status → Nat
  | .errOpcode => 1
  | .errReserved => 2
  | .errBand => 3
  | .errArg => 4
  | .errRange => 5
  | .ok => 6

/-- The words of a response: the status word, the count of result words, the result words (R56). -/
def responseWords (st : Status) (results : List Word) : List Word :=
  statusWord st :: BitVec.ofNat 32 results.length :: results

end Sys2Proof.Machine
end

