-- ==== Sys2Proof/Config.lean ====
section
/-! DEFINITION. What an instance of the block fixes: the constants of 00_scope.md R9, the elaboration parameters of
R7, and the free values (constants without a body, so that no proof can know them). -/

namespace Sys2Proof

/-- Who moves next: port P, port Q, or the host (R18). `accept` and `consumer` are both moves of port Q:
`accept` only takes the next command, which opens the query interval of 20_memory.md R43; `consumer` finishes
the query in progress, or takes the next command and finishes it at once. -/
inductive Turn where
  | producer
  | accept
  | consumer
  | host
  deriving DecidableEq, Repr, Inhabited

namespace Config

/-- CROSSOVER_HZ = 960 (R9). -/
def crossoverHz : Word := 0x44700000#32

/-- Q_FACTOR, the binary32 nearest to 0.15 (R9). -/
def qFactor : Word := 0x3E19999A#32

/-- MIN_BW_HZ = 60 (R9). -/
def minBwHz : Word := 0x42700000#32

/-- FFT_N_LOG2 = 7 in this hardware (R7). -/
def fftNLog2 : Nat := 7

/-- N, the spectral window length, 128 (R7). -/
def fftN : Nat := 2 ^ fftNLog2

/-- H = N/2, the number of magnitude bins, 64 (R7). -/
def fftH : Nat := 2 ^ (fftNLog2 - 1)

/-- RING_CAP_LOG2, the OPEN parameter of R7: an integer 0..24, an exponent, so that no capacity that is not a
power of two can be written (R8). -/
opaque ringCapLog2 : Fin 25

/-- The OPEN parameter Dft32 of 43_spectral.md R81, before property P2 is imposed (`dft32` in
Machine/Spectral.lean does that): input vector and bin number to (re, im). A function of the input vector
alone, which is P1. P3 is a named property and is not assumed. -/
opaque dftRaw : List Word → Nat → Word × Word

/-- The free draws of 40_filter_section.md R66: draw number and register number to any binary32 pattern. -/
opaque unspecifiedCoeff : Nat → Nat → Word

/-- The free draws of 20_memory.md R43: draw number and element number to the choice of a state of the query
interval. -/
opaque tornRead : Nat → Nat → Nat

/-- The order of the agents' moves once `schedule` is used up: draw number to an agent. The spec gives no
order (R43). -/
opaque arbiter : Nat → Turn

/-- The result of Hann32 for an index and a window length whose enclosure does not decide the rounding. DESIGN CHOICE: a
free value, so that the model never claims a rounding it has not established; no entry of this hardware's table of 128
reaches it (log 6). -/
opaque hann32Undecided : Nat → Nat → Word

end Config

end Sys2Proof
end

