-- ==== Sys2Proof/Machine/State.lean ====
section
/-! DEFINITION. The state of the block as plain data: every element of 10_state.md R19 to R32, and beside it the
elaboration parameter and the model's own fields (INVENTORY.md lists them). -/

namespace Sys2Proof.Machine

/-! ## Filter bank state (R20, R21) -/

/-- The five coefficient registers of one section (R20). -/
structure Coeffs where
  a0 : Word
  a1 : Word
  a2 : Word
  b1 : Word
  b2 : Word
  deriving DecidableEq, Repr

/-- One filter section: its coefficient registers and its two filter registers (R20, R21, 40_filter_section.md
R61). -/
structure Section where
  coeffs : Coeffs
  z1 : Word
  z2 : Word
  deriving DecidableEq, Repr

/-- The section numbers 0 to 5, by the names of R20. -/
inductive SectionId where
  | low1
  | low2
  | band1
  | band2
  | high1
  | high2
  deriving DecidableEq, Repr

/-- The six sections in their fixed order (41_filter_bank.md R69). -/
structure Bank where
  low1 : Section
  low2 : Section
  band1 : Section
  band2 : Section
  high1 : Section
  high2 : Section
  deriving DecidableEq, Repr

/-! ## Histories (R22 to R24) -/

/-- A word memory: the words that differ from what an unlisted index reads as, by rising index (log 1). -/
abbrev Memory := List (Nat × Word)

/-- A circular history: its words and its write cursor (R22, R23; R24 for the spectral window). -/
structure Ring where
  mem : Memory
  cursor : Nat
  deriving DecidableEq, Repr

/-- The band indices 0 to 3 (R17). -/
inductive Band where
  | raw
  | low
  | mid
  | high
  deriving DecidableEq, Repr

/-- The four ring buffers, by band (R22). -/
structure Rings where
  raw : Ring
  low : Ring
  mid : Ring
  high : Ring
  deriving DecidableEq, Repr

/-- The state the two ports share; only port P writes it (R18). -/
structure Shared where
  bank : Bank
  rings : Rings
  win : Ring
  sampleRate : Word
  deriving DecidableEq, Repr

/-! ## Ports (R30) -/

/-- What port P is doing (R30): awaiting a command; consuming the arguments of a command that was turned
away; inside a FEED_BLOCK, with so many samples left. -/
inductive ProducerPhase where
  | command
  | discard (left : Nat)
  | block (left : Nat)
  deriving DecidableEq, Repr

/-- What port Q is doing (R30): awaiting a command; consuming the arguments of a command that was turned
away; executing a query. `past` holds the shared states Σ0 .. Σ(k-1) of 20_memory.md R43, oldest first, those
the overlapping producer steps have replaced since the query was accepted, which is when its whole command is taken
(DESIGN CHOICE, log 28); Σk is the present one. -/
inductive ConsumerPhase where
  | command
  | discard (left : Nat)
  | query (i : Instr) (past : List Shared)
  deriving DecidableEq, Repr

/-- One port: the words the host has sent and the port has not taken, the response words the host has not
accepted, the bytes of an incomplete word (20_memory.md R37), and what the port is doing. -/
structure Port (φ : Type) where
  input : List Word
  output : List Word
  bytes : List Byte
  phase : φ
  deriving DecidableEq, Repr

/-! ## The host (R18) -/

/-- What the host does to the block: send a word, send a byte over a byte-serial transport (R36), accept one
response word (60_exceptions.md R107), assert reset (70_reset_and_hazards.md R112). -/
inductive HostEvent where
  | word (port : PortId) (w : Word)
  | byte (port : PortId) (b : Byte)
  | take (port : PortId)
  | reset
  deriving DecidableEq, Repr

/-! ## The whole state -/

/-- The state of one block. `shared`, `p` and `q` are the architectural state (R19). `ringCapLog2` is the
elaboration parameter RING_CAP_LOG2 (00_scope.md R7), which no step writes (log 2). `draws` numbers the free
draws, `schedule` says which agent moves next as far as it reaches, `host` what the host does next: the model's
own fields (log 9, log 16). -/
structure State where
  shared : Shared
  p : Port ProducerPhase
  q : Port ConsumerPhase
  ringCapLog2 : Fin 25
  draws : Nat
  schedule : List Turn
  host : List HostEvent
  deriving DecidableEq, Repr

/-- The block has no traps: no step of it ends in a fault (60_exceptions.md R106; 93_implementation_defined.md
Part 1: no source behaviour is treated as a fault). So there is no reason to list, and no one raises one: safe
and unsafe do not arise (log 18). -/
inductive Fault : Type
  deriving DecidableEq, Repr

/-- The reasons for which the model has no meaning for a command. -/
inductive Refusal where
  /-- raised by `exec` for a command of the opcode table that has no meaning yet. Safe: the model stops. No arm
  of `exec` raises it now. -/
  | notModelled (mnemonic : String)
  deriving DecidableEq, Repr

/-! ## Reset (R32, 70_reset_and_hazards.md R112) -/

/-- +0.0 in all five coefficient registers (R20). -/
def Coeffs.reset : Coeffs := ⟨0#32, 0#32, 0#32, 0#32, 0#32⟩

/-- +0.0 in all seven registers of a section (R20, R21). -/
def Section.reset : Section := ⟨Coeffs.reset, 0#32, 0#32⟩

/-- All six sections at reset. -/
def Bank.reset : Bank :=
  ⟨Section.reset, Section.reset, Section.reset, Section.reset, Section.reset, Section.reset⟩

/-- Every word +0.0 (nothing listed) and the cursor 0 (R22 to R24). -/
def Ring.reset : Ring := ⟨[], 0⟩

/-- All four rings at reset. -/
def Rings.reset : Rings := ⟨Ring.reset, Ring.reset, Ring.reset, Ring.reset⟩

/-- The shared state at reset; the sample rate is +0.0, "not configured" (R25). -/
def Shared.reset : Shared := ⟨Bank.reset, Rings.reset, Ring.reset, 0#32⟩

/-- Port P at reset: awaiting a command word, nothing in flight, no response pending (R30). -/
def producerReset : Port ProducerPhase := ⟨[], [], [], .command⟩

/-- Port Q at reset (R30). -/
def consumerReset : Port ConsumerPhase := ⟨[], [], [], .command⟩

/-- The machine right after reset. The parameter holds the OPEN value of Config (log 2); the model's own fields
are DESIGN CHOICE (log 16). -/
def State.reset : State :=
  ⟨Shared.reset, producerReset, consumerReset, Config.ringCapLog2, 0, [], []⟩

end Sys2Proof.Machine
end

