-- ==== Sys2Proof/Machine/Ops.lean ====
section
/-! DEFINITION. The named operations over memories, registers and ports, and the error response every command shares
(`raise Status` of 00_scope.md R15), the block's counterpart of taking an exception. -/

namespace Sys2Proof.Machine

/-! ## Word memories (20_memory.md R35, R38) -/

/-- What an index that is not listed reads as: the reset contents, +0.0 (10_state.md R22, R24). -/
def unlistedWord : Word := 0#32

/-- MemRead: the word at an index. -/
def memRead : Memory → Nat → Word
  | [], _ => unlistedWord
  | (a, w) :: m, i => if a < i then memRead m i else if a = i then w else unlistedWord

/-- MemWrite: the memory with one word replaced. The value an unlisted index reads as is not listed. -/
def memWrite : Memory → Nat → Word → Memory
  | [], i, v => if v = unlistedWord then [] else [(i, v)]
  | (a, w) :: m, i, v =>
    if a < i then (a, w) :: memWrite m i v
    else if a = i then (if v = unlistedWord then m else (i, v) :: m)
    else (if v = unlistedWord then (a, w) :: m else (i, v) :: (a, w) :: m)

/-- The canonical form: indices strictly rising, and no entry equal to what an unlisted index reads as. -/
def Memory.wf (m : Memory) : Bool :=
  decide (m.Pairwise fun x y => x.1 < y.1) && m.all fun c => decide (c.2 ≠ unlistedWord)

/-! ## Circular histories (42_ring_buffer.md R73, R74) -/

/-- The slot of the k-th most recent sample, for a cursor value i0 and 0 ≤ k < size (R73). The two's-complement
difference i0 - 1 - k is kept non-negative by adding size. -/
def slot (size i0 k : Nat) : Nat := (i0 + (size - 1 - k)) % size

/-- Write at the cursor and advance it mod the size: `push` (R74) and `appendWindow` (43_spectral.md R79). -/
def ringPush (size : Nat) (r : Ring) (x : Word) : Ring :=
  ⟨memWrite r.mem r.cursor x, (r.cursor + 1) % size⟩

/-! ## Registers by number (R20, R22) -/

/-- The number 0..5 of a section (R20). -/
def SectionId.num : SectionId → Nat
  | .low1 => 0
  | .low2 => 1
  | .band1 => 2
  | .band2 => 3
  | .high1 => 4
  | .high2 => 5

/-- Read a section. -/
def Bank.get (b : Bank) : SectionId → Section
  | .low1 => b.low1
  | .low2 => b.low2
  | .band1 => b.band1
  | .band2 => b.band2
  | .high1 => b.high1
  | .high2 => b.high2

/-- Replace a section. -/
def Bank.set (b : Bank) (s : SectionId) (v : Section) : Bank :=
  match s with
  | .low1 => { b with low1 := v }
  | .low2 => { b with low2 := v }
  | .band1 => { b with band1 := v }
  | .band2 => { b with band2 := v }
  | .high1 => { b with high1 := v }
  | .high2 => { b with high2 := v }

/-- Replace the five coefficients of a section; its filter registers stay (R63 to R65). -/
def Bank.setCoeffs (b : Bank) (s : SectionId) (c : Coeffs) : Bank :=
  b.set s { b.get s with coeffs := c }

/-- Read a ring buffer. -/
def Rings.get (r : Rings) : Band → Ring
  | .raw => r.raw
  | .low => r.low
  | .mid => r.mid
  | .high => r.high

/-! ## The shared state -/

/-- C, the capacity of the four ring buffers (R7). -/
def State.capacity (s : State) : Nat := 2 ^ s.ringCapLog2.val

/-- A producer step's write of the shared state. If a query is being executed, the state replaced becomes one
more of the states it may read from (20_memory.md R43). -/
def State.commit (s : State) (sh : Shared) : State :=
  match s.q.phase with
  | .query i past =>
    { s with shared := sh, q := { s.q with phase := .query i (past ++ [s.shared]) } }
  | .command => { s with shared := sh }
  | .discard _ => { s with shared := sh }

/-! ## Responses (30_encoding.md R56) -/

/-- Append a response to a port's output stream. -/
def Port.respond {φ : Type} (port : Port φ) (st : Status) (results : List Word) : Port φ :=
  { port with output := port.output ++ responseWords st results }

/-- Port P ends its command with a response and awaits the next one. -/
def State.endProducer (s : State) (st : Status) (results : List Word) : State :=
  { s with p := { s.p.respond st results with phase := .command } }

/-- Port Q ends its command with a response and awaits the next one. A query's response words are all sent here, in the
step that ends it: 20_memory.md R43 fixes only when the last one is sent, and the rest is the model's DESIGN CHOICE
(log 27). -/
def State.endConsumer (s : State) (st : Status) (results : List Word) : State :=
  { s with q := { s.q.respond st results with phase := .command } }

/-- `raise Status(code)` on port P: a response with no result words; no shared state is written (R15,
60_exceptions.md R103). -/
def State.raiseProducer (s : State) (st : Status) : State := s.endProducer st []

/-- `raise Status(code)` on port Q (R15, R103). -/
def State.raiseConsumer (s : State) (st : Status) : State := s.endConsumer st []

/-- The end of a query: its result words with status OK, or the status it raised. Its draws are used up. -/
def State.answer (s : State) (r : Except Status (List Word)) : State :=
  match r with
  | .ok results => { s.endConsumer .ok results with draws := s.draws + 1 }
  | .error st => { s.raiseConsumer st with draws := s.draws + 1 }

/-- The status a decode error is answered with (R57). -/
def errorStatus : DecodeError → Status
  | .unassignedOpcode => .errOpcode
  | .reservedField => .errReserved

/-! ## What a query reads (20_memory.md R43) -/

/-- What a query reads from: Σ0 .. Σ(k-1), Σk, the number of its draws, and C. -/
structure View where
  past : List Shared
  now : Shared
  draw : Nat
  capacity : Nat
  deriving DecidableEq, Repr

/-- The states a query may read from: those its overlapping producer steps replaced, and the present one. -/
def State.view (s : State) : View :=
  ⟨match s.q.phase with
    | .query _ past => past
    | .command => []
    | .discard _ => [],
   s.shared, s.draws, s.capacity⟩

/-- The state from which the query takes its e-th element: the present one when nothing overlapped the query,
else a free draw among Σ0 .. Σk (R43). -/
def View.sample (v : View) (e : Nat) : Shared :=
  match v.past with
  | [] => v.now
  | old :: rest =>
    (old :: rest ++ [v.now]).getD (Config.tornRead v.draw e % (rest.length + 2)) v.now

/-- The sample rate, read once: element 0. -/
def View.rate (v : View) : Word := (v.sample 0).sampleRate

/-- A ring cursor, read once: element 1. -/
def View.cursor (v : View) (b : Band) : Nat := ((v.sample 1).rings.get b).cursor

/-- The k-th ring word a query reads, at index i: element 2 + k. -/
def View.ringWord (v : View) (b : Band) (k i : Nat) : Word :=
  memRead ((v.sample (2 + k)).rings.get b).mem i

/-- The window cursor widx, read once: element 1. -/
def View.windowCursor (v : View) : Nat := (v.sample 1).win.cursor

/-- The k-th window word a query reads, at index i: element 2 + k. -/
def View.windowWord (v : View) (k i : Nat) : Word := memRead (v.sample (2 + k)).win.mem i

/-! ## The host's events -/

/-- A byte received over a byte-serial transport: the fourth byte completes a word (20_memory.md R36, R37). -/
def Port.receiveByte {φ : Type} (port : Port φ) (b : Byte) : Port φ :=
  match port.bytes with
  | [b0, b1, b2] => { port with bytes := [], input := port.input ++ [wordOfBytes b0 b1 b2 b] }
  | bs => { port with bytes := bs ++ [b] }

/-- A word received from the host. -/
def Port.receiveWord {φ : Type} (port : Port φ) (w : Word) : Port φ :=
  { port with input := port.input ++ [w] }

/-- The host accepts one response word (60_exceptions.md R107 (a)). -/
def Port.take {φ : Type} (port : Port φ) : Port φ := { port with output := port.output.tail }

/-- The reset event (70_reset_and_hazards.md R112): every architectural element takes its reset value, and both
ports become idle. The parameter and the model's own fields are no state of the block (log 22). -/
def State.resetEvent (s : State) : State :=
  { s with shared := Shared.reset, p := producerReset, q := consumerReset }

/-- What one event of the host does to the block. -/
def State.hostEvent (s : State) : HostEvent → State
  | .word .p w => { s with p := s.p.receiveWord w }
  | .word .q w => { s with q := s.q.receiveWord w }
  | .byte .p b => { s with p := s.p.receiveByte b }
  | .byte .q b => { s with q := s.q.receiveByte b }
  | .take .p => { s with p := s.p.take }
  | .take .q => { s with q := s.q.take }
  | .reset => s.resetEvent

end Sys2Proof.Machine
end

