-- ==== Sys2Proof/Machine/Binary32.lean ====
section
/-! DEFINITION. IEEE 754 binary32 arithmetic on words (00_scope.md R11 to R13). Every operation computes the exact
result in units of 2^-149, the spacing of the subnormals, and rounds it once, to nearest, ties to even. What IEEE 754
says and the spec does not repeat (the sign of a zero result, the invalid operations) is PRESUMED, log 19. -/

namespace Sys2Proof.Machine

/-! ## Fields and classes (R11) -/

/-- The biased exponent, bits 30:23. -/
def expField (w : Word) : Nat := w.toNat / 2 ^ 23 % 2 ^ 8

/-- The fraction, bits 22:0. -/
def fracField (w : Word) : Nat := w.toNat % 2 ^ 23

/-- The sign, bit 31. -/
def signBit (w : Word) : Bool := w.msb

/-- Any NaN pattern. -/
def isNaN (w : Word) : Bool := expField w == 255 && fracField w != 0

/-- +infinity or -infinity. -/
def isInf (w : Word) : Bool := expField w == 255 && fracField w == 0

/-- +0.0 or -0.0. -/
def isZero (w : Word) : Bool := expField w == 0 && fracField w == 0

/-- Neither NaN nor an infinity. -/
def isFinite (w : Word) : Bool := expField w != 255

/-- The magnitude of a finite word, in units of 2^-149; subnormals are kept (R12). -/
def magnitude (w : Word) : Nat :=
  if expField w = 0 then fracField w else (2 ^ 23 + fracField w) * 2 ^ (expField w - 1)

/-- The value of a finite word, in units of 2^-149. -/
def units (w : Word) : Int := if signBit w then -(magnitude w : Int) else magnitude w

/-- The canonical quiet NaN (R13). -/
def qNaN : Word := 0x7FC00000#32

/-! ## Rounding (R12) -/

/-- The integer nearest to n/d, ties to even. -/
def nearestEven (n d : Nat) : Nat :=
  if 2 * (n % d) < d then n / d
  else if d < 2 * (n % d) then n / d + 1
  else n / d + n / d % 2

/-- The low 31 bits of the binary32 nearest to n/d units, ties to even: exponent and fraction are adjacent
fields, so a significand k at exponent e is the number k + e·2^23, and a significand that rounds up to 2^24
carries into the exponent. Overflow gives the pattern of infinity. -/
def roundUnits (n d : Nat) : Nat :=
  let e := Nat.log2 (n / d) - 23
  min (nearestEven n (d * 2 ^ e) + e * 2 ^ 23) 0x7F800000

/-- A word from its sign and its low 31 bits. -/
def pack (neg : Bool) (m : Nat) : Word := BitVec.ofNat 32 ((if neg then 2 ^ 31 else 0) + m)

/-! ## Bit operations (R12, R13) -/

/-- Bit 31 inverted; a NaN keeps its payload. -/
def neg32 (a : Word) : Word := a ^^^ 0x80000000#32

/-- Bit 31 cleared; a NaN keeps its payload. -/
def abs32 (a : Word) : Word := a &&& 0x7FFFFFFF#32

/-! ## Comparison (R12) -/

/-- A number that orders all words but the NaNs: the low 31 bits, negated under a sign. Both zeros give 0. -/
def orderKey (w : Word) : Int :=
  if signBit w then -((w.toNat % 2 ^ 31 : Nat) : Int) else ((w.toNat % 2 ^ 31 : Nat) : Int)

/-- IEEE "less than": false when either is a NaN. -/
def lt32 (a b : Word) : Bool := !isNaN a && !isNaN b && decide (orderKey a < orderKey b)

/-- IEEE equality: +0 = -0, and a NaN equals nothing. -/
def eq32 (a b : Word) : Bool := !isNaN a && !isNaN b && decide (orderKey a = orderKey b)

/-- The smaller of two words that are not NaN: the `min` of 43_spectral.md R87. DEDUCED, log 17: safe for the
operands R87 gives it, which are finite and not negative. -/
def min32 (a b : Word) : Word := if lt32 b a then b else a

/-! ## Arithmetic (R12, R13) -/

/-- add32. An exact sum of zero is +0.0 unless both operands are negative. -/
def add32 (a b : Word) : Word :=
  if isNaN a || isNaN b then qNaN
  else if isInf a then
    if isInf b && signBit a != signBit b then qNaN else a
  else if isInf b then b
  else if units a + units b = 0 then pack (signBit a && signBit b) 0
  else pack (decide (units a + units b < 0)) (roundUnits (units a + units b).natAbs 1)

/-- sub32. -/
def sub32 (a b : Word) : Word := add32 a (neg32 b)

/-- mul32. -/
def mul32 (a b : Word) : Word :=
  if isNaN a || isNaN b then qNaN
  else if isInf a || isInf b then
    if isZero a || isZero b then qNaN else pack (signBit a != signBit b) 0x7F800000
  else pack (signBit a != signBit b) (roundUnits (magnitude a * magnitude b) (2 ^ 149))

/-- div32. -/
def div32 (a b : Word) : Word :=
  if isNaN a || isNaN b then qNaN
  else if isInf a then
    if isInf b then qNaN else pack (signBit a != signBit b) 0x7F800000
  else if isInf b then pack (signBit a != signBit b) 0
  else if isZero b then
    if isZero a then qNaN else pack (signBit a != signBit b) 0x7F800000
  else pack (signBit a != signBit b) (roundUnits (magnitude a * 2 ^ 149) (magnitude b))

/-- The bits of the integer square root of `x` below 2^k, added to `acc` from the top down. -/
def isqrtFrom : Nat → Nat → Nat → Nat
  | 0, _, acc => acc
  | k + 1, x, acc =>
    isqrtFrom k x (if (acc + 2 ^ k) * (acc + 2 ^ k) ≤ x then acc + 2 ^ k else acc)

/-- The integer square root, for x < 2^428. -/
def isqrt (x : Nat) : Nat := isqrtFrom 214 x 0

/-- sqrt32. With r the integer square root of x, the exact root is r or lies strictly between r and r + 1; in the
second case r + 1/2 rounds the same way, since r has far more than 24 bits. -/
def sqrt32 (a : Word) : Word :=
  if isNaN a then qNaN
  else if isZero a then a
  else if signBit a then qNaN
  else if isInf a then a
  else
    let x := magnitude a * 2 ^ 149
    let r := isqrt x
    pack false (roundUnits (2 * r + if r * r = x then 0 else 1) 2)

/-! ## Integers (R12) -/

/-- u2f: a non-negative integer rounded to binary32. -/
def u2f (n : Nat) : Word := pack false (roundUnits (n * 2 ^ 149) 1)

/-- floorZ of a finite word: the mathematical floor. A caller never asks it of a NaN or an infinity. -/
def floorZ (v : Word) : Int := units v / 2 ^ 149

/-- A non-negative decimal literal num/den, or its negation, rounded to the nearest binary32 (30_encoding.md R58). -/
def f32OfRatio (neg : Bool) (num den : Nat) : Word := pack neg (roundUnits (num * 2 ^ 149) den)

end Sys2Proof.Machine
end

