-- ==== Sys2Proof/Machine/Transcendental.lean ====
section
/-! DEFINITION. Tan32 and Hann32, correctly rounded (00_scope.md R14). Each is computed as an enclosure of the real
value by two rationals; where both ends round to the same binary32, that is the binary32 nearest to the real value.
Where they do not, Tan32 is found by exact comparisons of the tangent with rationals (log 5), and Hann32 is a free value
of Config, which no entry of this hardware's table reaches (log 6). -/

namespace Sys2Proof.Machine

/-- The number of fraction bits of the fixed-point enclosures. -/
def enclosureBits : Nat := 320

/-- ⌊π·2^320⌋. -/
def piFloor : Nat := 0x3243f6a8885a308d313198a2e03707344a4093822299f31d0082efa98ec4e6c89452821e638d01377

/-- A non-negative real between lo/2^320 and hi/2^320. -/
structure Enclosure where
  lo : Nat
  hi : Nat
  deriving DecidableEq, Repr

/-- The product of two enclosed reals. -/
def Enclosure.mul (a b : Enclosure) : Enclosure :=
  ⟨a.lo * b.lo / 2 ^ enclosureBits, a.hi * b.hi / 2 ^ enclosureBits + 1⟩

/-- An enclosed real divided by a positive integer. -/
def Enclosure.divNat (a : Enclosure) (n : Nat) : Enclosure := ⟨a.lo / n, a.hi / n + 1⟩

/-- n terms of a Taylor series whose term after x^d/d! is x^(d+2)/(d+2)!, from the term t = x^d/d! on. -/
def taylorTerms : Nat → Nat → Enclosure → Enclosure → List Enclosure
  | 0, _, _, _ => []
  | n + 1, d, t, xx => t :: taylorTerms n (d + 2) ((t.mul xx).divNat ((d + 1) * (d + 2))) xx

/-- The 1st, 3rd, 5th ... entries of a list. -/
def everyOther : List Enclosure → List Enclosure
  | [] => []
  | [a] => [a]
  | a :: _ :: rest => a :: everyOther rest

/-- The alternating series with these terms (an even number of them): stopping after the last, which is
subtracted, is a lower bound, and stopping before it an upper bound. -/
def alternatingSum (ts : List Enclosure) : Enclosure :=
  ⟨((everyOther ts).map Enclosure.lo).sum - ((everyOther ts.tail).map Enclosure.hi).sum,
   ((everyOther ts).map Enclosure.hi).sum - ((everyOther ts.tail).dropLast.map Enclosure.lo).sum⟩

/-- sin of an enclosed real in [0, π/2]. -/
def sinEnclosure (x : Enclosure) : Enclosure := alternatingSum (taylorTerms 40 1 x (x.mul x))

/-- cos of an enclosed real in [0, π/2]. -/
def cosEnclosure (x : Enclosure) : Enclosure :=
  alternatingSum (taylorTerms 40 0 ⟨2 ^ enclosureBits, 2 ^ enclosureBits⟩ (x.mul x))

/-- π·n/d. -/
def piTimes (n d : Nat) : Enclosure := ⟨n * piFloor / d, n * (piFloor + 1) / d + 1⟩

/-- The low 31 bits of the binary32 both ends of [n₁/d₁, n₂/d₂] round to, in units of 2^-149, if they agree; the upper
end decides nothing when its denominator is 0. -/
def decideRounding (n₁ d₁ n₂ d₂ : Nat) : Option Nat :=
  if d₂ ≠ 0 ∧ roundUnits n₁ d₁ = roundUnits n₂ d₂ then some (roundUnits n₁ d₁) else none

/-- tan(π·a/2^k) against p/q, for 0 < 2a < 2^k and q > 0, exactly: tan(π/4) is 1; below π/4, where the tangent is below
1, the order with p/q < 1 is that of the tangent of the double angle with 2pq/(q² - p²); above π/4 the tangent is the
reciprocal of that of π/2 less the angle. The angle π/4 is reached before k is used up. -/
def compareTan : Nat → Nat → Nat → Nat → Ordering
  | 0, _, _, _ => .eq
  | k + 1, a, p, q =>
    if 4 * a = 2 ^ (k + 1) then compare q p
    else if 4 * a < 2 ^ (k + 1) then
      if q ≤ p then .lt else compareTan k a (2 * p * q) (q * q - p * p)
    else
      if p ≤ q then .gt else (compareTan k (2 ^ k - a) (2 * p * q) (p * p - q * q)).swap

/-- Whether tan(π·fc) rounds to the word `m` or a greater one: it is above the midpoint of the words m - 1 and m, or on it
and m is even (R12). -/
def tanReaches (fc : Word) (m : Nat) : Bool :=
  match compareTan 149 (magnitude fc)
      (magnitude (BitVec.ofNat 32 (m - 1)) + magnitude (BitVec.ofNat 32 m)) (2 ^ 150) with
  | .gt => true
  | .eq => decide (m % 2 = 0)
  | .lt => false

/-- The greatest word that tan(π·fc) reaches, its bits below 2^k found from the top down. -/
def tanNearestFrom (fc : Word) : Nat → Nat → Nat
  | 0, acc => acc
  | k + 1, acc => tanNearestFrom fc k (if tanReaches fc (acc + 2 ^ k) then acc + 2 ^ k else acc)

/-- The low 31 bits of the binary32 nearest to tan(π·fc), by exact comparisons. -/
def tanNearest (fc : Word) : Nat := tanNearestFrom fc 31 0

/-- Tan32(fc), the binary32 nearest to tan(π·fc), for 0 < fc < 0.5 (R14). The product π·fc is not rounded. The enclosure
is the short way; where it does not decide the rounding, the exact comparisons do (log 5). -/
def tan32 (fc : Word) : Word :=
  let x := piTimes (magnitude fc) (2 ^ 149)
  let s := sinEnclosure x
  let c := cosEnclosure x
  match decideRounding (s.lo * 2 ^ 149) c.hi (s.hi * 2 ^ 149) c.lo with
  | some m => pack false m
  | none => pack false (tanNearest fc)

/-- Hann32(i, N), the binary32 nearest to 0.5·(1 - cos(2π·i/N)), for i < N (R14). It is sin²(π·i/N), which is
also sin²(π·(N - i)/N); the smaller angle is at most π/2. -/
def hann32 (i n : Nat) : Word :=
  if i = 0 then 0#32
  else
    let s := sinEnclosure (piTimes (min i (n - i)) n)
    match decideRounding (s.lo * s.lo * 2 ^ 149) (2 ^ (2 * enclosureBits))
        (s.hi * s.hi * 2 ^ 149) (2 ^ (2 * enclosureBits)) with
    | some m => pack false m
    | none => Config.hann32Undecided i n

end Sys2Proof.Machine
end

