-- ==== Sys2Proof/Machine/FilterBank.lean ====
section
/-! DEFINITION. The filter section and the three-band filter bank (40_filter_section.md, 41_filter_bank.md). -/

namespace Sys2Proof.Machine

/-- 1.0 -/
def one32 : Word := 0x3F800000#32

/-- 2.0 -/
def two32 : Word := 0x40000000#32

/-- 0.5 -/
def half32 : Word := 0x3F000000#32

/-! ## Coefficient derivation (R62 to R66) -/

/-- VALID(Fc, Q) (R66). -/
def validFc (fc q : Word) : Bool := lt32 0#32 fc && lt32 fc half32 && lt32 0#32 q

/-- The intermediate values all three responses share (R62). -/
structure Derived where
  k : Word
  kq : Word
  k2 : Word
  norm : Word
  b1 : Word
  b2 : Word
  deriving DecidableEq, Repr

/-- derive(Fc, Q) from K = Tan32(Fc), in the order of operations R62 gives. -/
def deriveFrom (k q : Word) : Derived :=
  let kq := div32 k q
  let k2 := mul32 k k
  let norm := div32 one32 (add32 (add32 one32 kq) k2)
  ⟨k, kq, k2, norm,
   mul32 (mul32 two32 (sub32 k2 one32)) norm,
   mul32 (add32 (sub32 one32 kq) k2) norm⟩

/-- derive(Fc, Q) (R62). -/
def derive32 (fc q : Word) : Derived := deriveFrom (tan32 fc) q

/-- The lowpass coefficients from the intermediate values (R63). -/
def lowpassOf (d : Derived) : Coeffs :=
  let a := mul32 d.k2 d.norm
  ⟨a, mul32 two32 a, a, d.b1, d.b2⟩

/-- The bandpass coefficients (R64). -/
def bandpassOf (d : Derived) : Coeffs :=
  let a := mul32 d.kq d.norm
  ⟨a, 0#32, neg32 a, d.b1, d.b2⟩

/-- The highpass coefficients (R65). -/
def highpassOf (d : Derived) : Coeffs :=
  ⟨d.norm, neg32 (mul32 two32 d.norm), d.norm, d.b1, d.b2⟩

/-- Five unspecified coefficients for a section: an independent free draw for each register (R66, I1, log 7). -/
def unspecifiedCoeffs (draw : Nat) (s : SectionId) : Coeffs :=
  ⟨Config.unspecifiedCoeff draw (5 * s.num),
   Config.unspecifiedCoeff draw (5 * s.num + 1),
   Config.unspecifiedCoeff draw (5 * s.num + 2),
   Config.unspecifiedCoeff draw (5 * s.num + 3),
   Config.unspecifiedCoeff draw (5 * s.num + 4)⟩

/-- setLowpass(s, Fc, Q) (R63, R66). -/
def setLowpass (draw : Nat) (bank : Bank) (s : SectionId) (fc q : Word) : Bank :=
  bank.setCoeffs s (if validFc fc q then lowpassOf (derive32 fc q) else unspecifiedCoeffs draw s)

/-- setBandpass(s, Fc, Q) (R64, R66). -/
def setBandpass (draw : Nat) (bank : Bank) (s : SectionId) (fc q : Word) : Bank :=
  bank.setCoeffs s (if validFc fc q then bandpassOf (derive32 fc q) else unspecifiedCoeffs draw s)

/-- setHighpass(s, Fc, Q) (R65, R66). -/
def setHighpass (draw : Nat) (bank : Bank) (s : SectionId) (fc q : Word) : Bank :=
  bank.setCoeffs s (if validFc fc q then highpassOf (derive32 fc q) else unspecifiedCoeffs draw s)

/-- configure(rate, crossover, Q) (R70). -/
def configure (draw : Nat) (bank : Bank) (rate crossover q : Word) : Bank :=
  let fc := div32 crossover rate
  let bank := setLowpass draw (setLowpass draw bank .low1 fc q) .low2 fc q
  let bank := setBandpass draw (setBandpass draw bank .band1 fc q) .band2 fc q
  setHighpass draw (setHighpass draw bank .high1 fc q) .high2 fc q

/-! ## The per-sample update (R67, R71) -/

/-- feedSample(s, x): the output sample (R67). -/
def feedOutput (s : Section) (x : Word) : Word := add32 (mul32 x s.coeffs.a0) s.z1

/-- feedSample(s, x): the section with its two registers updated, both from the old ones (R67). Where the sentences of R67
(b) and R119 say more of a NaN or an infinity than this pseudocode gives, it is the pseudocode that is followed (DEDUCED,
log 21). -/
def feedSection (s : Section) (x : Word) : Section :=
  let y := feedOutput s x
  ⟨s.coeffs,
   sub32 (add32 (mul32 x s.coeffs.a1) s.z2) (mul32 s.coeffs.b1 y),
   sub32 (mul32 x s.coeffs.a2) (mul32 s.coeffs.b2 y)⟩

/-- Two sections in cascade: the output of the second (R69, R71). -/
def cascadeOutput (s1 s2 : Section) (x : Word) : Word := feedOutput s2 (feedOutput s1 x)

/-- process(x): the bank with all six sections fed once (R71). -/
def processBank (b : Bank) (x : Word) : Bank :=
  ⟨feedSection b.low1 x, feedSection b.low2 (feedOutput b.low1 x),
   feedSection b.band1 x, feedSection b.band2 (feedOutput b.band1 x),
   feedSection b.high1 x, feedSection b.high2 (feedOutput b.high1 x)⟩

/-- process(x): the low, mid and high outputs (R71). -/
def processOutputs (b : Bank) (x : Word) : Word × Word × Word :=
  (cascadeOutput b.low1 b.low2 x, cascadeOutput b.band1 b.band2 x, cascadeOutput b.high1 b.high2 x)

end Sys2Proof.Machine
end

