-- ==== Sys2Proof/Machine/Operands.lean ====
section
/-! DEFINITION. The operand forms of the commands (30_encoding.md R54): band index, mode, u32 argument, f32 duration. -/

namespace Sys2Proof.Machine

/-- The band a BAND field names, if it names one (R17). -/
def bandOfField (b : BitVec 4) : Option Band :=
  match b.toNat with
  | 0 => some .raw
  | 1 => some .low
  | 2 => some .mid
  | 3 => some .high
  | _ => none

/-- The band operand, or ERR_BAND for BAND 4..15 (44_commands.md R94 to R98). -/
def bandOperand (b : BitVec 4) : Except Status Band :=
  match bandOfField b with
  | some band => .ok band
  | none => .error .errBand

/-- A u32 argument word (R54). -/
abbrev u32Operand (w : Word) : Nat := w.toNat

/-- sampleCount(d, rate) of 44_commands.md R93: the floor of the binary32 product, saturated; ERR_ARG for a
negative or NaN product. -/
def sampleCount (d rate : Word) : Except Status Nat :=
  let p := mul32 d rate
  if isNaN p || lt32 p 0#32 then .error .errArg
  else if isInf p then .ok (2 ^ 32 - 1)
  else .ok (min (floorZ p).toNat (2 ^ 32 - 1))

end Sys2Proof.Machine
end

