-- ==== Sys2Proof/Machine/Producer.lean ====
section
/-! DEFINITION. The commands of the producer port (44_commands.md R89 to R91). -/

namespace Sys2Proof.Machine

/-- The state writes of one FEED step, as one atomic step: push the sample to the raw ring, run the bank, push its
three outputs, append the sample to the spectral window (R89). -/
def feedShared (capacity : Nat) (sh : Shared) (x : Word) : Shared :=
  let outs := processOutputs sh.bank x
  ⟨processBank sh.bank x,
   ⟨ringPush capacity sh.rings.raw x, ringPush capacity sh.rings.low outs.1,
    ringPush capacity sh.rings.mid outs.2.1, ringPush capacity sh.rings.high outs.2.2⟩,
   ringPush Config.fftN sh.win x,
   sh.sampleRate⟩

/-- One FEED step without its response (R89, R90). -/
def State.feedStep (s : State) (x : Word) : State := s.commit (feedShared s.capacity s.shared x)

/-- FEED (R89). -/
def execFeed (x : Word) (s : State) : Host.Outcome State Fault Refusal :=
  .next ((s.feedStep x).endProducer .ok [])

/-- FEED_BLOCK (R90): port P is inside the block until CNT samples have been fed, one turn of the port each; an
empty block is answered at once (log 12). -/
def execFeedBlock (cnt : BitVec 16) (s : State) : Host.Outcome State Fault Refusal :=
  .next (if cnt.toNat = 0 then s.endProducer .ok []
    else { s with p := { s.p with phase := .block cnt.toNat } })

/-- One sample of a FEED_BLOCK with `left` samples left, this one included: a FEED step, and after the last the
response (R90). -/
def State.blockSample (s : State) (left : Nat) (x : Word) : State :=
  if left ≤ 1 then (s.feedStep x).endProducer .ok []
  else { s.feedStep x with p := { s.p with phase := .block (left - 1) } }

/-- The state writes of a SET_SAMPLE_RATE that changes the rate: the register, bit-exact, and all thirty
coefficients (R91, 41_filter_bank.md R70). -/
def rateShared (draw : Nat) (sh : Shared) (rate : Word) : Shared :=
  { sh with
    bank := configure draw sh.bank rate Config.crossoverHz Config.qFactor
    sampleRate := rate }

/-- SET_SAMPLE_RATE (R91): a no-op if the rate is unchanged by binary32 equality. -/
def execSetSampleRate (rate : Word) (s : State) : Host.Outcome State Fault Refusal :=
  .next (if eq32 rate s.shared.sampleRate then s.endProducer .ok []
    else { (s.commit (rateShared s.draws s.shared rate)).endProducer .ok [] with draws := s.draws + 1 })

end Sys2Proof.Machine
end

