-- ==== Sys2Proof/Machine/RingBuffer.lean ====
section
/-! DEFINITION. The ring buffer's queries: peak, rms, copyRecent (42_ring_buffer.md R75 to R77). `push` is `ringPush`
of Machine/Ops.lean. -/

namespace Sys2Proof.Machine

/-- The running maximum of peak: replaced only by a strictly greater magnitude, so a NaN never wins (R75). -/
def peakStep (m x : Word) : Word := if lt32 m (abs32 x) then abs32 x else m

/-- max(|x|) of a window, from +0.0 (R75). -/
def peakOf (window : List Word) : Word := window.foldl peakStep 0#32

/-- The sum of squares of a window, from +0.0 (R76). -/
def sumSquares (window : List Word) : Word := window.foldl (fun acc v => add32 acc (mul32 v v)) 0#32

/-- The root of the mean square of a window of r words (R76). -/
def rmsOf (r : Nat) (window : List Word) : Word := sqrt32 (div32 (sumSquares window) (u2f r))

/-- The r most recent words of a ring as the query reads them, newest first (R73, R75, R76). -/
def recentWindow (v : View) (b : Band) (r : Nat) : List Word :=
  (List.range r).map fun k => v.ringWord b k (slot v.capacity (v.cursor b) k)

/-- peak(b, range): range clamped to [1, C] (R75). -/
def peakQuery (v : View) (b : Band) (range : Nat) : Word :=
  peakOf (recentWindow v b (min (max range 1) v.capacity))

/-- rms(b, range): range clamped above by C; ERR_RANGE for an empty window (R76, C1 of 90_conflicts.md). -/
def rmsQuery (v : View) (b : Band) (range : Nat) : Except Status Word :=
  if min range v.capacity = 0 then .error .errRange
  else .ok (rmsOf (min range v.capacity) (recentWindow v b (min range v.capacity)))

/-- copyRecent(b, length): the L = min(length, C) most recent words, oldest first; the index (i0 - L + k) mod C is
kept non-negative by adding C (R77). -/
def copyRecent (v : View) (b : Band) (length : Nat) : List Word :=
  (List.range (min length v.capacity)).map fun k =>
    v.ringWord b k ((v.cursor b + (v.capacity - min length v.capacity) + k) % v.capacity)

end Sys2Proof.Machine
end

