-- ==== Sys2Proof/Machine/Spectral.lean ====
section
/-! DEFINITION. The spectral engine: analyze, mean, toIndex, the linear and the logarithmic reducer (43_spectral.md R80 to
R88). `appendWindow` is `ringPush` of Machine/Ops.lean with N in place of C (R79). -/

namespace Sys2Proof.Machine

/-! ## Magnitude analysis (R80 to R82) -/

/-- Dft32 (R81): the free function of Config with property P2 imposed: where every input is +0.0 or -0.0, every
output keeps only its sign bit, so it is +0.0 or -0.0. P1 holds of every function (log 4). -/
def dft32 (xw : List Word) (k : Nat) : Word × Word :=
  if xw.all isZero then
    ((Config.dftRaw xw k).1 &&& 0x80000000#32, (Config.dftRaw xw k).2 &&& 0x80000000#32)
  else Config.dftRaw xw k

/-- The window in chronological order, oldest first, as the query reads it (R80). -/
def chronological (v : View) : List Word :=
  (List.range Config.fftN).map fun i => v.windowWord i ((v.windowCursor + i) % Config.fftN)

/-- The windowed samples xw (R82). -/
def windowed (xs : List Word) : List Word :=
  xs.mapIdx fun i x => mul32 x (hann32 i Config.fftN)

/-- The magnitude of a (re, im) pair (R82). -/
def magnitudeOf (c : Word × Word) : Word := sqrt32 (add32 (mul32 c.1 c.1) (mul32 c.2 c.2))

/-- mag[0..H-1]: mag[j] is the magnitude of source bin j + 1 (R82). -/
def magnitudes (xw : List Word) : List Word :=
  (List.range Config.fftH).map fun j => magnitudeOf (dft32 xw (j + 1))

/-- analyze() (R82). -/
def analyze (v : View) : List Word := magnitudes (windowed (chronological v))

/-! ## Helpers (R83, R84) -/

/-- mean(mag, a, e): the average of mag[a..e-1], summed in ascending order (R83). -/
def mean (mag : List Word) (a e : Nat) : Word :=
  div32 (((mag.drop a).take (e - a)).foldl add32 0#32) (u2f (e - a))

/-- toIndex(v): an index 0..H-1 (R84). -/
def toIndex (v : Word) : Nat :=
  if isNaN v then 0
  else if isInf v then (if signBit v then 0 else Config.fftH - 1)
  else min (floorZ v).toNat (Config.fftH - 1)

/-! ## Linear reduction (R85) -/

/-- reduceLinear(mag, L) (R85). -/
def reduceLinear (mag : List Word) (l : Nat) : Except Status (List Word) :=
  if l < 1 ∨ Config.fftH < l then .error .errArg
  else
    .ok ((List.range l).map fun i =>
      mean mag (i * (Config.fftH / l)) ((i + 1) * (Config.fftH / l)))

/-! ## Logarithmic reduction (R86, R87) -/

/-- The halvings octaves counts, at most `fuel` of them: one for each value that is not below MIN_BW_HZ (R86). -/
def octaveCount : Nat → Word → Nat
  | 0, _ => 0
  | fuel + 1, f => if lt32 f Config.minBwHz then 0 else octaveCount fuel (div32 f 0x40000000#32) + 1

/-- The Nyquist frequency of octaves(rate) (R86). -/
def nyquist (rate : Word) : Word := div32 rate 0x40000000#32

/-- The octave count O of octaves(rate) for a finite rate > 0; it is at most 122, so 128 halvings are enough
(R86). -/
def octaves (rate : Word) : Nat := octaveCount 128 (nyquist rate)

/-- The magnitude index of a frequency: toIndex of N·freq/rate (R84, R87). -/
def binIndex (rate f : Word) : Nat := toIndex (div32 (mul32 (u2f Config.fftN) f) rate)

/-- The means of n sub-bands from the edge f upward; an edge never passes hi (R87). -/
def subBands (mag : List Word) (rate step hi : Word) : Nat → Word → List Word
  | 0, _ => []
  | n + 1, f =>
    let g := min32 (add32 f step) hi
    mean mag (binIndex rate f) (max (binIndex rate g) (binIndex rate f + 1))
      :: subBands mag rate step hi n g

/-- The lower edge of octave i of o (R87). -/
def octaveLo (ny : Word) (o i : Nat) : Word :=
  if i = 0 then 0#32 else div32 ny (u2f (2 ^ (o - i)))

/-- The upper edge of octave i of o (R87). -/
def octaveHi (ny : Word) (o i : Nat) : Word := div32 ny (u2f (2 ^ (o - i - 1)))

/-- The bpo outputs of octave i of o (R87). -/
def octaveBands (mag : List Word) (rate : Word) (o bpo i : Nat) : List Word :=
  let lo := octaveLo (nyquist rate) o i
  let hi := octaveHi (nyquist rate) o i
  subBands mag rate (div32 (sub32 hi lo) (u2f bpo)) hi bpo lo

/-- reduceLog(mag, rate, L): L + 1 values; the slots after the last octave stay +0.0 (R87). -/
def reduceLog (mag : List Word) (rate : Word) (l : Nat) : Except Status (List Word) :=
  if isNaN rate || isInf rate || !lt32 0#32 rate then .error .errArg
  else if l = 2 ^ 32 - 1 then .error .errArg
  else if octaves rate = 0 then .error .errArg
  else if (l + 1) / octaves rate = 0 then .error .errArg
  else
    .ok ((List.range (octaves rate)).flatMap (octaveBands mag rate (octaves rate) ((l + 1) / octaves rate))
      ++ List.replicate (l + 1 - octaves rate * ((l + 1) / octaves rate)) 0#32)

end Sys2Proof.Machine
end

