-- ==== Sys2Proof/Machine/Queries.lean ====
section
/-! DEFINITION. The queries of the consumer port (44_commands.md R92 to R99). Each reads a view of the shared state
(20_memory.md R43), writes none of it, and ends with a response. -/

namespace Sys2Proof.Machine

/-- GET_SAMPLE_RATE (R92). -/
def execGetSampleRate (s : State) : Host.Outcome State Fault Refusal :=
  .next (s.answer (.ok [s.view.rate]))

/-- GET_PEAK (R94): ERR_BAND before the duration's ERR_ARG. -/
def execGetPeak (band : BitVec 4) (duration : Word) (s : State) : Host.Outcome State Fault Refusal :=
  .next (s.answer do
    let b ← bandOperand band
    let r ← sampleCount duration s.view.rate
    pure [peakQuery s.view b r])

/-- GET_RMS (R95). -/
def execGetRms (band : BitVec 4) (duration : Word) (s : State) : Host.Outcome State Fault Refusal :=
  .next (s.answer do
    let b ← bandOperand band
    let r ← sampleCount duration s.view.rate
    let v ← rmsQuery s.view b r
    pure [v])

/-- PEAK_N (R96). -/
def execPeakN (band : BitVec 4) (range : Word) (s : State) : Host.Outcome State Fault Refusal :=
  .next (s.answer do
    let b ← bandOperand band
    pure [peakQuery s.view b (u32Operand range)])

/-- RMS_N (R97). -/
def execRmsN (band : BitVec 4) (range : Word) (s : State) : Host.Outcome State Fault Refusal :=
  .next (s.answer do
    let b ← bandOperand band
    let v ← rmsQuery s.view b (u32Operand range)
    pure [v])

/-- COPY_WAVEFORM (R98). -/
def execCopyWaveform (band : BitVec 4) (length : Word) (s : State) : Host.Outcome State Fault Refusal :=
  .next (s.answer do
    let b ← bandOperand band
    pure (copyRecent s.view b (u32Operand length)))

/-- GET_BAND_AVERAGES (R99): mode 0 linear, mode 1 logarithmic, any other ERR_ARG. -/
def execGetBandAverages (mode : BitVec 4) (length : Word) (s : State) : Host.Outcome State Fault Refusal :=
  .next (s.answer
    (if mode.toNat = 0 then reduceLinear (analyze s.view) (u32Operand length)
     else if mode.toNat = 1 then reduceLog (analyze s.view) s.view.rate (u32Operand length)
     else .error .errArg))

end Sys2Proof.Machine
end

