-- ==== Sys2Proof/Machine/Dispatch.lean ====
section
/-! DEFINITION. One arm per command: the meaning each is dispatched to (44_commands.md R89 to R99). -/

namespace Sys2Proof.Machine

def exec (i : Instr) (s : State) : Host.Outcome State Fault Refusal :=
  match i with
  | .feed x => Sys2Proof.Machine.execFeed x s
  | .feedBlock cnt => Sys2Proof.Machine.execFeedBlock cnt s
  | .setSampleRate rate => Sys2Proof.Machine.execSetSampleRate rate s
  | .getSampleRate => Sys2Proof.Machine.execGetSampleRate s
  | .getPeak band duration => Sys2Proof.Machine.execGetPeak band duration s
  | .getRms band duration => Sys2Proof.Machine.execGetRms band duration s
  | .peakN band range => Sys2Proof.Machine.execPeakN band range s
  | .rmsN band range => Sys2Proof.Machine.execRmsN band range s
  | .copyWaveform band length => Sys2Proof.Machine.execCopyWaveform band length s
  | .getBandAverages mode length => Sys2Proof.Machine.execGetBandAverages mode length s

end Sys2Proof.Machine
end

