-- ==== Sys2Proof/Machine/Ports.lean ====
section
/-! DEFINITION. One turn of each agent (00_scope.md R18): how a port takes a command from its word stream and runs it
(30_encoding.md R55), and the host's turn. -/

namespace Sys2Proof.Machine

/-- The words port P has not taken, after it took some. -/
def State.setProducerInput (s : State) (ws : List Word) : State := { s with p := { s.p with input := ws } }

/-- The words port Q has not taken, after it took some. -/
def State.setConsumerInput (s : State) (ws : List Word) : State := { s with q := { s.q with input := ws } }

/-- Port P turns a command away: the error response, once the arguments still to come have been consumed (R55,
R57; log 11). -/
def State.rejectProducer (s : State) (e : DecodeError) (args : Nat) : State :=
  if args = 0 then s.raiseProducer (errorStatus e)
  else { s with p := { s.p with phase := .discard args } }

/-- Port Q turns a command away. -/
def State.rejectConsumer (s : State) (e : DecodeError) (args : Nat) : State :=
  if args = 0 then s.raiseConsumer (errorStatus e)
  else { s with q := { s.q with phase := .discard args } }

/-- A turn of port P: take the next command and run it; or consume one argument of a rejected command; or feed
one sample of the FEED_BLOCK in progress. Where the words are not there yet, nothing changes (60_exceptions.md
R107 (c)). -/
def producerTurn (s : State) : Host.Outcome State Fault Refusal :=
  match s.p.phase with
  | .command =>
    match decode .p s.p.input with
    | .wait => .next s
    | .command i rest => exec i (s.setProducerInput rest)
    | .reject e args rest => .next ((s.setProducerInput rest).rejectProducer e args)
  | .discard left =>
    match s.p.input with
    | [] => .next s
    | _ :: rest => .next ((s.setProducerInput rest).rejectProducer .reservedField (left - 1))
  | .block left =>
    match s.p.input with
    | [] => .next s
    | x :: rest => .next ((s.setProducerInput rest).blockSample left x)

/-- A turn of port Q that goes on to the end of a query: finish the query in progress; or take the next command
and finish it at once, so that no producer step overlaps it (it is accepted in this turn, log 28); or consume one
argument of a rejected command. -/
def consumerTurn (s : State) : Host.Outcome State Fault Refusal :=
  match s.q.phase with
  | .query i _ => exec i s
  | .command =>
    match decode .q s.q.input with
    | .wait => .next s
    | .command i rest => exec i (s.setConsumerInput rest)
    | .reject e args rest => .next ((s.setConsumerInput rest).rejectConsumer e args)
  | .discard left =>
    match s.q.input with
    | [] => .next s
    | _ :: rest => .next ((s.setConsumerInput rest).rejectConsumer .reservedField (left - 1))

/-- A turn of port Q that only accepts the next query: its interval is open from here on (20_memory.md R43), until
a turn `consumer` ends it. R43 does not say which instant a query's acceptance is; that it is the turn that takes the
whole command, after its argument word has arrived, is a DESIGN CHOICE, log 28 (unsafe). Where there is no query to
accept, nothing changes. -/
def acceptTurn (s : State) : State :=
  match s.q.phase with
  | .query _ _ => s
  | .discard _ => s
  | .command =>
    match decode .q s.q.input with
    | .command i rest => { s with q := { s.q with input := rest, phase := .query i [] } }
    | .wait => s
    | .reject _ _ _ => s

/-- A turn of the host: its next event, if it has one. -/
def hostTurn (s : State) : State :=
  match s.host with
  | [] => s
  | e :: rest => { s with host := rest }.hostEvent e

/-- The turn of one agent. -/
def takeTurn (t : Turn) (s : State) : Host.Outcome State Fault Refusal :=
  match t with
  | .producer => producerTurn s
  | .consumer => consumerTurn s
  | .accept => .next (acceptTurn s)
  | .host => .next (hostTurn s)

/-- Who moves next, and the state with that choice used up: the head of `schedule`, or a free draw (log 9). -/
def nextTurn (s : State) : Turn × State :=
  match s.schedule with
  | t :: rest => (t, { s with schedule := rest })
  | [] => (Config.arbiter s.draws, { s with draws := s.draws + 1 })

/-- The words of a command at the head of a port's stream and that port's turn next: port P. -/
def placeOnProducer (s : State) (ws : List Word) : State :=
  { s with p := { s.p with input := ws, phase := .command }, schedule := .producer :: s.schedule }

/-- The same for port Q. -/
def placeOnConsumer (s : State) (ws : List Word) : State :=
  { s with q := { s.q with input := ws, phase := .command }, schedule := .consumer :: s.schedule }

end Sys2Proof.Machine
end

