-- ==== Sys2Proof/Machine/Step.lean ====
section
/-! DEFINITION. One step of the machine: the turn of one agent. -/

namespace Sys2Proof.Machine

/-- One step: the agent whose turn it is moves (log 9). -/
def step (s : State) : Host.Outcome State Fault Refusal := takeTurn (nextTurn s).1 (nextTurn s).2

/-- `s` with the command whose bits are `w` sent to the port its opcode is assigned to, that port awaiting a
command, and that port's turn next: the block fetches nothing, a command is sent to it from outside (10_state.md
R27; log 15). -/
def State.withFetchWord (s : State) (nbits w : Nat) : State :=
  match tablePort nbits w with
  | .p => placeOnProducer s (tableWords nbits w)
  | .q => placeOnConsumer s (tableWords nbits w)

end Sys2Proof.Machine
end

