-- ==== Sys2Proof/Machine/Assembler.lean ====
section
/-! DEFINITION. The assembler forms and pseudo-instructions of 30_encoding.md R58 and R59, as functions to the port and
the words a line stands for. A line's text is not modelled: an operand is given as the value its text names (log 25);
`f32OfRatio` of Machine/Binary32.lean rounds a decimal literal. -/

namespace Sys2Proof.Machine

/-- A line of the assembler syntax (R58) or a pseudo-instruction (R59). -/
inductive AsmLine where
  | feed (x : Word)
  | feedBlock (xs : List Word)
  | setRate (rate : Word)
  | getRate
  | getPeak (band : Fin 4) (duration : Word)
  | getRms (band : Fin 4) (duration : Word)
  | peakN (band : Fin 4) (range : Word)
  | rmsN (band : Fin 4) (range : Word)
  | copyWave (band : Fin 4) (length : Word)
  | bandAvgLin (length : Word)
  | bandAvgLog (length : Word)
  | bandAvg (length : Word)
  | feedZeros (n : Nat)
  | rawWord (port : PortId) (w : Word)
  deriving DecidableEq, Repr

/-- The BAND field of `b<k>` (R58). -/
def asmBand (k : Fin 4) : BitVec 4 := BitVec.ofNat 4 k.val

/-- `feed.zeros n` (R59): full blocks of 65535 samples, then one of the remainder; for n ≤ 65535 one block. -/
def feedZerosWords (n : Nat) : List Word :=
  let full := if n ≤ 65535 then 0 else n / 65535
  let last := n - 65535 * full
  (List.replicate full (encodeBlock (List.replicate 65535 0#32))).flatten
    ++ (if full ≠ 0 ∧ last = 0 then [] else encodeBlock (List.replicate last 0#32))

/-- The port and the words of a line; none for a `feed.block` of more than 65535 operands, which R58 does not
admit. -/
def asmWords : AsmLine → Option (PortId × List Word)
  | .feed x => some (.p, encode (.feed x))
  | .feedBlock xs => if xs.length ≤ 65535 then some (.p, encodeBlock xs) else none
  | .setRate rate => some (.p, encode (.setSampleRate rate))
  | .getRate => some (.q, encode .getSampleRate)
  | .getPeak k d => some (.q, encode (.getPeak (asmBand k) d))
  | .getRms k d => some (.q, encode (.getRms (asmBand k) d))
  | .peakN k r => some (.q, encode (.peakN (asmBand k) r))
  | .rmsN k r => some (.q, encode (.rmsN (asmBand k) r))
  | .copyWave k l => some (.q, encode (.copyWaveform (asmBand k) l))
  | .bandAvgLin l => some (.q, encode (.getBandAverages 0#4 l))
  | .bandAvgLog l => some (.q, encode (.getBandAverages 1#4 l))
  | .bandAvg l => some (.q, encode (.getBandAverages 0#4 l))
  | .feedZeros n => some (.p, feedZerosWords n)
  | .rawWord port w => some (port, [w])

end Sys2Proof.Machine
end

