-- ==== Sys2Proof/Safety.lean ====
section
/-! DEFINITION. What counts as a legal state and a safe run, in the terms the claims use: the ranges and the canonical
forms of 10_state.md, the coefficients that follow the sample rate (41_filter_bank.md R69, R70), the history a ring stands
for (10_state.md R22), and runs of chosen turns. -/

namespace Sys2Proof.Machine

/-! ## Legal states -/

/-- A circular history of `size` words: canonical memory, indices and cursor in range (R22 to R24, R35). -/
def Ring.wf (size : Nat) (r : Ring) : Bool :=
  r.mem.wf && r.mem.all (fun c => decide (c.1 < size)) && decide (r.cursor < size)

/-- The four rings and the window are well formed, and the four cursors are equal (R23). -/
def Shared.wf (capacity : Nat) (sh : Shared) : Bool :=
  sh.rings.raw.wf capacity && sh.rings.low.wf capacity && sh.rings.mid.wf capacity
    && sh.rings.high.wf capacity && sh.win.wf Config.fftN
    && decide (sh.rings.low.cursor = sh.rings.raw.cursor)
    && decide (sh.rings.mid.cursor = sh.rings.raw.cursor)
    && decide (sh.rings.high.cursor = sh.rings.raw.cursor)

/-- What port P can be doing (R30). -/
def ProducerPhase.wf : ProducerPhase → Bool
  | .command => true
  | .discard left => decide (1 ≤ left ∧ left ≤ 65535)
  | .block left => decide (1 ≤ left ∧ left ≤ 65535)

/-- What port Q can be doing (R30): a rejected command of port Q has one argument, a query in progress is a
command of port Q, and the states it may read from were legal. -/
def ConsumerPhase.wf (capacity : Nat) : ConsumerPhase → Bool
  | .command => true
  | .discard left => decide (left = 1)
  | .query i past => decide (i.port = .q) && past.all (Shared.wf capacity)

/-- A legal state of the block. -/
def State.wf (s : State) : Bool :=
  s.shared.wf s.capacity && s.p.phase.wf && s.q.phase.wf s.capacity
    && decide (s.p.bytes.length < 4) && decide (s.q.bytes.length < 4)

/-! ## The bank -/

/-- Fc of the configured rate (R70). -/
def cutoffOf (rate : Word) : Word := div32 Config.crossoverHz rate

/-- The thirty coefficients are those that R63 to R65 derive from the sample rate, whenever the rate gives a valid
cutoff (R69, R70 (c)). -/
def Shared.coeffsFollowRate (sh : Shared) : Prop :=
  validFc (cutoffOf sh.sampleRate) Config.qFactor = true →
    sh.bank.low1.coeffs = lowpassOf (derive32 (cutoffOf sh.sampleRate) Config.qFactor)
    ∧ sh.bank.low2.coeffs = lowpassOf (derive32 (cutoffOf sh.sampleRate) Config.qFactor)
    ∧ sh.bank.band1.coeffs = bandpassOf (derive32 (cutoffOf sh.sampleRate) Config.qFactor)
    ∧ sh.bank.band2.coeffs = bandpassOf (derive32 (cutoffOf sh.sampleRate) Config.qFactor)
    ∧ sh.bank.high1.coeffs = highpassOf (derive32 (cutoffOf sh.sampleRate) Config.qFactor)
    ∧ sh.bank.high2.coeffs = highpassOf (derive32 (cutoffOf sh.sampleRate) Config.qFactor)

/-- A section whose registers hold a NaN (70_reset_and_hazards.md R119). -/
def Section.poisoned (x : Section) : Bool := isNaN x.z1 || isNaN x.z2

/-! ## Histories -/

/-- The last `size` samples pushed, oldest first: the sliding window a ring stands for (R22). -/
def historyOf (size : Nat) (r : Ring) : List Word :=
  (List.range size).map fun k => memRead r.mem ((r.cursor + k) % size)

/-- The n most recent samples of a ring, newest first (42_ring_buffer.md R73). -/
def newestOf (size : Nat) (r : Ring) (n : Nat) : List Word := (historyOf size r).reverse.take n

/-- Port Q is between commands: no producer step overlaps the query it takes next (R43 (a)). -/
def State.queryIdle (s : State) : Prop := s.q.phase = .command

/-! ## Runs -/

/-- A run in which the agents move in the given order. -/
def runTurns : List Turn → State → Host.Outcome State Fault Refusal
  | [], s => .next s
  | t :: rest, s =>
    match takeTurn t s with
    | .next s' => runTurns rest s'
    | .fault f => .fault f
    | .refused r => .refused r

/-- A run is safe when it ends in a next state and that state is legal. -/
def safeRun (o : Host.Outcome State Fault Refusal) : Prop := ∃ t, o = .next t ∧ t.wf = true

end Sys2Proof.Machine
end

