-- ==== Sys2Proof/Certificates/Slice0/Obligations.lean ====
section
/-! DEFINITION. The statements for the provers, taken from the numbered rules of spec/. -/

namespace Sys2Proof.Machine

/-! ## Words the statements share -/

/-- The first word of a response: the status codes as the table of 60_exceptions.md R101 gives them, bits 31:8 zero
(30_encoding.md R56). -/
def codeWord : Status → Word
  | .ok => 0#32
  | .errOpcode => 1#32
  | .errReserved => 2#32
  | .errBand => 3#32
  | .errRange => 4#32
  | .errArg => 5#32

/-- The state after a query has ended with these response words: they are appended to port Q's output stream, port Q
awaits its next command, the query's draws are used up (the model's own field, log 8), and nothing else is changed. -/
def State.afterResponse (s : State) (words : List Word) : State :=
  { s with q := { s.q with output := s.q.output ++ words, phase := .command }, draws := s.draws + 1 }

/-- The state after a query has ended with this status and these result words (30_encoding.md R56). -/
def State.afterQuery (s : State) (st : Status) (results : List Word) : State :=
  s.afterResponse (codeWord st :: BitVec.ofNat 32 results.length :: results)

/-- The state after a producer command has ended with this response, without a write of shared state. -/
def State.afterCommand (s : State) (st : Status) : State :=
  { s with p := { s.p with output := s.p.output ++ [codeWord st, 0#32], phase := .command } }

/-- Producer steps have replaced the shared states `olds`, oldest first: a query in progress may still read from them
(20_memory.md R43). That they are kept in its phase is the model's choice (log 8). -/
def ConsumerPhase.remember (olds : List Shared) : ConsumerPhase → ConsumerPhase
  | .query i past => .query i (past ++ olds)
  | .command => .command
  | .discard left => .discard left

/-- The state after a producer step has replaced the shared state by `sh`: besides, only a query in progress
remembers the old one (R43; how is the model's choice, log 8). -/
def State.afterWrite (s : State) (sh : Shared) : State :=
  { s with shared := sh, q := { s.q with phase := s.q.phase.remember [s.shared] } }

/-- The state after one FEED step for each of the samples `xs`: besides, a query in progress remembers the state before
each of them (R43; how is the model's choice, log 8). -/
def State.afterFeeds (s : State) (xs : List Word) : State :=
  { s with
    shared := xs.foldl (feedShared s.capacity) s.shared
    q := { s.q with
      phase := s.q.phase.remember
        ((List.range xs.length).map fun k => (xs.take k).foldl (feedShared s.capacity) s.shared) } }

/-- Σ0 .. Σk, the shared states a query may read from: those that producer steps have replaced since it was accepted, and
the present one (R43). That it is accepted in the turn that takes its whole command is the model's choice (log 28). -/
def State.interval (s : State) : List Shared :=
  match s.q.phase with
  | .query _ past => past ++ [s.shared]
  | .command => [s.shared]
  | .discard _ => [s.shared]

/-- `window` is n words of a ring, newest first, as a query may read them (42_ring_buffer.md R73, 20_memory.md R43): for
one cursor value i0 that a state of the interval holds, the k-th is the word at (i0 - 1 - k) mod C in a state of the
interval. -/
def State.readsNewestFirst (s : State) (b : Band) (n : Nat) (window : List Word) : Prop :=
  window.length = n ∧ ∃ sh₀ ∈ s.interval, ∀ k < n, ∃ sh ∈ s.interval,
    window[k]? = some (memRead (sh.rings.get b).mem
      ((((sh₀.rings.get b).cursor : Int) - 1 - k) % (s.capacity : Int)).toNat)

/-- `window` is n words of a ring, oldest first, as a query may read them: the k-th is the word at (i0 - n + k) mod C
(42_ring_buffer.md R77, 20_memory.md R43). -/
def State.readsOldestFirst (s : State) (b : Band) (n : Nat) (window : List Word) : Prop :=
  window.length = n ∧ ∃ sh₀ ∈ s.interval, ∀ k < n, ∃ sh ∈ s.interval,
    window[k]? = some (memRead (sh.rings.get b).mem
      ((((sh₀.rings.get b).cursor : Int) - n + k) % (s.capacity : Int)).toNat)

/-- `xs` is the spectral window, oldest sample first, as a query may read it: the i-th is the word at (i0 + i) mod 128
(43_spectral.md R80, 20_memory.md R43). -/
def State.readsSpectralWindow (s : State) (xs : List Word) : Prop :=
  xs.length = 128 ∧ ∃ sh₀ ∈ s.interval, ∀ i < 128, ∃ sh ∈ s.interval,
    xs[i]? = some (memRead sh.win.mem ((sh₀.win.cursor + i) % 128))

/-- The magnitude of source bin k of the window `xs`, oldest sample first: hann[i] weights the i-th oldest sample
(43_spectral.md R80, R82). -/
def binMagnitude (xs : List Word) (k : Nat) : Word :=
  let c := dft32 ((List.range 128).map fun i => mul32 (xs.getD i 0#32) (hann32 i 128)) k
  sqrt32 (add32 (mul32 c.1 c.1) (mul32 c.2 c.2))

/-- The average of mag[a..e-1], summed in ascending order from +0.0 and divided by the count (R83), where mag[j] is the
magnitude of source bin j + 1 (R82 (a)). -/
def binMean (xs : List Word) (a e : Nat) : Word :=
  div32 ((List.range (e - a)).foldl (fun acc k => add32 acc (binMagnitude xs (a + k + 1))) 0#32) (u2f (e - a))

/-- The magnitude index of a frequency: the floor of 128·f/rate clamped to 0..63; 0 for a NaN and -infinity, 63 for
+infinity (R84). -/
def frequencyIndex (rate f : Word) : Nat :=
  let v := div32 (mul32 (u2f 128) f) rate
  if isNaN v = true then 0
  else if v = 0x7F800000#32 then 63
  else if v = 0xFF800000#32 then 0
  else (min (max (units v / 2 ^ 149) 0) 63).toNat

/-- The bits of the command word a command does not use, as the mask columns of spec/opcode_table.json give them. -/
def unusedMask : Opcode → Word
  | .feed => 0xFFFFFF00#32
  | .feedBlock => 0x0000FF00#32
  | .setSampleRate => 0xFFFFFF00#32
  | .getSampleRate => 0xFFFFFF00#32
  | .getPeak => 0xFFFFF000#32
  | .getRms => 0xFFFFF000#32
  | .peakN => 0xFFFFF000#32
  | .rmsN => 0xFFFFF000#32
  | .copyWaveform => 0xFFFFF000#32
  | .getBandAverages => 0xFFFF0F00#32

/-- `w` is at least as far from x/y units as `r`, for finite words and y not 0. -/
def noFarther (r w : Word) (x y : Int) : Prop := |units r * y - x| ≤ |units w * y - x|

/-- `r` is the exact x/y units, y not 0, rounded once: from half a unit beyond the largest finite magnitude an infinity
of its sign, else the finite word nearest to it, of two that are as near the one whose last bit is 0 (00_scope.md R12). -/
def roundsTo (r : Word) (x y : Int) : Prop :=
  ((2 ^ 25 - 1) * 2 ^ 253 * |y| ≤ 2 * |x| → r = if x * y < 0 then 0xFF800000#32 else 0x7F800000#32)
  ∧ (2 * |x| < (2 ^ 25 - 1) * 2 ^ 253 * |y| →
    isFinite r = true ∧ ∀ w : Word, isFinite w = true →
      noFarther r w x y ∧ (units w ≠ units r → noFarther w r x y → r.toNat % 2 = 0))

/-- Distances to a real number of units. -/
noncomputable def realDistance (w : Word) (x : ℝ) : ℝ := |(units w : ℝ) - x|

end Sys2Proof.Machine

open Sys2Proof Sys2Proof.Machine

/-! ## Encoding (30_encoding.md) -/

/-- R52 to R55: decoding an encoded command, on its own port, gives the command back and leaves the words after it. -/
def Obligations.DecodeOfEncodeIsTheCommand : Prop :=
  ∀ (i : Instr) (rest : List Word), decode i.port (encode i ++ rest) = .command i rest

/-- R53, R55: a command is decoded from its own words only, and on its own port only. -/
def Obligations.DecodedWordsAreTheEncoding : Prop :=
  ∀ (port : PortId) (ws rest : List Word) (i : Instr),
    decode port ws = .command i rest → ws = encode i ++ rest ∧ i.port = port

/-- R57 (a): every opcode that is not assigned to the port is turned away, and only the command word is consumed. -/
def Obligations.UnassignedOpcodesAreRejected : Prop :=
  ∀ (port : PortId) (w : Word) (rest : List Word),
    (∀ op, opcodeCode op = opcField w → opcodePort op ≠ port) →
      decode port (w :: rest) = .reject .unassignedOpcode 0 rest

/-- R57 (b): a command word of an assigned opcode with any unused bit set is turned away as reserved, whatever
follows it. -/
def Obligations.ReservedBitsAreRejected : Prop :=
  ∀ (op : Opcode) (w : Word) (rest : List Word),
    opcodeCode op = opcField w → w &&& unusedMask op ≠ 0#32 →
      decode (opcodePort op) (w :: rest) = .reject .reservedField (argCount op w) rest

/-- R60: the encoding examples, each line assembled to its words and the words decoded to the command the line names; the
two `.word` lines are answered with ERR_RESERVED and ERR_OPCODE. The decimal operands 1.0, 2.0, 48000.0 and 0.001 are the
binary32 words the lines show. -/
def Obligations.EncodingExamplesDecode : Prop :=
  (f32OfRatio false 1 1 = 0x3F800000#32 ∧ f32OfRatio false 2 1 = 0x40000000#32
    ∧ f32OfRatio false 48000 1 = 0x473B8000#32 ∧ f32OfRatio false 1 1000 = 0x3A83126F#32)
  ∧ (asmWords (.feed 0x3F800000#32) = some (.p, [0x00000001#32, 0x3F800000#32])
    ∧ decode .p [0x00000001#32, 0x3F800000#32] = .command (.feed 0x3F800000#32) [])
  ∧ (asmWords (.feedBlock [0x3F800000#32, 0x40000000#32]) = some (.p, [0x00020002#32, 0x3F800000#32, 0x40000000#32])
    ∧ decode .p [0x00020002#32, 0x3F800000#32, 0x40000000#32]
        = .command (.feedBlock 2#16) [0x3F800000#32, 0x40000000#32])
  ∧ (asmWords (.setRate 0x473B8000#32) = some (.p, [0x00000003#32, 0x473B8000#32])
    ∧ decode .p [0x00000003#32, 0x473B8000#32] = .command (.setSampleRate 0x473B8000#32) [])
  ∧ (asmWords .getRate = some (.q, [0x00000010#32]) ∧ decode .q [0x00000010#32] = .command .getSampleRate [])
  ∧ (asmWords (.getPeak 0 0x3A83126F#32) = some (.q, [0x00000011#32, 0x3A83126F#32])
    ∧ decode .q [0x00000011#32, 0x3A83126F#32] = .command (.getPeak 0#4 0x3A83126F#32) [])
  ∧ (asmWords (.getRms 3 0x3F800000#32) = some (.q, [0x00000312#32, 0x3F800000#32])
    ∧ decode .q [0x00000312#32, 0x3F800000#32] = .command (.getRms 3#4 0x3F800000#32) [])
  ∧ (asmWords (.peakN 3 4#32) = some (.q, [0x00000313#32, 0x00000004#32])
    ∧ decode .q [0x00000313#32, 0x00000004#32] = .command (.peakN 3#4 4#32) [])
  ∧ (asmWords (.rmsN 1 0#32) = some (.q, [0x00000114#32, 0x00000000#32])
    ∧ decode .q [0x00000114#32, 0x00000000#32] = .command (.rmsN 1#4 0#32) [])
  ∧ (asmWords (.copyWave 2 4#32) = some (.q, [0x00000215#32, 0x00000004#32])
    ∧ decode .q [0x00000215#32, 0x00000004#32] = .command (.copyWaveform 2#4 4#32) [])
  ∧ (asmWords (.bandAvgLog 8#32) = some (.q, [0x00001016#32, 0x00000008#32])
    ∧ decode .q [0x00001016#32, 0x00000008#32] = .command (.getBandAverages 1#4 8#32) [])
  ∧ (asmWords (.rawWord .p 0x00000101#32) = some (.p, [0x00000101#32])
    ∧ decode .p [0x00000101#32, 0x3F800000#32] = .reject .reservedField 1 [0x3F800000#32]
    ∧ errorStatus .reservedField = .errReserved)
  ∧ (asmWords (.rawWord .p 0x00000100#32) = some (.p, [0x00000100#32])
    ∧ decode .p [0x00000100#32, 0x3F800000#32] = .reject .unassignedOpcode 0 [0x3F800000#32]
    ∧ decode .p [0x3F800000#32] = .reject .unassignedOpcode 0 [] ∧ errorStatus .unassignedOpcode = .errOpcode)

/-- R59: `band_avg` is `band_avg.lin`; `feed.zeros n` is one FEED_BLOCK of n zero samples for n ≤ 65535, and for
n = 65535·q + r with r in 1..65535 it is q blocks of 65535 zero samples and one of r, which are ⌈n/65535⌉ blocks. -/
def Obligations.FeedZerosExpansion : Prop :=
  (∀ l : Word, asmWords (.bandAvg l) = asmWords (.bandAvgLin l))
  ∧ (∀ n : Nat, n ≤ 65535 → asmWords (.feedZeros n) = asmWords (.feedBlock (List.replicate n 0#32)))
  ∧ ∀ q r : Nat, 1 ≤ r → r ≤ 65535 →
      asmWords (.feedZeros (65535 * q + r)) = some (.p,
        (List.replicate q (encodeBlock (List.replicate 65535 0#32))).flatten ++ encodeBlock (List.replicate r 0#32))
      ∧ (65535 * q + r + 65534) / 65535 = q + 1

/-! ## The ports and the step -/

/-- R55: port P's turn runs the command at the head of its word stream. That the agents move in turns, and how a turn
is chosen, is the model's choice (log 9). -/
def Obligations.ProducerStepRunsTheCommand : Prop :=
  ∀ (s : State) (i : Instr) (rest : List Word),
    (nextTurn s).1 = .producer → s.p.phase = .command → decode .p s.p.input = .command i rest →
      step s = exec i ((nextTurn s).2.setProducerInput rest)

/-- R55: port Q's turn runs the query at the head of its word stream, or the query in progress. That the agents move
in turns, and how a turn is chosen, is the model's choice (log 9). -/
def Obligations.ConsumerStepRunsTheQuery : Prop :=
  ∀ (s : State) (i : Instr), (nextTurn s).1 = .consumer →
    (∀ rest, s.q.phase = .command → decode .q s.q.input = .command i rest →
      step s = exec i ((nextTurn s).2.setConsumerInput rest))
    ∧ (∀ past, s.q.phase = .query i past → step s = exec i (nextTurn s).2)

/-- R106, R100: no step ends in a fault or a refusal. That the agents move in turns, and how a turn is chosen, is the
model's choice (log 9). -/
def Obligations.EveryStepAnswersNext : Prop := ∀ s : State, ∃ t, step s = .next t

/-- R107 (c): a port whose command is not complete waits: its turn changes nothing, whether it awaits the rest of a
command, an argument of a rejected command, or a sample of a block. That the agents move in turns, and how a turn is
chosen, is the model's choice (log 9). -/
def Obligations.IncompleteCommandWaits : Prop :=
  (∀ s : State, s.p.phase = .command → decode .p s.p.input = .wait → takeTurn .producer s = .next s)
  ∧ (∀ s : State, s.q.phase = .command → decode .q s.q.input = .wait →
      takeTurn .consumer s = .next s ∧ takeTurn .accept s = .next s)
  ∧ (∀ (s : State) (left : Nat), s.p.phase = .block left ∨ s.p.phase = .discard left → s.p.input = [] →
      takeTurn .producer s = .next s)
  ∧ (∀ (s : State) (left : Nat), s.q.phase = .discard left → s.q.input = [] →
      takeTurn .consumer s = .next s ∧ takeTurn .accept s = .next s)

/-- R57 (a), R103: an unassigned opcode is answered with ERR_OPCODE, M = 0; one word is consumed and nothing else is
changed. That the agents move in turns, and how a turn is chosen, is the model's choice (log 9). -/
def Obligations.UnassignedOpcodeAnswersErrOpcode : Prop :=
  ∀ (s : State) (w : Word) (rest : List Word),
    (s.p.phase = .command → s.p.input = w :: rest → (∀ op, opcodeCode op = opcField w → opcodePort op ≠ .p) →
      takeTurn .producer s
        = .next { s with p := { s.p with input := rest, output := s.p.output ++ [1#32, 0#32] } })
    ∧ (s.q.phase = .command → s.q.input = w :: rest → (∀ op, opcodeCode op = opcField w → opcodePort op ≠ .q) →
      takeTurn .consumer s
        = .next { s with q := { s.q with input := rest, output := s.q.output ++ [1#32, 0#32] } })

/-- R55, R57 (b), R103: on either port a command with a reserved bit set consumes its command word and its arguments,
then answers ERR_RESERVED, M = 0; nothing else is changed. FEED_BLOCK consumes as many words as it counts. That a
turn consumes one word is the model's choice (log 9, log 11). -/
def Obligations.ReservedCommandConsumesItsArguments : Prop :=
  ∀ (s : State) (op : Opcode) (w : Word) (args rest : List Word),
    opcodeCode op = opcField w → w &&& unusedMask op ≠ 0#32 → args.length = argCount op w →
    (opcodePort op = .p → s.p.phase = .command → s.p.input = w :: args ++ rest →
      runTurns (List.replicate (1 + args.length) .producer) s
        = .next { s with p := { s.p with input := rest, output := s.p.output ++ [2#32, 0#32] } })
    ∧ (opcodePort op = .q → s.q.phase = .command → s.q.input = w :: args ++ rest →
      runTurns (List.replicate (1 + args.length) .consumer) s
        = .next { s with q := { s.q with input := rest, output := s.q.output ++ [2#32, 0#32] } })

/-- R17, R44, R56, R103: every query, in every state, writes no shared state and nothing of port P: it appends one response,
whose second word counts the result words, and an error response has none. -/
def Obligations.QueryAppendsOneCountedResponse : Prop :=
  ∀ (i : Instr) (s t : State), i.port = .q → exec i s = .next t →
    ∃ (st : Status) (results : List Word),
      t = s.afterQuery st results ∧ (st ≠ .ok → results = [])

/-- 20_memory.md R36, R37: on either port, four bytes over a byte-serial transport deliver one word, least significant
byte first; one, two or three bytes deliver none and change nothing but the bytes kept. That bytes are kept one by one
is the model's choice (log 13). A word that arrives joins the end of its port's word stream (30_encoding.md R50), and a
response word the host accepts is the first pending one of its port (60_exceptions.md R107 (a)); neither event changes
anything else. That the host accepts one word at a time is the model's choice (log 14). -/
def Obligations.FourBytesDeliverOneWord : Prop :=
  (∀ (s : State) (b0 b1 b2 b3 : Byte), s.p.bytes = [] →
    s.hostEvent (.byte .p b0)
        = { s with p := { s.p with bytes := [b0] } }
    ∧ (s.hostEvent (.byte .p b0)).hostEvent (.byte .p b1)
        = { s with p := { s.p with bytes := [b0, b1] } }
    ∧ ((s.hostEvent (.byte .p b0)).hostEvent (.byte .p b1)).hostEvent (.byte .p b2)
        = { s with p := { s.p with bytes := [b0, b1, b2] } }
    ∧ (((s.hostEvent (.byte .p b0)).hostEvent (.byte .p b1)).hostEvent (.byte .p b2)).hostEvent (.byte .p b3)
        = s.hostEvent (.word .p (BitVec.ofNat 32
            (b0.toNat + 2 ^ 8 * b1.toNat + 2 ^ 16 * b2.toNat + 2 ^ 24 * b3.toNat))))
  ∧ (∀ (s : State) (b0 b1 b2 b3 : Byte), s.q.bytes = [] →
    s.hostEvent (.byte .q b0)
        = { s with q := { s.q with bytes := [b0] } }
    ∧ (s.hostEvent (.byte .q b0)).hostEvent (.byte .q b1)
        = { s with q := { s.q with bytes := [b0, b1] } }
    ∧ ((s.hostEvent (.byte .q b0)).hostEvent (.byte .q b1)).hostEvent (.byte .q b2)
        = { s with q := { s.q with bytes := [b0, b1, b2] } }
    ∧ (((s.hostEvent (.byte .q b0)).hostEvent (.byte .q b1)).hostEvent (.byte .q b2)).hostEvent (.byte .q b3)
        = s.hostEvent (.word .q (BitVec.ofNat 32
            (b0.toNat + 2 ^ 8 * b1.toNat + 2 ^ 16 * b2.toNat + 2 ^ 24 * b3.toNat))))
  ∧ (∀ (s : State) (w : Word),
    s.hostEvent (.word .p w) = { s with p := { s.p with input := s.p.input ++ [w] } }
    ∧ s.hostEvent (.word .q w) = { s with q := { s.q with input := s.q.input ++ [w] } })
  ∧ ∀ (s : State) (w : Word) (rest : List Word),
    (s.p.output = w :: rest → s.hostEvent (.take .p) = { s with p := { s.p with output := rest } })
    ∧ (s.q.output = w :: rest → s.hostEvent (.take .q) = { s with q := { s.q with output := rest } })
    ∧ (s.p.output = [] → s.hostEvent (.take .p) = s)
    ∧ (s.q.output = [] → s.hostEvent (.take .q) = s)

/-! ## Producer commands (44_commands.md R89 to R91) -/

/-- R89: FEED pushes the sample to the raw ring, the three bank outputs to their rings, the sample to the window, and
feeds the bank; it answers OK with M = 0. Nothing else is changed, but that a query in progress may then read from the
replaced state too (20_memory.md R43); how it remembers that state is the model's choice (log 8). -/
def Obligations.FeedResult : Prop :=
  ∀ (s : State) (x : Word),
    exec (.feed x) s = .next ((s.afterWrite
      { bank := processBank s.shared.bank x
        rings :=
          { raw := ringPush s.capacity s.shared.rings.raw x
            low := ringPush s.capacity s.shared.rings.low
              (feedOutput s.shared.bank.low2 (feedOutput s.shared.bank.low1 x))
            mid := ringPush s.capacity s.shared.rings.mid
              (feedOutput s.shared.bank.band2 (feedOutput s.shared.bank.band1 x))
            high := ringPush s.capacity s.shared.rings.high
              (feedOutput s.shared.bank.high2 (feedOutput s.shared.bank.high1 x)) }
        win := ringPush Config.fftN s.shared.win x
        sampleRate := s.shared.sampleRate }).afterCommand .ok)

/-- R89 with R22, R74, R79: what FEED writes and leaves unchanged in the memories, read word by word: the word at the old
cursor is the sample, bit-exact, in the raw ring and in the window, and in the ring of each other band the output of that
band's two sections in cascade (R67, R71), from the old registers; every other word is as before, and the cursor advances
by one mod the size. -/
def Obligations.FeedWritesOneWordOfEachHistory : Prop :=
  ∀ (s t : State) (x : Word), s.wf = true → exec (.feed x) s = .next t →
    let output := fun (sec : Section) (v : Word) => add32 (mul32 v sec.coeffs.a0) sec.z1
    (∀ b a, a ≠ (s.shared.rings.get b).cursor →
      memRead (t.shared.rings.get b).mem a = memRead (s.shared.rings.get b).mem a)
    ∧ (∀ b, (t.shared.rings.get b).cursor = ((s.shared.rings.get b).cursor + 1) % s.capacity)
    ∧ memRead t.shared.rings.raw.mem s.shared.rings.raw.cursor = x
    ∧ memRead t.shared.rings.low.mem s.shared.rings.low.cursor
        = output s.shared.bank.low2 (output s.shared.bank.low1 x)
    ∧ memRead t.shared.rings.mid.mem s.shared.rings.mid.cursor
        = output s.shared.bank.band2 (output s.shared.bank.band1 x)
    ∧ memRead t.shared.rings.high.mem s.shared.rings.high.cursor
        = output s.shared.bank.high2 (output s.shared.bank.high1 x)
    ∧ (∀ a, a ≠ s.shared.win.cursor → memRead t.shared.win.mem a = memRead s.shared.win.mem a)
    ∧ memRead t.shared.win.mem s.shared.win.cursor = x
    ∧ t.shared.win.cursor = (s.shared.win.cursor + 1) % 128
    ∧ t.shared.sampleRate = s.shared.sampleRate

/-- 40_filter_section.md R67, 41_filter_bank.md R71: FEED updates z1 and z2 of every section from the old registers, the
second section of a cascade fed the first one's output, and changes no coefficient. -/
def Obligations.FeedUpdatesEverySection : Prop :=
  ∀ (s t : State) (x : Word), exec (.feed x) s = .next t →
    (∀ id, (t.shared.bank.get id).coeffs = (s.shared.bank.get id).coeffs)
    ∧ ∀ first second, (first, second) ∈ [(SectionId.low1, SectionId.low2), (.band1, .band2), (.high1, .high2)] →
      let c1 := (s.shared.bank.get first).coeffs
      let c2 := (s.shared.bank.get second).coeffs
      let y1 := add32 (mul32 x c1.a0) (s.shared.bank.get first).z1
      let y2 := add32 (mul32 y1 c2.a0) (s.shared.bank.get second).z1
      (t.shared.bank.get first).z1
          = sub32 (add32 (mul32 x c1.a1) (s.shared.bank.get first).z2) (mul32 c1.b1 y1)
      ∧ (t.shared.bank.get first).z2 = sub32 (mul32 x c1.a2) (mul32 c1.b2 y1)
      ∧ (t.shared.bank.get second).z1
          = sub32 (add32 (mul32 y1 c2.a1) (s.shared.bank.get second).z2) (mul32 c2.b1 y2)
      ∧ (t.shared.bank.get second).z2 = sub32 (mul32 y1 c2.a2) (mul32 c2.b2 y2)

/-- R90: FEED_BLOCK is accepted in every state: an empty block is answered OK at once, any other leaves port P inside
the block with CNT samples to come, and nothing else is changed. That the samples follow in turns of their own is the
model's choice (log 12). -/
def Obligations.FeedBlockIsAccepted : Prop :=
  ∀ (s : State) (cnt : BitVec 16),
    (cnt = 0#16 → exec (.feedBlock cnt) s = .next (s.afterCommand .ok))
    ∧ (cnt ≠ 0#16 → exec (.feedBlock cnt) s = .next { s with p := { s.p with phase := .block cnt.toNat } })

/-- R90 (c): a FEED_BLOCK with its samples leaves the state that as many FEEDs leave, and answers once, whatever port Q is
doing: a query in progress may read from the state before each sample. That a turn feeds one sample is the model's choice
(log 9, log 12), and so is how a query remembers (log 8). -/
def Obligations.FeedBlockEqualsItsFeeds : Prop :=
  ∀ (s : State) (xs rest : List Word), xs.length ≤ 65535 → s.p.phase = .command →
    s.p.input = encodeBlock xs ++ rest →
      runTurns (List.replicate (1 + xs.length) .producer) s
        = .next (({ s with p := { s.p with input := rest } } : State).afterFeeds xs |>.afterCommand .ok)

/-- R90 (b): each sample of a block is a step of its own: after the command word and k samples, the shared state is
that after k FEEDs, which is what a query of port Q then reads, and a query in progress may read from the state before
each of them. That a turn feeds one sample is the model's choice (log 9, log 12), and so is how a query remembers
(log 8). -/
def Obligations.FeedBlockStepsSampleBySample : Prop :=
  ∀ (s : State) (xs ys rest : List Word), (xs ++ ys).length ≤ 65535 → ys ≠ [] → s.p.phase = .command →
    s.p.input = encodeBlock (xs ++ ys) ++ rest →
      runTurns (List.replicate (1 + xs.length) .producer) s
        = .next (({ s with p := { s.p with input := ys ++ rest, phase := .block ys.length } } : State).afterFeeds xs)

/-- R91 (a): a SET_SAMPLE_RATE whose rate equals the register by binary32 equality changes nothing but the response.
Equality (R12) holds exactly when neither word is a NaN and the words are the same or both zeros: +0.0 and -0.0 are the
same rate, and a NaN rate is never unchanged. -/
def Obligations.UnchangedRateIsANoOp : Prop :=
  (∀ (s : State) (rate : Word), eq32 rate s.shared.sampleRate = true →
    exec (.setSampleRate rate) s = .next (s.afterCommand .ok))
  ∧ ∀ a b : Word, eq32 a b = true ↔
    isNaN a = false ∧ isNaN b = false
      ∧ (a = b ∨ (a = 0x00000000#32 ∨ a = 0x80000000#32) ∧ (b = 0x00000000#32 ∨ b = 0x80000000#32))

/-- R91, R70, R62 to R65: a changed rate with a valid cutoff is stored bit-exact and every section gets the
coefficients its response derives from Fc = 960 / rate and Q, in the order of operations of R62; no filter register,
ring, window or cursor is changed. The count of draws is the model's own field (log 7). A query in progress may then read
from the replaced state too (20_memory.md R43); how it remembers that state is the model's choice (log 8). -/
def Obligations.ChangedRateReconfiguresTheBank : Prop :=
  ∀ (s : State) (rate : Word), eq32 rate s.shared.sampleRate = false →
    let fc := div32 0x44700000#32 rate
    lt32 0#32 fc = true → lt32 fc 0x3F000000#32 = true →
      let k := tan32 fc
      let kq := div32 k 0x3E19999A#32
      let k2 := mul32 k k
      let norm := div32 0x3F800000#32 (add32 (add32 0x3F800000#32 kq) k2)
      let b1 := mul32 (mul32 0x40000000#32 (sub32 k2 0x3F800000#32)) norm
      let b2 := mul32 (add32 (sub32 0x3F800000#32 kq) k2) norm
      let lowpass : Coeffs := ⟨mul32 k2 norm, mul32 0x40000000#32 (mul32 k2 norm), mul32 k2 norm, b1, b2⟩
      let bandpass : Coeffs := ⟨mul32 kq norm, 0#32, neg32 (mul32 kq norm), b1, b2⟩
      let highpass : Coeffs := ⟨norm, neg32 (mul32 0x40000000#32 norm), norm, b1, b2⟩
      exec (.setSampleRate rate) s = .next { (s.afterWrite
        { s.shared with
          bank :=
            { low1 := { s.shared.bank.low1 with coeffs := lowpass }
              low2 := { s.shared.bank.low2 with coeffs := lowpass }
              band1 := { s.shared.bank.band1 with coeffs := bandpass }
              band2 := { s.shared.bank.band2 with coeffs := bandpass }
              high1 := { s.shared.bank.high1 with coeffs := highpass }
              high2 := { s.shared.bank.high2 with coeffs := highpass } }
          sampleRate := rate }).afterCommand .ok with draws := s.draws + 1 }

/-- R91 (b), R66: a changed rate whose cutoff is invalid is stored and answered OK; every filter register, ring, window
and cursor is unchanged, and nothing is said of the coefficients. -/
def Obligations.InvalidRateIsStoredAndAnsweredOk : Prop :=
  ∀ (s : State) (rate : Word), eq32 rate s.shared.sampleRate = false →
    validFc (cutoffOf rate) Config.qFactor = false →
      ∃ t, exec (.setSampleRate rate) s = .next t
        ∧ t.shared.sampleRate = rate
        ∧ (∀ id, (t.shared.bank.get id).z1 = (s.shared.bank.get id).z1
            ∧ (t.shared.bank.get id).z2 = (s.shared.bank.get id).z2)
        ∧ t.shared.rings = s.shared.rings ∧ t.shared.win = s.shared.win
        ∧ t.p = { s.p with output := s.p.output ++ [0#32, 0#32], phase := .command }

/-- R66: the cutoff of a sample rate is valid exactly when the rate is finite and above 1920 Hz. -/
def Obligations.CutoffValidExactlyAbove1920Hz : Prop :=
  ∀ rate : Word, validFc (cutoffOf rate) Config.qFactor = true ↔
    isFinite rate = true ∧ 1920 * 2 ^ 149 < units rate

/-- R20, R69, R70 (c): whenever the sample rate gives a valid cutoff, the thirty coefficients are the ones derived
from it, so the two sections of a cascade hold equal coefficients; every step keeps this. That the agents move in
turns, and how a turn is chosen, is the model's choice (log 9). -/
def Obligations.StepKeepsCoefficientsOfTheRate : Prop :=
  ∀ s t : State, s.shared.coeffsFollowRate → step s = .next t → t.shared.coeffsFollowRate

/-! ## Ring buffers (42_ring_buffer.md) -/

/-- R22, R74: pushing a list of samples onto a ring slides its history: the C most recent of the old history and the new
samples, oldest first. -/
def Obligations.PushesSlideTheHistory : Prop :=
  ∀ (size : Nat) (r : Ring) (xs : List Word), 0 < size → r.wf size = true →
    historyOf size (xs.foldl (ringPush size) r) = (historyOf size r ++ xs).drop xs.length
    ∧ (xs.foldl (ringPush size) r).wf size = true

/-- R77, R98: COPY_WAVEFORM answers the min(length, C) most recent samples of its band, oldest first, and ERR_BAND for a
BAND above 3; it changes nothing else. -/
def Obligations.CopyWaveformResult : Prop :=
  ∀ (s : State) (field : BitVec 4) (length : Word), s.queryIdle →
    (∀ b, bandOfField field = some b → exec (.copyWaveform field length) s
      = .next (s.afterQuery .ok ((newestOf s.capacity (s.shared.rings.get b) length.toNat).reverse)))
    ∧ (4 ≤ field.toNat → exec (.copyWaveform field length) s = .next (s.afterQuery .errBand []))

/-- R75, R96: PEAK_N answers the running maximum, from +0.0, of the magnitudes of the min(max(range, 1), C) most recent
samples, newest first, and ERR_BAND for a BAND above 3; it changes nothing else. -/
def Obligations.PeakNResult : Prop :=
  ∀ (s : State) (field : BitVec 4) (range : Word), s.queryIdle →
    (∀ b, bandOfField field = some b → exec (.peakN field range) s
      = .next (s.afterQuery .ok [(newestOf s.capacity (s.shared.rings.get b) (max range.toNat 1)).foldl
          (fun m x => if lt32 m (abs32 x) then abs32 x else m) 0#32]))
    ∧ (4 ≤ field.toNat → exec (.peakN field range) s = .next (s.afterQuery .errBand []))

/-- R76, R97: RMS_N answers the root mean square of the min(range, C) most recent samples, summed newest first,
ERR_RANGE for range 0, and ERR_BAND for a BAND above 3; it changes nothing else. -/
def Obligations.RmsNResult : Prop :=
  ∀ (s : State) (field : BitVec 4) (range : Word), s.queryIdle →
    (∀ b, bandOfField field = some b →
      (range ≠ 0#32 → exec (.rmsN field range) s
        = .next (s.afterQuery .ok [sqrt32 (div32
            ((newestOf s.capacity (s.shared.rings.get b) range.toNat).foldl (fun acc v => add32 acc (mul32 v v)) 0#32)
            (u2f (min range.toNat s.capacity)))]))
      ∧ (range = 0#32 → exec (.rmsN field range) s = .next (s.afterQuery .errRange [])))
    ∧ (4 ≤ field.toNat → exec (.rmsN field range) s = .next (s.afterQuery .errBand []))

/-- R94: GET_PEAK answers the peak of the samples its duration counts, one where it counts none, ERR_ARG where the
duration has no count, and ERR_BAND for a BAND above 3; it changes nothing else. -/
def Obligations.GetPeakResult : Prop :=
  ∀ (s : State) (field : BitVec 4) (d : Word), s.queryIdle →
    (∀ b, bandOfField field = some b →
      (∀ n, sampleCount d s.shared.sampleRate = .ok n → exec (.getPeak field d) s
        = .next (s.afterQuery .ok [peakOf (newestOf s.capacity (s.shared.rings.get b) (max n 1))]))
      ∧ (∀ st, sampleCount d s.shared.sampleRate = .error st → exec (.getPeak field d) s
        = .next (s.afterQuery .errArg [])))
    ∧ (4 ≤ field.toNat → exec (.getPeak field d) s = .next (s.afterQuery .errBand []))

/-- R95: GET_RMS answers the root mean square of the samples its duration counts, ERR_RANGE where it counts none, ERR_ARG
where the duration has no count, and ERR_BAND for a BAND above 3; it changes nothing else. -/
def Obligations.GetRmsResult : Prop :=
  ∀ (s : State) (field : BitVec 4) (d : Word), s.queryIdle →
    (∀ b, bandOfField field = some b →
      (∀ n, sampleCount d s.shared.sampleRate = .ok n → n ≠ 0 → exec (.getRms field d) s
        = .next (s.afterQuery .ok [sqrt32 (div32
            ((newestOf s.capacity (s.shared.rings.get b) n).foldl (fun acc v => add32 acc (mul32 v v)) 0#32)
            (u2f (min n s.capacity)))]))
      ∧ (sampleCount d s.shared.sampleRate = .ok 0 → exec (.getRms field d) s = .next (s.afterQuery .errRange []))
      ∧ (∀ st, sampleCount d s.shared.sampleRate = .error st → exec (.getRms field d) s
        = .next (s.afterQuery .errArg [])))
    ∧ (4 ≤ field.toNat → exec (.getRms field d) s = .next (s.afterQuery .errBand []))

/-- R93: a NaN or negative product of duration and rate has no sample count (ERR_ARG); +infinity counts 2^32 - 1; a
finite product that is not negative counts its floor, saturated at 2^32 - 1: the greatest count the product reaches. -/
def Obligations.SampleCountIsTheFloor : Prop :=
  ∀ d rate : Word,
    (isNaN (mul32 d rate) = true ∨ lt32 (mul32 d rate) 0#32 = true → sampleCount d rate = .error .errArg)
    ∧ (mul32 d rate = 0x7F800000#32 → sampleCount d rate = .ok (2 ^ 32 - 1))
    ∧ (isFinite (mul32 d rate) = true → 0 ≤ units (mul32 d rate) →
      ∃ n, sampleCount d rate = .ok n ∧ n ≤ 2 ^ 32 - 1
        ∧ (n : Int) * 2 ^ 149 ≤ units (mul32 d rate)
        ∧ (n < 2 ^ 32 - 1 → units (mul32 d rate) < ((n : Int) + 1) * 2 ^ 149))

/-- R92: GET_SAMPLE_RATE answers the register bit-exact and changes nothing else. -/
def Obligations.GetSampleRateResult : Prop :=
  ∀ s : State, s.queryIdle → exec .getSampleRate s = .next (s.afterQuery .ok [s.shared.sampleRate])

/-- R94 to R99, R101, R104: BAND 4..15 is answered with ERR_BAND, code 3, by all five band queries, in every state, before
any other check of the command, and MODE 2..15 with ERR_ARG, code 5, by GET_BAND_AVERAGES; RMS_N of range 0 is answered
with ERR_RANGE, code 4. -/
def Obligations.BandOrModeOutOfRangeIsAnError : Prop :=
  ∀ (s : State) (field : BitVec 4) (arg : Word),
    (2 ≤ field.toNat → exec (.getBandAverages field arg) s = .next (s.afterResponse [5#32, 0#32]))
    ∧ (4 ≤ field.toNat →
      exec (.getPeak field arg) s = .next (s.afterResponse [3#32, 0#32])
      ∧ exec (.getRms field arg) s = .next (s.afterResponse [3#32, 0#32])
      ∧ exec (.peakN field arg) s = .next (s.afterResponse [3#32, 0#32])
      ∧ exec (.rmsN field arg) s = .next (s.afterResponse [3#32, 0#32])
      ∧ exec (.copyWaveform field arg) s = .next (s.afterResponse [3#32, 0#32]))
    ∧ (field.toNat < 4 → exec (.rmsN field 0#32) s = .next (s.afterResponse [4#32, 0#32]))

/-- R75 (b): the peak of a window is never a NaN, is not below the magnitude of any of its words that is not a NaN, and is
+0.0 or the magnitude of one of its words. "Less than" (R12) is that of the values for finite words, is false when either
word is a NaN, and puts the infinities beyond every other word. -/
def Obligations.PeakIsTheLargestMagnitude : Prop :=
  (∀ window : List Word,
    isNaN (peakOf window) = false
    ∧ (∀ x ∈ window, lt32 (peakOf window) (abs32 x) = false)
    ∧ (peakOf window = 0#32 ∨ ∃ x ∈ window, peakOf window = abs32 x))
  ∧ ∀ a b : Word,
    (isFinite a = true → isFinite b = true → (lt32 a b = true ↔ units a < units b))
    ∧ (isNaN a = true ∨ isNaN b = true → lt32 a b = false)
    ∧ (isNaN a = false → (lt32 a 0x7F800000#32 = true ↔ a ≠ 0x7F800000#32) ∧ lt32 0x7F800000#32 a = false)
    ∧ (isNaN a = false → (lt32 0xFF800000#32 a = true ↔ a ≠ 0xFF800000#32) ∧ lt32 a 0xFF800000#32 = false)

/-- R75: after one push of V onto a zero-filled ring the peak is |V| for every range from 1 up, and +0.0 for a NaN. -/
def Obligations.PeakAfterOnePush : Prop :=
  ∀ (size range : Nat) (v : Word), 0 < size → 1 ≤ range →
    peakOf (newestOf size (ringPush size Ring.reset v) range) = if isNaN v then 0#32 else abs32 v

/-- R76 (a): the root mean square of any number of zero samples is +0.0. -/
def Obligations.RmsOfSilenceIsZero : Prop :=
  ∀ (r : Nat) (window : List Word), 1 ≤ r → r ≤ 2 ^ 24 → (∀ x ∈ window, isZero x = true) → rmsOf r window = 0#32

/-! ## Spectral engine (43_spectral.md) -/

/-- R99, R80, R82, R83, R85: in mode 0 GET_BAND_AVERAGES answers, for L in 1..64, the L means of contiguous groups of
floor(64/L) magnitudes: mag[j] is the magnitude of source bin j + 1 of the window, oldest sample first, hann[i] on the i-th
oldest, and a mean is the ascending sum from +0.0 divided by the count. It answers ERR_ARG for every other L, and changes
nothing else. Producer steps may overlap the query: the window words and the cursor are then each read from a state of
its interval (R43); how the draws are made and when the interval begins is the model's choice (log 8, log 28). -/
def Obligations.LinearBandAveragesResult : Prop :=
  ∀ (s : State) (length : Word),
    (1 ≤ length.toNat ∧ length.toNat ≤ 64 → ∃ xs : List Word, s.readsSpectralWindow xs
      ∧ exec (.getBandAverages 0#4 length) s = .next (s.afterQuery .ok ((List.range length.toNat).map fun i =>
          binMean xs (i * (64 / length.toNat)) ((i + 1) * (64 / length.toNat)))))
    ∧ (length.toNat = 0 ∨ 64 < length.toNat → exec (.getBandAverages 0#4 length) s
      = .next (s.afterQuery .errArg []))

/-- R80, R82 to R84, R87, R99: in mode 1 GET_BAND_AVERAGES answers L + 1 values for an accepted request: slot i·bpo + j is
the mean of the magnitudes from the index of the j-th edge of octave i up to that of the next edge, of one at least, the
edges advancing from the octave's lower end by its step and never passing its upper end; the slots after the last octave
are +0.0. It answers ERR_ARG for a rate that is not finite and above zero, for L = 2^32 - 1, for a rate with no octave,
and for fewer values than octaves. Nothing else is changed. Producer steps may overlap the query: the rate, the window
words and the cursor are then each read once, from a state of its interval (R43); how the draws are made is the model's
choice (log 8), and so is when the interval begins (log 28). `min` is the smaller of two words that are not NaN, a
reading of the rule (log 17). -/
def Obligations.LogBandAveragesResult : Prop :=
  ∀ (s : State) (length : Word), ∃ sh ∈ s.interval,
    let rate := sh.sampleRate
    let ny := div32 rate 0x40000000#32
    let bpo := (length.toNat + 1) / octaves rate
    let lo := fun i : Nat => if i = 0 then 0#32 else div32 ny (u2f (2 ^ (octaves rate - i)))
    let hi := fun i : Nat => div32 ny (u2f (2 ^ (octaves rate - i - 1)))
    let step := fun i : Nat => div32 (sub32 (hi i) (lo i)) (u2f bpo)
    let next := fun (i : Nat) (f : Word) => if lt32 (hi i) (add32 f (step i)) then hi i else add32 f (step i)
    let index := fun i j : Nat => frequencyIndex rate ((next i)^[j] (lo i))
    (isFinite rate = true ∧ lt32 0#32 rate = true ∧ length.toNat < 2 ^ 32 - 1 ∧ 1 ≤ octaves rate
        ∧ octaves rate ≤ length.toNat + 1 →
      ∃ xs dest : List Word, s.readsSpectralWindow xs
        ∧ exec (.getBandAverages 1#4 length) s = .next (s.afterQuery .ok dest)
        ∧ dest.length = length.toNat + 1
        ∧ (∀ i j, i < octaves rate → j < bpo →
            dest[i * bpo + j]? = some (binMean xs (index i j) (max (index i (j + 1)) (index i j + 1))))
        ∧ (∀ k, octaves rate * bpo ≤ k → k ≤ length.toNat → dest[k]? = some 0#32))
    ∧ (isFinite rate = false ∨ lt32 0#32 rate = false ∨ length.toNat = 2 ^ 32 - 1 ∨ octaves rate = 0
        ∨ length.toNat + 1 < octaves rate →
      exec (.getBandAverages 1#4 length) s = .next (s.afterQuery .errArg []))

/-- R82 (b), R81 (P2), R99 (d): an all-zero window, of either sign, gives 64 magnitudes of +0.0, whatever the transform is, and
every output of GET_BAND_AVERAGES over it is +0.0 in both modes. -/
def Obligations.SilentWindowHasZeroAverages : Prop :=
  (∀ v : View, (∀ k i, isZero (v.windowWord k i) = true) → analyze v = List.replicate 64 0#32)
  ∧ ∀ (s : State) (mode : BitVec 4) (length : Word) (t : State),
    s.queryIdle → (∀ i, isZero (memRead s.shared.win.mem i) = true) → exec (.getBandAverages mode length) s = .next t →
      ∃ n st, t = s.afterQuery st (List.replicate n 0#32)

/-- R82 (d): no magnitude is negative: each is a NaN or has its sign bit clear. -/
def Obligations.MagnitudesAreNeverNegative : Prop :=
  ∀ (v : View) (m : Word), m ∈ analyze v → isNaN m = true ∨ signBit m = false

/-- R85 (b): with L = 64 the linear reducer returns the magnitudes themselves, for every vector of 64 words that are the
canonical NaN or not negative, which all magnitudes are. -/
def Obligations.LinearReductionOfFullLengthIsIdentity : Prop :=
  ∀ mag : List Word, mag.length = 64 → (∀ m ∈ mag, m = qNaN ∨ (isNaN m = false ∧ signBit m = false)) →
    reduceLinear mag 64 = .ok mag

/-- R86: for a finite rate above zero the octave loop ends by its own test: O ≤ 122, the value halved O times is below
60, and every value halved fewer times is not. -/
def Obligations.OctaveCountEndsBelowMinBandwidth : Prop :=
  ∀ rate : Word, isFinite rate = true → lt32 0#32 rate = true →
    let halved := fun n : Nat => (fun f => div32 f 0x40000000#32)^[n] (nyquist rate)
    octaves rate ≤ 122 ∧ lt32 (halved (octaves rate)) Config.minBwHz = true
      ∧ ∀ n, n < octaves rate → lt32 (halved n) Config.minBwHz = false

/-- R14, R26: each of the 128 entries of the Hann table is the binary32 nearest to 0.5·(1 - cos(2π·i/128)), and entry 0 is
exactly +0.0. -/
def Obligations.HannTableIsCorrectlyRounded : Prop :=
  hann32 0 128 = 0#32
  ∧ ∀ (i : Nat) (w : Word), i < 128 → isFinite w = true →
      realDistance (hann32 i 128) (2 ^ 149 * (0.5 * (1 - Real.cos (2 * Real.pi * i / 128))))
        ≤ realDistance w (2 ^ 149 * (0.5 * (1 - Real.cos (2 * Real.pi * i / 128))))

/-! ## What queries read (20_memory.md R43, R44) -/

/-- R38: with no producer step between them, two identical queries return identical responses. -/
def Obligations.QueriesAreIdempotent : Prop :=
  ∀ (i : Instr) (s t u : State), i.port = .q → s.queryIdle → exec i s = .next t → exec i t = .next u →
    ∃ response : List Word,
      t.q.output = s.q.output ++ response ∧ u.q.output = t.q.output ++ response

/-- R43 (a): a query that is accepted in one turn and finished in the next, with no producer step between, leaves the
state that a query run in one turn leaves. The two turns of port Q are the model's choice (log 8, log 9), and so is that
a query is accepted when its whole command is taken (log 28). -/
def Obligations.UnoverlappedQueryIsExact : Prop :=
  ∀ (s : State) (i : Instr) (rest : List Word), s.queryIdle → decode .q s.q.input = .command i rest →
    runTurns [.accept, .consumer] s = runTurns [.consumer] s

/-- R42, R43: every producer step that writes shared state while a query is in progress (a FEED, a sample of a FEED_BLOCK,
a SET_SAMPLE_RATE that changes the rate) adds the state it replaced to those the query may read from, and leaves the
query in progress. How the states are kept is the model's choice (log 8), and so is that a turn feeds one sample (log 9,
log 12); a rate that is unchanged adds none (log 24). When a query is accepted is the model's choice too (log 28). -/
def Obligations.OverlappingStepsAreRemembered : Prop :=
  ∀ (s t : State) (query : Instr) (past : List Shared) (x rate : Word), s.q.phase = .query query past →
    (exec (.feed x) s = .next t → t.q = { s.q with phase := .query query (past ++ [s.shared]) })
    ∧ (∀ left rest, s.p.phase = .block left → s.p.input = x :: rest → takeTurn .producer s = .next t →
        t.q = { s.q with phase := .query query (past ++ [s.shared]) }
        ∧ t.shared = feedShared s.capacity s.shared x)
    ∧ (eq32 rate s.shared.sampleRate = false → exec (.setSampleRate rate) s = .next t →
        t.q = { s.q with phase := .query query (past ++ [s.shared]) })

/-- R43, R73, R75 to R77, R92 to R98: what the six queries other than GET_BAND_AVERAGES answer in every state for BAND 0..3,
however many producer steps overlap them: each takes the rate, the cursor of its ring and each word once, every one of
them from some state of its interval, the
word at the index its rule computes from that one cursor value. With no query in progress the interval is the present
state alone (R43 (a)). LinearBandAveragesResult and LogBandAveragesResult say the same of GET_BAND_AVERAGES. How the draws
are made is the model's choice (log 8), and so is when a query's interval begins (log 28). -/
def Obligations.TornWordsComeFromTheInterval : Prop :=
  (∀ s : State, s.queryIdle → s.interval = [s.shared])
  ∧ (∀ s : State, ∃ sh ∈ s.interval, exec .getSampleRate s = .next (s.afterQuery .ok [sh.sampleRate]))
  ∧ ∀ (s : State) (field : BitVec 4) (b : Band) (arg : Word), bandOfField field = some b →
    let peak := fun window : List Word => window.foldl (fun m x => if lt32 m (abs32 x) then abs32 x else m) 0#32
    let rms := fun window : List Word => sqrt32 (div32
      (window.foldl (fun acc v => add32 acc (mul32 v v)) 0#32) (u2f window.length))
    (∃ window, s.readsOldestFirst b (min arg.toNat s.capacity) window
      ∧ exec (.copyWaveform field arg) s = .next (s.afterQuery .ok window))
    ∧ (∃ window, s.readsNewestFirst b (min (max arg.toNat 1) s.capacity) window
      ∧ exec (.peakN field arg) s = .next (s.afterQuery .ok [peak window]))
    ∧ (arg ≠ 0#32 → ∃ window, s.readsNewestFirst b (min arg.toNat s.capacity) window
      ∧ exec (.rmsN field arg) s = .next (s.afterQuery .ok [rms window]))
    ∧ (arg = 0#32 → exec (.rmsN field arg) s = .next (s.afterQuery .errRange []))
    ∧ (∃ sh ∈ s.interval,
      (∀ n, sampleCount arg sh.sampleRate = .ok n →
        ∃ window, s.readsNewestFirst b (min (max n 1) s.capacity) window
          ∧ exec (.getPeak field arg) s = .next (s.afterQuery .ok [peak window]))
      ∧ (∀ st, sampleCount arg sh.sampleRate = .error st →
        exec (.getPeak field arg) s = .next (s.afterQuery .errArg [])))
    ∧ (∃ sh ∈ s.interval,
      (∀ n, sampleCount arg sh.sampleRate = .ok n → n ≠ 0 →
        ∃ window, s.readsNewestFirst b (min n s.capacity) window
          ∧ exec (.getRms field arg) s = .next (s.afterQuery .ok [rms window]))
      ∧ (sampleCount arg sh.sampleRate = .ok 0 → exec (.getRms field arg) s = .next (s.afterQuery .errRange []))
      ∧ (∀ st, sampleCount arg sh.sampleRate = .error st →
        exec (.getRms field arg) s = .next (s.afterQuery .errArg [])))

/-- R18, R113: shared state changes only in a turn of port P or at a reset: in a legal state a turn of port Q changes
none of it, and a turn of the host changes none of it unless the host asserts reset. That the agents move in turns,
and how a turn is chosen, is the model's choice (log 9). -/
def Obligations.OnlyProducerAndResetWriteShared : Prop :=
  ∀ (s t : State), s.wf = true →
    (step s = .next t → (nextTurn s).1 = .consumer ∨ (nextTurn s).1 = .accept → t.shared = s.shared)
    ∧ (step s = .next t → (nextTurn s).1 = .host → s.host.head? ≠ some .reset → t.shared = s.shared)

/-! ## Reset (70_reset_and_hazards.md R112 to R114) and the invariants -/

/-- R112, R32: after reset every coefficient and filter register, every word of every ring and of the window and the sample
rate read +0.0, every cursor is 0, and both ports are idle with nothing received and nothing pending; the reset event
puts any block into that same architectural state. That it also discards the whole commands a port has received and not
yet taken is the model's choice (log 22). -/
def Obligations.ResetValues : Prop :=
  (∀ id, State.reset.shared.bank.get id = ⟨⟨0#32, 0#32, 0#32, 0#32, 0#32⟩, 0#32, 0#32⟩)
  ∧ (∀ b i, memRead (State.reset.shared.rings.get b).mem i = 0#32 ∧ (State.reset.shared.rings.get b).cursor = 0)
  ∧ (∀ i, memRead State.reset.shared.win.mem i = 0#32) ∧ State.reset.shared.win.cursor = 0
  ∧ State.reset.shared.sampleRate = 0#32
  ∧ State.reset.p = ⟨[], [], [], .command⟩ ∧ State.reset.q = ⟨[], [], [], .command⟩
  ∧ ∀ s : State, (s.hostEvent .reset).shared = State.reset.shared ∧ (s.hostEvent .reset).p = State.reset.p
      ∧ (s.hostEvent .reset).q = State.reset.q

/-- R114, R95: before any SET_SAMPLE_RATE, GET_RMS of a finite duration answers ERR_RANGE, GET_PEAK examines the
newest sample only, and the logarithmic averages answer ERR_ARG, whatever has been fed. -/
def Obligations.UnconfiguredQueries : Prop :=
  ∀ (s : State) (field : BitVec 4) (b : Band) (d length : Word), s.queryIdle → s.shared.sampleRate = 0#32 →
    bandOfField field = some b → isFinite d = true →
      exec (.getRms field d) s = .next (s.afterQuery .errRange [])
      ∧ exec (.getPeak field d) s = .next (s.afterQuery .ok [peakOf (newestOf s.capacity (s.shared.rings.get b) 1)])
      ∧ exec (.getBandAverages 1#4 length) s = .next (s.afterQuery .errArg [])

/-- R22 to R24, R30, R35: every step keeps a legal state legal: memories canonical and in range, cursors in range and
equal, port phases in range. That the agents move in turns, and how a turn is chosen, is the model's choice (log 9). -/
def Obligations.StepKeepsLegalState : Prop := ∀ s t : State, s.wf = true → step s = .next t → t.wf = true

/-- The state after reset is legal, and its coefficients follow its rate, which gives no valid cutoff. -/
def Obligations.ResetMeetsTheInvariants : Prop := State.reset.wf = true ∧ State.reset.shared.coeffsFollowRate

/-- R119, R113, R67 (b): a FEED of a NaN leaves a NaN in both filter registers of every section, and a FEED of an infinity a
NaN or an infinity; a section that holds a NaN in a filter register holds one after every step, whatever is fed and
whatever rate is set, unless the host asserts reset in that step, and so for a NaN or an infinity. Where R119 says NaN of
a fed infinity too, the statement says what the pseudocode of R67 gives (log 21). That the agents move in turns, and how
a turn is chosen, is the model's choice (log 9). -/
def Obligations.PoisonedSectionStaysPoisoned : Prop :=
  (∀ (s t : State) (x : Word) (id : SectionId), isFinite x = false → exec (.feed x) s = .next t →
    isFinite (t.shared.bank.get id).z1 = false ∧ isFinite (t.shared.bank.get id).z2 = false
    ∧ (isNaN x = true → isNaN (t.shared.bank.get id).z1 = true ∧ isNaN (t.shared.bank.get id).z2 = true))
  ∧ ∀ (s t : State) (id : SectionId), step s = .next t →
    ((s.shared.bank.get id).poisoned = true →
      (t.shared.bank.get id).poisoned = true ∨ ((nextTurn s).1 = .host ∧ s.host.head? = some .reset))
    ∧ (isFinite (s.shared.bank.get id).z1 = false ∨ isFinite (s.shared.bank.get id).z2 = false →
      (isFinite (t.shared.bank.get id).z1 = false ∨ isFinite (t.shared.bank.get id).z2 = false)
      ∨ ((nextTurn s).1 = .host ∧ s.host.head? = some .reset))

/-! ## Binary32 (00_scope.md R12 to R14) -/

/-- R12: a rounded quotient n/d is at least as near as every finite word; where another magnitude is as near, the last
bit of the result is 0. It is infinite exactly from half a unit beyond the largest finite magnitude: that clause is
PRESUMED from IEEE 754, which R12 names and does not repeat (log 19). -/
def Obligations.RoundingIsToNearestEven : Prop :=
  ∀ n d : Nat, 0 < d →
    (roundUnits n d = 0x7F800000 ↔ (2 ^ 25 - 1) * 2 ^ 253 * d ≤ 2 * n)
    ∧ (roundUnits n d < 0x7F800000 → ∀ w : Word, isFinite w = true →
        noFarther (pack false (roundUnits n d)) w n d
        ∧ (magnitude w ≠ magnitude (pack false (roundUnits n d)) → signBit w = false →
            noFarther w (pack false (roundUnits n d)) n d → roundUnits n d % 2 = 0))
    ∧ roundUnits n d ≤ 0x7F800000

/-- R12: add32, sub32, mul32 and div32 of finite words round the exact result once, to nearest, ties to even. PRESUMED from
IEEE 754, which R12 names and does not repeat (log 19): the overflow to an infinity of the result's sign exactly from half
a unit beyond the largest finite magnitude, the signs of zeros, and the results for infinite operands and for a divisor
of zero. A NaN operand gives the canonical NaN (R12, R13). -/
def Obligations.ArithmeticRoundsToNearest : Prop :=
  (∀ a b : Word, isFinite a = true → isFinite b = true →
    roundsTo (add32 a b) (units a + units b) 1
    ∧ roundsTo (sub32 a b) (units a - units b) 1
    ∧ roundsTo (mul32 a b) (units a * units b) (2 ^ 149)
    ∧ (isZero b = false → roundsTo (div32 a b) (units a * 2 ^ 149) (units b))
    ∧ (units a + units b = 0 → add32 a b = if signBit a && signBit b then 0x80000000#32 else 0#32)
    ∧ (units a = units b → sub32 a b = if signBit a && !signBit b then 0x80000000#32 else 0#32)
    ∧ signBit (mul32 a b) = (signBit a != signBit b)
    ∧ (isZero b = false → signBit (div32 a b) = (signBit a != signBit b))
    ∧ (isZero a = false → isZero b = true →
        div32 a b = if signBit a != signBit b then 0xFF800000#32 else 0x7F800000#32)
    ∧ (isZero a = true → isZero b = true → isNaN (div32 a b) = true))
  ∧ (∀ a b : Word, isNaN a = true ∨ isNaN b = true →
    add32 a b = 0x7FC00000#32 ∧ sub32 a b = 0x7FC00000#32 ∧ mul32 a b = 0x7FC00000#32 ∧ div32 a b = 0x7FC00000#32)
  ∧ ∀ a b : Word, isInf a = true → isNaN b = false →
    (isInf b = true → signBit a ≠ signBit b → isNaN (add32 a b) = true ∧ isNaN (add32 b a) = true)
    ∧ (isInf b = false ∨ signBit a = signBit b → add32 a b = a ∧ add32 b a = a)
    ∧ (isInf b = true → signBit a = signBit b → isNaN (sub32 a b) = true ∧ isNaN (sub32 b a) = true)
    ∧ (isInf b = false ∨ signBit a ≠ signBit b → sub32 a b = a
        ∧ sub32 b a = if signBit a then 0x7F800000#32 else 0xFF800000#32)
    ∧ (isZero b = true → isNaN (mul32 a b) = true ∧ isNaN (mul32 b a) = true)
    ∧ (isZero b = false → mul32 a b = (if signBit a != signBit b then 0xFF800000#32 else 0x7F800000#32)
        ∧ mul32 b a = mul32 a b)
    ∧ (isInf b = true → isNaN (div32 a b) = true)
    ∧ (isInf b = false → div32 a b = (if signBit a != signBit b then 0xFF800000#32 else 0x7F800000#32)
        ∧ div32 b a = if signBit a != signBit b then 0x80000000#32 else 0#32)

/-- R12: sqrt32 of a finite word that is not negative is the binary32 nearest to the real square root. PRESUMED from IEEE
754, which R12 names and does not repeat (log 19): the root of -0.0 is -0.0, that of +infinity is +infinity, and that of a
negative number or -infinity is a NaN. The root of a NaN is the canonical NaN (R12, R13). -/
def Obligations.SquareRootRoundsToNearest : Prop :=
  (∀ a w : Word, isFinite a = true → signBit a = false → isFinite w = true →
    isFinite (sqrt32 a) = true
    ∧ realDistance (sqrt32 a) (Real.sqrt ((units a : ℝ) * 2 ^ 149))
        ≤ realDistance w (Real.sqrt ((units a : ℝ) * 2 ^ 149)))
  ∧ sqrt32 0x80000000#32 = 0x80000000#32 ∧ sqrt32 0x7F800000#32 = 0x7F800000#32
  ∧ ∀ a : Word, (signBit a = true → isZero a = false → isNaN (sqrt32 a) = true)
    ∧ (isNaN a = true → sqrt32 a = 0x7FC00000#32)

/-- R13: every NaN that an arithmetic primitive returns is 0x7FC00000, whatever its operands; neg32 and abs32 keep a NaN's
payload; a sample word is stored bit-exact in the raw ring and in the window. -/
def Obligations.ArithmeticNaNsAreCanonical : Prop :=
  (∀ a b : Word,
    (isNaN (add32 a b) = true → add32 a b = qNaN) ∧ (isNaN (sub32 a b) = true → sub32 a b = qNaN)
    ∧ (isNaN (mul32 a b) = true → mul32 a b = qNaN) ∧ (isNaN (div32 a b) = true → div32 a b = qNaN)
    ∧ (isNaN (sqrt32 a) = true → sqrt32 a = qNaN))
  ∧ (∀ a : Word, isNaN a = true →
    isNaN (neg32 a) = true ∧ fracField (neg32 a) = fracField a
    ∧ isNaN (abs32 a) = true ∧ fracField (abs32 a) = fracField a)
  ∧ ∀ (s t : State) (x : Word), s.wf = true → exec (.feed x) s = .next t →
      memRead t.shared.rings.raw.mem s.shared.rings.raw.cursor = x
      ∧ memRead t.shared.win.mem s.shared.win.cursor = x

/-- R12: u2f is exact for every integer up to 2^24. -/
def Obligations.SmallIntegersAreExact : Prop :=
  ∀ n : Nat, n ≤ 2 ^ 24 → isFinite (u2f n) = true ∧ units (u2f n) = (n : Int) * 2 ^ 149

/-- R14: Tan32 is finite and the binary32 nearest to tan(π·Fc), for every Fc with 0 < Fc < 0.5. -/
def Obligations.TangentIsCorrectlyRounded : Prop :=
  ∀ fc w : Word, lt32 0#32 fc = true → lt32 fc half32 = true → isFinite w = true →
    isFinite (tan32 fc) = true
    ∧ realDistance (tan32 fc) (2 ^ 149 * Real.tan (Real.pi * ((units fc : ℝ) / 2 ^ 149)))
        ≤ realDistance w (2 ^ 149 * Real.tan (Real.pi * ((units fc : ℝ) / 2 ^ 149)))
end

