-- ==== Sys2Proof/Laws/State.lean ====
section
/-! SUPPORT. One lemma per field per update of State, and for the registers by number: later proofs never unfold a record
update. -/

namespace Sys2Proof.Machine

/-! ## Sections by number -/

@[simp] theorem bank_get_set_same (b : Bank) (i : SectionId) (v : Section) : (b.set i v).get i = v := by
  cases i <;> rfl

theorem bank_get_set_other (b : Bank) (i j : SectionId) (v : Section) (h : j ≠ i) : (b.set i v).get j = b.get j := by
  cases i <;> cases j <;> first | rfl | exact absurd rfl h

@[simp] theorem bank_get_setCoeffs_same (b : Bank) (i : SectionId) (c : Coeffs) :
    (b.setCoeffs i c).get i = ⟨c, (b.get i).z1, (b.get i).z2⟩ := by
  cases i <;> rfl

@[simp] theorem bank_setCoeffs_z1 (b : Bank) (i j : SectionId) (c : Coeffs) :
    ((b.setCoeffs i c).get j).z1 = (b.get j).z1 := by
  cases i <;> cases j <;> rfl

@[simp] theorem bank_setCoeffs_z2 (b : Bank) (i j : SectionId) (c : Coeffs) :
    ((b.setCoeffs i c).get j).z2 = (b.get j).z2 := by
  cases i <;> cases j <;> rfl

/-- Two banks with equal sections are equal. -/
theorem bank_ext_get (a b : Bank) (h : ∀ i, a.get i = b.get i) : a = b := by
  cases a; cases b
  have h1 := h .low1; have h2 := h .low2; have h3 := h .band1
  have h4 := h .band2; have h5 := h .high1; have h6 := h .high2
  simp only [Bank.get] at h1 h2 h3 h4 h5 h6
  subst h1 h2 h3 h4 h5 h6
  rfl

/-! ## Port updates -/

@[simp] theorem respond_input {φ : Type} (port : Port φ) (st : Status) (vs : List Word) :
    (port.respond st vs).input = port.input := rfl

@[simp] theorem respond_output {φ : Type} (port : Port φ) (st : Status) (vs : List Word) :
    (port.respond st vs).output = port.output ++ responseWords st vs := rfl

@[simp] theorem respond_bytes {φ : Type} (port : Port φ) (st : Status) (vs : List Word) :
    (port.respond st vs).bytes = port.bytes := rfl

@[simp] theorem respond_phase {φ : Type} (port : Port φ) (st : Status) (vs : List Word) :
    (port.respond st vs).phase = port.phase := rfl

@[simp] theorem receiveWord_input {φ : Type} (port : Port φ) (w : Word) :
    (port.receiveWord w).input = port.input ++ [w] := rfl

@[simp] theorem receiveWord_output {φ : Type} (port : Port φ) (w : Word) :
    (port.receiveWord w).output = port.output := rfl

@[simp] theorem receiveWord_bytes {φ : Type} (port : Port φ) (w : Word) :
    (port.receiveWord w).bytes = port.bytes := rfl

@[simp] theorem receiveWord_phase {φ : Type} (port : Port φ) (w : Word) :
    (port.receiveWord w).phase = port.phase := rfl

@[simp] theorem take_input {φ : Type} (port : Port φ) :
    (port.take).input = port.input := rfl

@[simp] theorem take_output {φ : Type} (port : Port φ) :
    (port.take).output = port.output.tail := rfl

@[simp] theorem take_bytes {φ : Type} (port : Port φ) :
    (port.take).bytes = port.bytes := rfl

@[simp] theorem take_phase {φ : Type} (port : Port φ) :
    (port.take).phase = port.phase := rfl

@[simp] theorem receiveByte_phase {φ : Type} (port : Port φ) (b : Byte) : (port.receiveByte b).phase = port.phase := by
  unfold Port.receiveByte; split <;> rfl

@[simp] theorem receiveByte_output {φ : Type} (port : Port φ) (b : Byte) : (port.receiveByte b).output = port.output := by
  unfold Port.receiveByte; split <;> rfl

/-- A byte either completes a word, or is kept. -/
theorem receiveByte_cases {φ : Type} (port : Port φ) (b : Byte) :
    (∃ b0 b1 b2, port.bytes = [b0, b1, b2] ∧ (port.receiveByte b).bytes = []
      ∧ (port.receiveByte b).input = port.input ++ [wordOfBytes b0 b1 b2 b])
    ∨ (port.bytes.length ≠ 3 ∧ (port.receiveByte b).bytes = port.bytes ++ [b]
      ∧ (port.receiveByte b).input = port.input) := by
  unfold Port.receiveByte
  split
  · rename_i b0 b1 b2 h
    exact .inl ⟨b0, b1, b2, h, rfl, rfl⟩
  · rename_i h
    refine .inr ⟨fun hl => ?_, rfl, rfl⟩
    match hb : port.bytes, hl with
    | [b0, b1, b2], _ => exact h b0 b1 b2 hb

/-! ## State updates -/

@[simp] theorem endProducer_shared (s : State) (st : Status) (vs : List Word) :
    (s.endProducer st vs).shared = s.shared := rfl

@[simp] theorem endProducer_p (s : State) (st : Status) (vs : List Word) :
    (s.endProducer st vs).p = { s.p.respond st vs with phase := .command } := rfl

@[simp] theorem endProducer_q (s : State) (st : Status) (vs : List Word) :
    (s.endProducer st vs).q = s.q := rfl

@[simp] theorem endProducer_ringCapLog2 (s : State) (st : Status) (vs : List Word) :
    (s.endProducer st vs).ringCapLog2 = s.ringCapLog2 := rfl

@[simp] theorem endProducer_draws (s : State) (st : Status) (vs : List Word) :
    (s.endProducer st vs).draws = s.draws := rfl

@[simp] theorem endProducer_schedule (s : State) (st : Status) (vs : List Word) :
    (s.endProducer st vs).schedule = s.schedule := rfl

@[simp] theorem endProducer_host (s : State) (st : Status) (vs : List Word) :
    (s.endProducer st vs).host = s.host := rfl

@[simp] theorem endConsumer_shared (s : State) (st : Status) (vs : List Word) :
    (s.endConsumer st vs).shared = s.shared := rfl

@[simp] theorem endConsumer_p (s : State) (st : Status) (vs : List Word) :
    (s.endConsumer st vs).p = s.p := rfl

@[simp] theorem endConsumer_q (s : State) (st : Status) (vs : List Word) :
    (s.endConsumer st vs).q = { s.q.respond st vs with phase := .command } := rfl

@[simp] theorem endConsumer_ringCapLog2 (s : State) (st : Status) (vs : List Word) :
    (s.endConsumer st vs).ringCapLog2 = s.ringCapLog2 := rfl

@[simp] theorem endConsumer_draws (s : State) (st : Status) (vs : List Word) :
    (s.endConsumer st vs).draws = s.draws := rfl

@[simp] theorem endConsumer_schedule (s : State) (st : Status) (vs : List Word) :
    (s.endConsumer st vs).schedule = s.schedule := rfl

@[simp] theorem endConsumer_host (s : State) (st : Status) (vs : List Word) :
    (s.endConsumer st vs).host = s.host := rfl

@[simp] theorem setProducerInput_shared (s : State) (ws : List Word) :
    (s.setProducerInput ws).shared = s.shared := rfl

@[simp] theorem setProducerInput_p (s : State) (ws : List Word) :
    (s.setProducerInput ws).p = { s.p with input := ws } := rfl

@[simp] theorem setProducerInput_q (s : State) (ws : List Word) :
    (s.setProducerInput ws).q = s.q := rfl

@[simp] theorem setProducerInput_ringCapLog2 (s : State) (ws : List Word) :
    (s.setProducerInput ws).ringCapLog2 = s.ringCapLog2 := rfl

@[simp] theorem setProducerInput_draws (s : State) (ws : List Word) :
    (s.setProducerInput ws).draws = s.draws := rfl

@[simp] theorem setProducerInput_schedule (s : State) (ws : List Word) :
    (s.setProducerInput ws).schedule = s.schedule := rfl

@[simp] theorem setProducerInput_host (s : State) (ws : List Word) :
    (s.setProducerInput ws).host = s.host := rfl

@[simp] theorem setConsumerInput_shared (s : State) (ws : List Word) :
    (s.setConsumerInput ws).shared = s.shared := rfl

@[simp] theorem setConsumerInput_p (s : State) (ws : List Word) :
    (s.setConsumerInput ws).p = s.p := rfl

@[simp] theorem setConsumerInput_q (s : State) (ws : List Word) :
    (s.setConsumerInput ws).q = { s.q with input := ws } := rfl

@[simp] theorem setConsumerInput_ringCapLog2 (s : State) (ws : List Word) :
    (s.setConsumerInput ws).ringCapLog2 = s.ringCapLog2 := rfl

@[simp] theorem setConsumerInput_draws (s : State) (ws : List Word) :
    (s.setConsumerInput ws).draws = s.draws := rfl

@[simp] theorem setConsumerInput_schedule (s : State) (ws : List Word) :
    (s.setConsumerInput ws).schedule = s.schedule := rfl

@[simp] theorem setConsumerInput_host (s : State) (ws : List Word) :
    (s.setConsumerInput ws).host = s.host := rfl

@[simp] theorem resetEvent_shared (s : State) :
    (s.resetEvent).shared = Shared.reset := rfl

@[simp] theorem resetEvent_p (s : State) :
    (s.resetEvent).p = producerReset := rfl

@[simp] theorem resetEvent_q (s : State) :
    (s.resetEvent).q = consumerReset := rfl

@[simp] theorem resetEvent_ringCapLog2 (s : State) :
    (s.resetEvent).ringCapLog2 = s.ringCapLog2 := rfl

@[simp] theorem resetEvent_draws (s : State) :
    (s.resetEvent).draws = s.draws := rfl

@[simp] theorem resetEvent_schedule (s : State) :
    (s.resetEvent).schedule = s.schedule := rfl

@[simp] theorem resetEvent_host (s : State) :
    (s.resetEvent).host = s.host := rfl

@[simp] theorem answer_shared (s : State) (r : Except Status (List Word)) : (s.answer r).shared = s.shared := by
  cases r <;> rfl

@[simp] theorem answer_p (s : State) (r : Except Status (List Word)) : (s.answer r).p = s.p := by
  cases r <;> rfl

@[simp] theorem answer_ringCapLog2 (s : State) (r : Except Status (List Word)) : (s.answer r).ringCapLog2 = s.ringCapLog2 := by
  cases r <;> rfl

@[simp] theorem answer_schedule (s : State) (r : Except Status (List Word)) : (s.answer r).schedule = s.schedule := by
  cases r <;> rfl

@[simp] theorem answer_host (s : State) (r : Except Status (List Word)) : (s.answer r).host = s.host := by
  cases r <;> rfl

@[simp] theorem answer_draws (s : State) (r : Except Status (List Word)) : (s.answer r).draws = s.draws + 1 := by
  cases r <;> rfl

@[simp] theorem answer_q_phase (s : State) (r : Except Status (List Word)) : (s.answer r).q.phase = .command := by
  cases r <;> rfl

@[simp] theorem answer_q_input (s : State) (r : Except Status (List Word)) : (s.answer r).q.input = s.q.input := by
  cases r <;> rfl

@[simp] theorem answer_q_bytes (s : State) (r : Except Status (List Word)) : (s.answer r).q.bytes = s.q.bytes := by
  cases r <;> rfl

@[simp] theorem commit_shared (s : State) (sh : Shared) : (s.commit sh).shared = sh := by
  unfold State.commit; split <;> rfl

@[simp] theorem commit_p (s : State) (sh : Shared) : (s.commit sh).p = s.p := by
  unfold State.commit; split <;> rfl

@[simp] theorem commit_ringCapLog2 (s : State) (sh : Shared) : (s.commit sh).ringCapLog2 = s.ringCapLog2 := by
  unfold State.commit; split <;> rfl

@[simp] theorem commit_draws (s : State) (sh : Shared) : (s.commit sh).draws = s.draws := by
  unfold State.commit; split <;> rfl

@[simp] theorem commit_schedule (s : State) (sh : Shared) : (s.commit sh).schedule = s.schedule := by
  unfold State.commit; split <;> rfl

@[simp] theorem commit_host (s : State) (sh : Shared) : (s.commit sh).host = s.host := by
  unfold State.commit; split <;> rfl

@[simp] theorem commit_q_input (s : State) (sh : Shared) : (s.commit sh).q.input = s.q.input := by
  unfold State.commit; split <;> rfl

@[simp] theorem commit_q_output (s : State) (sh : Shared) : (s.commit sh).q.output = s.q.output := by
  unfold State.commit; split <;> rfl

@[simp] theorem commit_q_bytes (s : State) (sh : Shared) : (s.commit sh).q.bytes = s.q.bytes := by
  unfold State.commit; split <;> rfl

/-- With no query in progress, a producer step's write only replaces the shared state. -/
theorem commit_of_not_query (s : State) (sh : Shared) (h : ∀ i past, s.q.phase ≠ .query i past) :
    s.commit sh = { s with shared := sh } := by
  unfold State.commit
  split
  · rename_i i past hq; exact absurd hq (h i past)
  · rfl
  · rfl

/-- With a query in progress, the state replaced is remembered. -/
theorem commit_of_query (s : State) (sh : Shared) (i : Instr) (past : List Shared) (h : s.q.phase = .query i past) :
    s.commit sh = { s with shared := sh, q := { s.q with phase := .query i (past ++ [s.shared]) } } := by
  unfold State.commit
  simp only [h]

/-- The rejection of a command writes only its own port: a response, or the count of words still to be consumed. -/
theorem rejectProducer_cases (s : State) (e : DecodeError) (n : Nat) :
    (n = 0 ∧ s.rejectProducer e n = s.endProducer (errorStatus e) [])
    ∨ (n ≠ 0 ∧ s.rejectProducer e n = { s with p := { s.p with phase := .discard n } }) := by
  unfold State.rejectProducer
  split
  · exact .inl ⟨by assumption, rfl⟩
  · exact .inr ⟨by assumption, rfl⟩

/-- The same on port Q. -/
theorem rejectConsumer_cases (s : State) (e : DecodeError) (n : Nat) :
    (n = 0 ∧ s.rejectConsumer e n = s.endConsumer (errorStatus e) [])
    ∨ (n ≠ 0 ∧ s.rejectConsumer e n = { s with q := { s.q with phase := .discard n } }) := by
  unfold State.rejectConsumer
  split
  · exact .inl ⟨by assumption, rfl⟩
  · exact .inr ⟨by assumption, rfl⟩

end Sys2Proof.Machine
end

