-- ==== Sys2Proof/Laws/Bank.lean ====
section
/-! SUPPORT. The filter bank under the two writes a producer step makes: one FEED step, and a reconfiguration. Later
proofs cite these and never unfold `configure` (40_filter_section.md R62 to R67, 41_filter_bank.md R69 to R71). -/

namespace Sys2Proof.Machine

/-! ## One FEED step -/

@[simp] theorem feedShared_sampleRate (c : Nat) (sh : Shared) (x : Word) :
    (feedShared c sh x).sampleRate = sh.sampleRate := rfl

@[simp] theorem feedShared_win (c : Nat) (sh : Shared) (x : Word) :
    (feedShared c sh x).win = ringPush Config.fftN sh.win x := rfl

@[simp] theorem feedShared_bank (c : Nat) (sh : Shared) (x : Word) :
    (feedShared c sh x).bank = processBank sh.bank x := rfl

/-- Every section of a processed bank is its old self fed once. -/
theorem processBank_get (b : Bank) (x : Word) (id : SectionId) :
    ∃ y, (processBank b x).get id = feedSection (b.get id) y := by
  cases id <;> exact ⟨_, rfl⟩

@[simp] theorem feedSection_coeffs (s : Section) (x : Word) : (feedSection s x).coeffs = s.coeffs := rfl

/-- Every ring gets one push. -/
theorem feedShared_ring (c : Nat) (sh : Shared) (x : Word) (b : Band) :
    ∃ y, (feedShared c sh x).rings.get b = ringPush c (sh.rings.get b) y := by
  cases b <;> exact ⟨_, rfl⟩

/-! ## A reconfiguration -/

/-- No filter register is written (R66, 70_reset_and_hazards.md R117). -/
theorem configure_registers (draw : Nat) (b : Bank) (rate c q : Word) (id : SectionId) :
    ((configure draw b rate c q).get id).z1 = (b.get id).z1
    ∧ ((configure draw b rate c q).get id).z2 = (b.get id).z2 := by
  simp [configure, setLowpass, setBandpass, setHighpass]

/-- With a valid cutoff every section gets the coefficients of its response. -/
theorem configure_of_valid (draw : Nat) (b : Bank) (rate : Word)
    (hv : validFc (cutoffOf rate) Config.qFactor = true) :
    configure draw b rate Config.crossoverHz Config.qFactor
      = ⟨{ b.low1 with coeffs := lowpassOf (derive32 (cutoffOf rate) Config.qFactor) },
         { b.low2 with coeffs := lowpassOf (derive32 (cutoffOf rate) Config.qFactor) },
         { b.band1 with coeffs := bandpassOf (derive32 (cutoffOf rate) Config.qFactor) },
         { b.band2 with coeffs := bandpassOf (derive32 (cutoffOf rate) Config.qFactor) },
         { b.high1 with coeffs := highpassOf (derive32 (cutoffOf rate) Config.qFactor) },
         { b.high2 with coeffs := highpassOf (derive32 (cutoffOf rate) Config.qFactor) }⟩ := by
  have e : div32 Config.crossoverHz rate = cutoffOf rate := by rw [cutoffOf]
  unfold configure setLowpass setBandpass setHighpass
  simp only [e, hv, if_true, Bank.setCoeffs, Bank.get, Bank.set]

@[simp] theorem rateShared_sampleRate (draw : Nat) (sh : Shared) (rate : Word) :
    (rateShared draw sh rate).sampleRate = rate := by simp only [rateShared]

@[simp] theorem rateShared_rings (draw : Nat) (sh : Shared) (rate : Word) :
    (rateShared draw sh rate).rings = sh.rings := by simp only [rateShared]

@[simp] theorem rateShared_win (draw : Nat) (sh : Shared) (rate : Word) :
    (rateShared draw sh rate).win = sh.win := by simp only [rateShared]

theorem rateShared_bank (draw : Nat) (sh : Shared) (rate : Word) :
    (rateShared draw sh rate).bank = configure draw sh.bank rate Config.crossoverHz Config.qFactor := by
  simp only [rateShared]

end Sys2Proof.Machine
end

