-- ==== Sys2Proof/Laws/Binary32.lean ====
section
/-! SUPPORT. Binary32 words by their low 31 bits, the nearest integer, and the shape of a rounded quotient
(00_scope.md R11, R12). -/

namespace Sys2Proof.Machine

/-! ## A word by its sign and its low 31 bits -/

/-- The magnitude in units of 2^-149 of the word whose low 31 bits are `m`. -/
def magOf (m : Nat) : Nat := if m < 2 ^ 23 then m else (2 ^ 23 + m % 2 ^ 23) * 2 ^ (m / 2 ^ 23 - 1)

theorem expField_eq (w : Word) : expField w = w.toNat % 2 ^ 31 / 2 ^ 23 := by
  unfold expField; omega

theorem fracField_eq (w : Word) : fracField w = w.toNat % 2 ^ 31 % 2 ^ 23 := by
  unfold fracField; omega

theorem magnitude_eq (w : Word) : magnitude w = magOf (w.toNat % 2 ^ 31) := by
  unfold magnitude magOf
  rw [expField_eq, fracField_eq]
  by_cases h : w.toNat % 2 ^ 31 < 2 ^ 23
  · rw [if_pos (Nat.div_eq_of_lt h), if_pos h, Nat.mod_eq_of_lt h]
  · rw [if_neg (by omega), if_neg h]

theorem isFinite_iff (w : Word) : isFinite w = true ↔ w.toNat % 2 ^ 31 < 0x7F800000 := by
  unfold isFinite
  rw [expField_eq, bne_iff_ne]
  omega

theorem isNaN_iff (w : Word) : isNaN w = true ↔ 0x7F800000 < w.toNat % 2 ^ 31 := by
  unfold isNaN
  rw [expField_eq, fracField_eq, Bool.and_eq_true, beq_iff_eq, bne_iff_ne]
  omega

theorem isInf_iff (w : Word) : isInf w = true ↔ w.toNat % 2 ^ 31 = 0x7F800000 := by
  unfold isInf
  rw [expField_eq, fracField_eq, Bool.and_eq_true, beq_iff_eq, beq_iff_eq]
  omega

theorem isZero_iff (w : Word) : isZero w = true ↔ w.toNat % 2 ^ 31 = 0 := by
  unfold isZero
  rw [expField_eq, fracField_eq, Bool.and_eq_true, beq_iff_eq, beq_iff_eq]
  omega

/-- A finite word is neither a NaN nor an infinity. -/
theorem not_isNaN_of_isFinite (w : Word) (h : isFinite w = true) : isNaN w = false ∧ isInf w = false := by
  rw [isFinite_iff] at h
  exact ⟨Bool.eq_false_iff.2 fun h' => by rw [isNaN_iff] at h'; omega,
    Bool.eq_false_iff.2 fun h' => by rw [isInf_iff] at h'; omega⟩

theorem signBit_iff (w : Word) : signBit w = true ↔ 2 ^ 31 ≤ w.toNat := by
  unfold signBit
  rw [BitVec.msb_eq_decide, decide_eq_true_iff]

theorem pack_toNat (neg : Bool) (m : Nat) (h : m < 2 ^ 31) :
    (pack neg m).toNat = (if neg then 2 ^ 31 else 0) + m := by
  unfold pack
  rw [BitVec.toNat_ofNat]
  cases neg <;> simp <;> omega

theorem pack_low (neg : Bool) (m : Nat) (h : m < 2 ^ 31) : (pack neg m).toNat % 2 ^ 31 = m := by
  rw [pack_toNat neg m h]
  cases neg <;> simp <;> omega

theorem pack_signBit (neg : Bool) (m : Nat) (h : m < 2 ^ 31) : signBit (pack neg m) = neg := by
  rw [Bool.eq_iff_iff, signBit_iff, pack_toNat neg m h]
  cases neg <;> simp <;> omega

/-- A word is its sign and its low 31 bits put together again. -/
theorem pack_of_word (w : Word) : pack (signBit w) (w.toNat % 2 ^ 31) = w := by
  apply BitVec.eq_of_toNat_eq
  rw [pack_toNat _ _ (Nat.mod_lt _ (by decide))]
  have := w.isLt
  by_cases h : signBit w = true
  · rw [if_pos h]; rw [signBit_iff] at h; omega
  · rw [if_neg h]; rw [signBit_iff] at h; omega

theorem units_pack (neg : Bool) (m : Nat) (h : m < 2 ^ 31) :
    units (pack neg m) = if neg then -(magOf m : Int) else magOf m := by
  unfold units
  rw [pack_signBit neg m h, magnitude_eq, pack_low neg m h]

/-- neg32 keeps the low 31 bits (R12). -/
theorem neg32_low (b : Word) : (neg32 b).toNat % 2 ^ 31 = b.toNat % 2 ^ 31 := by
  unfold neg32
  rw [BitVec.toNat_xor, Nat.xor_mod_two_pow]
  simp

theorem neg32_signBit (b : Word) : signBit (neg32 b) = !signBit b := by
  unfold signBit neg32
  rw [BitVec.msb_xor, show BitVec.msb 0x80000000#32 = true by decide, Bool.xor_true]

theorem neg32_units (b : Word) : units (neg32 b) = -units b := by
  unfold units
  rw [neg32_signBit, magnitude_eq, magnitude_eq, neg32_low]
  cases signBit b <;> simp

theorem units_natAbs (w : Word) : (units w).natAbs = magnitude w := by
  unfold units
  split <;> simp

/-! ## The magnitudes in order -/

theorem magOf_binade (k e : Nat) (h₁ : 2 ^ 23 ≤ k) (h₂ : k ≤ 2 ^ 24) : magOf (k + e * 2 ^ 23) = k * 2 ^ e := by
  unfold magOf
  rw [if_neg (by omega)]
  rcases Nat.lt_or_ge k (2 ^ 24) with hk | hk
  · rw [show (k + e * 2 ^ 23) % 2 ^ 23 = k - 2 ^ 23 by omega, show (k + e * 2 ^ 23) / 2 ^ 23 - 1 = e by omega,
      show 2 ^ 23 + (k - 2 ^ 23) = k by omega]
  · rw [show (k + e * 2 ^ 23) % 2 ^ 23 = 0 by omega, show (k + e * 2 ^ 23) / 2 ^ 23 - 1 = e + 1 by omega,
      show k = 2 ^ 24 by omega]
    ring

theorem magOf_small (k : Nat) (h : k ≤ 2 ^ 24) : magOf k = k := by
  rcases Nat.lt_or_ge k (2 ^ 23) with hk | hk
  · unfold magOf; rw [if_pos hk]
  · simpa using magOf_binade k 0 hk h

/-- A magnitude below 2^23 is itself; any other is a significand of 24 bits at an exponent. -/
theorem magOf_cases (m : Nat) :
    (m < 2 ^ 23 ∧ magOf m = m)
    ∨ ∃ k e, 2 ^ 23 ≤ k ∧ k < 2 ^ 24 ∧ m = k + e * 2 ^ 23 ∧ magOf m = k * 2 ^ e := by
  rcases Nat.lt_or_ge m (2 ^ 23) with h | h
  · exact .inl ⟨h, magOf_small m (by omega)⟩
  · have hm : m = (2 ^ 23 + m % 2 ^ 23) + (m / 2 ^ 23 - 1) * 2 ^ 23 := by omega
    refine .inr ⟨2 ^ 23 + m % 2 ^ 23, m / 2 ^ 23 - 1, by omega, by omega, hm, ?_⟩
    conv_lhs => rw [hm]
    exact magOf_binade _ _ (by omega) (by omega)

theorem magOf_lt_succ (m : Nat) : magOf m < magOf (m + 1) := by
  rcases magOf_cases m with ⟨h, e⟩ | ⟨k, e, h₁, h₂, rfl, he⟩
  · rw [e, magOf_small _ (by omega)]; omega
  · rw [he, show k + e * 2 ^ 23 + 1 = (k + 1) + e * 2 ^ 23 by omega, magOf_binade _ _ (by omega) (by omega)]
    exact Nat.mul_lt_mul_of_pos_right (by omega) (Nat.two_pow_pos e)

/-- The low 31 bits order the magnitudes. -/
theorem magOf_strictMono : StrictMono magOf := strictMono_nat_of_lt_succ magOf_lt_succ

/-- orderKey orders the words as their values are ordered. -/
theorem orderKey_lt_iff (a b : Word) : orderKey a < orderKey b ↔ units a < units b := by
  have hz : ∀ m, magOf m = 0 ↔ m = 0 := fun m =>
    ⟨fun h => magOf_strictMono.injective (h.trans (show 0 = magOf 0 from rfl)), fun h => by rw [h]; rfl⟩
  have hlt : ∀ m n, magOf m < magOf n ↔ m < n := fun m n => magOf_strictMono.lt_iff_lt
  unfold orderKey units
  rw [magnitude_eq, magnitude_eq]
  have h₁ := hlt (a.toNat % 2 ^ 31) (b.toNat % 2 ^ 31)
  have h₂ := hlt (b.toNat % 2 ^ 31) (a.toNat % 2 ^ 31)
  have h₃ := hz (a.toNat % 2 ^ 31)
  have h₄ := hz (b.toNat % 2 ^ 31)
  generalize a.toNat % 2 ^ 31 = m at *
  generalize b.toNat % 2 ^ 31 = n at *
  cases signBit a <;> cases signBit b <;> simp <;> omega

/-- "Less than" of finite words is that of their values (R12). -/
theorem lt32_iff_units (a b : Word) (ha : isFinite a = true) (hb : isFinite b = true) :
    lt32 a b = true ↔ units a < units b := by
  unfold lt32
  rw [(not_isNaN_of_isFinite a ha).1, (not_isNaN_of_isFinite b hb).1, ← orderKey_lt_iff]
  simp

/-- A magnitude from 2^(23+e) up is a multiple of 2^e. -/
theorem magOf_dvd (m e : Nat) (h : 2 ^ (23 + e) ≤ magOf m) : 2 ^ e ∣ magOf m := by
  rcases magOf_cases m with ⟨hm, he⟩ | ⟨k, e', h₁, h₂, -, he⟩
  · rw [he] at h
    have : 2 ^ 23 ≤ 2 ^ (23 + e) := Nat.pow_le_pow_right (by decide) (by omega)
    omega
  · rw [he] at h ⊢
    have hlt : 2 ^ (23 + e) < 2 ^ (24 + e') := by
      calc 2 ^ (23 + e) ≤ k * 2 ^ e' := h
        _ < 2 ^ 24 * 2 ^ e' := Nat.mul_lt_mul_of_pos_right h₂ (Nat.two_pow_pos _)
        _ = 2 ^ (24 + e') := (pow_add ..).symm
    have := (Nat.pow_lt_pow_iff_right (by decide : 1 < 2)).1 hlt
    exact Dvd.dvd.mul_left (Nat.pow_dvd_pow 2 (by omega)) k

/-! ## The nearest integer -/

/-- The nearest integer is within half of the quotient, and even where it is exactly half away. -/
theorem nearestEven_spec (n d : Nat) (h : 0 < d) :
    2 * (nearestEven n d * d) ≤ 2 * n + d ∧ 2 * n ≤ 2 * (nearestEven n d * d) + d
    ∧ (2 * (nearestEven n d * d) = 2 * n + d ∨ 2 * n = 2 * (nearestEven n d * d) + d → nearestEven n d % 2 = 0) := by
  have hdm := Nat.div_add_mod n d
  have hlt := Nat.mod_lt n h
  rw [mul_comm] at hdm
  unfold nearestEven
  generalize n / d = q at *
  generalize n % d = r at *
  have hs : (q + 1) * d = q * d + d := by ring
  split
  · omega
  · split
    · rw [hs]; omega
    · rcases Nat.mod_two_eq_zero_or_one q with hq | hq
      · rw [hq, Nat.add_zero]; omega
      · rw [hq, hs]; omega

/-- No integer is nearer. -/
theorem nearestEven_nearest (n d j : Nat) (h : 0 < d) :
    |(nearestEven n d : Int) * d - n| ≤ |(j : Int) * d - n| := by
  obtain ⟨h₁, h₂, -⟩ := nearestEven_spec n d h
  generalize nearestEven n d = k at *
  zify at h₁ h₂
  rcases Nat.lt_trichotomy j k with hj | rfl | hj
  · have : ((j : Int) + 1) * d ≤ k * d := mul_le_mul_of_nonneg_right (by omega) (by omega)
    rw [abs_le, abs_of_nonpos (by linarith)]
    constructor <;> linarith
  · exact le_refl _
  · have : ((k : Int) + 1) * d ≤ j * d := mul_le_mul_of_nonneg_right (by omega) (by omega)
    rw [abs_le, abs_of_nonneg (by linarith)]
    constructor <;> linarith

theorem le_nearestEven (n d a : Nat) (h : 0 < d) (ha : a * d ≤ n) : a ≤ nearestEven n d := by
  obtain ⟨-, h₂, h₃⟩ := nearestEven_spec n d h
  by_contra hc
  have : (nearestEven n d + 1) * d ≤ a * d := Nat.mul_le_mul_right _ (by omega)
  rw [Nat.add_mul, Nat.one_mul] at this
  omega

theorem nearestEven_le (n d a : Nat) (h : 0 < d) (ha : n ≤ a * d) : nearestEven n d ≤ a := by
  obtain ⟨h₁, -, h₃⟩ := nearestEven_spec n d h
  by_contra hc
  have : (a + 1) * d ≤ nearestEven n d * d := Nat.mul_le_mul_right _ (by omega)
  rw [Nat.add_mul, Nat.one_mul] at this
  omega

/-- An exact quotient is its own nearest integer. -/
theorem nearestEven_exact (a d : Nat) (h : 0 < d) : nearestEven (a * d) d = a :=
  le_antisymm (nearestEven_le _ _ _ h le_rfl) (le_nearestEven _ _ _ h le_rfl)

/-! ## Rounded quotients -/

/-- A rounded quotient is a significand of at most 24 bits at the exponent of the quotient's leading bit, saturated at
infinity. -/
theorem roundUnits_cases (n d : Nat) (h : 0 < d) :
    ∃ e, roundUnits n d = min (nearestEven n (d * 2 ^ e) + e * 2 ^ 23) 0x7F800000
      ∧ nearestEven n (d * 2 ^ e) ≤ 2 ^ 24 ∧ n < 2 ^ (24 + e) * d
      ∧ (e = 0 ∨ (2 ^ 23 ≤ nearestEven n (d * 2 ^ e) ∧ 2 ^ (23 + e) * d ≤ n)) := by
  have hup : n < 2 ^ (24 + (Nat.log2 (n / d) - 23)) * d := by
    rw [← Nat.div_lt_iff_lt_mul h]
    calc n / d < 2 ^ (Nat.log2 (n / d) + 1) := Nat.lt_log2_self
      _ ≤ _ := Nat.pow_le_pow_right (by decide) (by omega)
  have hpos : 0 < d * 2 ^ (Nat.log2 (n / d) - 23) := Nat.mul_pos h (Nat.two_pow_pos _)
  refine ⟨Nat.log2 (n / d) - 23, rfl, ?_, hup, ?_⟩
  · refine nearestEven_le _ _ _ hpos (le_of_lt (lt_of_lt_of_eq hup ?_))
    rw [pow_add]; ring
  · rcases Nat.eq_zero_or_pos (Nat.log2 (n / d) - 23) with h0 | h0
    · exact .inl h0
    · have hlo : 2 ^ (23 + (Nat.log2 (n / d) - 23)) * d ≤ n := by
        rw [show 23 + (Nat.log2 (n / d) - 23) = Nat.log2 (n / d) by omega, mul_comm]
        have hne : n / d ≠ 0 := by
          intro h'; rw [h'] at h0; simp at h0
        calc d * 2 ^ Nat.log2 (n / d) ≤ d * (n / d) := Nat.mul_le_mul_left _ (Nat.log2_self_le hne)
          _ ≤ n := Nat.mul_div_le n d
      refine .inr ⟨le_nearestEven _ _ _ hpos (le_trans (le_of_eq ?_) hlo), hlo⟩
      rw [pow_add]; ring

/-- A rounded quotient is the low 31 bits of a finite word or of infinity. -/
theorem roundUnits_le (n d : Nat) : roundUnits n d ≤ 0x7F800000 := min_le_right _ _

theorem roundUnits_lt (n d : Nat) : roundUnits n d < 2 ^ 31 := lt_of_le_of_lt (roundUnits_le n d) (by decide)

/-! ## The integer square root -/

theorem isqrtFrom_spec (k x acc : Nat) (h₁ : acc * acc ≤ x) (h₂ : x < (acc + 2 ^ k) * (acc + 2 ^ k)) :
    isqrtFrom k x acc * isqrtFrom k x acc ≤ x ∧ x < (isqrtFrom k x acc + 1) * (isqrtFrom k x acc + 1) := by
  induction k generalizing acc with
  | zero => exact ⟨h₁, by simpa [isqrtFrom] using h₂⟩
  | succ k ih =>
    unfold isqrtFrom
    split
    · next h => exact ih _ h (by rwa [show acc + 2 ^ k + 2 ^ k = acc + 2 ^ (k + 1) by ring])
    · next h => exact ih _ h₁ (by omega)

/-- The integer square root is the floor of the real one. -/
theorem isqrt_spec (x : Nat) (h : x < 2 ^ 428) : isqrt x * isqrt x ≤ x ∧ x < (isqrt x + 1) * (isqrt x + 1) :=
  isqrtFrom_spec 214 x 0 (Nat.zero_le _) (by rw [Nat.zero_add, ← pow_add]; exact h)

end Sys2Proof.Machine
end

