-- ==== Sys2Proof/Laws/PerInstr.lean ====
section
/-! SUPPORT. A family of statements about each command as syntax: its encoding is one command word that its own port
accepts, with every unused bit zero, and as many operand words as the decoder waits for (30_encoding.md R53, R55). -/

namespace Sys2Proof.Laws.CommandWord

/-- The command word of `i` is accepted by the port of `i` with no reserved bit set, and one operand word follows it
exactly where the decoder waits for one. -/
def Statement (i : Instr) : Prop :=
  ∃ op w args, encode i = w :: args ∧ opcodeOn i.port (opcField w) = some op ∧ reservedBits op w = 0
    ∧ args.length = (if takesArg op then 1 else 0)

/-- A field of a word, as a number. -/
theorem field_toNat (w : Word) (start len : Nat) :
    (w.extractLsb' start len).toNat = w.toNat / 2 ^ start % 2 ^ len := by
  rw [BitVec.extractLsb'_toNat, Nat.shiftRight_eq_div_pow]

/-- The command word as a number: the four fields at their places (R52). -/
theorem commandWord_toNat (cnt : BitVec 16) (mode band : BitVec 4) (opc : BitVec 8) :
    (commandWord cnt mode band opc).toNat
      = cnt.toNat * 2 ^ 16 + mode.toNat * 2 ^ 12 + band.toNat * 2 ^ 8 + opc.toNat := by
  have key : ∀ (n m : Nat) (x : BitVec n) (y : BitVec m), (x ++ y).toNat = x.toNat * 2 ^ m + y.toNat := by
    intro n m x y
    rw [BitVec.toNat_append, ← Nat.shiftLeft_add_eq_or_of_lt y.isLt, Nat.shiftLeft_eq]
  have h : (commandWord cnt mode band opc).toNat
      = ((cnt.toNat * 2 ^ 4 + mode.toNat) * 2 ^ 4 + band.toNat) * 2 ^ 8 + opc.toNat := by
    unfold commandWord
    rw [key, key, key]
  rw [h]; ring

@[simp] theorem opcField_commandWord (cnt : BitVec 16) (mode band : BitVec 4) (opc : BitVec 8) :
    opcField (commandWord cnt mode band opc) = opc := by
  apply BitVec.eq_of_toNat_eq
  rw [opcField, field_toNat, commandWord_toNat]
  have := opc.isLt
  omega

@[simp] theorem bandField_commandWord (cnt : BitVec 16) (mode band : BitVec 4) (opc : BitVec 8) :
    bandField (commandWord cnt mode band opc) = band := by
  apply BitVec.eq_of_toNat_eq
  rw [bandField, field_toNat, commandWord_toNat]
  have := opc.isLt; have := band.isLt
  omega

@[simp] theorem modeField_commandWord (cnt : BitVec 16) (mode band : BitVec 4) (opc : BitVec 8) :
    modeField (commandWord cnt mode band opc) = mode := by
  apply BitVec.eq_of_toNat_eq
  rw [modeField, field_toNat, commandWord_toNat]
  have := opc.isLt; have := band.isLt; have := mode.isLt
  omega

@[simp] theorem cntField_commandWord (cnt : BitVec 16) (mode band : BitVec 4) (opc : BitVec 8) :
    cntField (commandWord cnt mode band opc) = cnt := by
  apply BitVec.eq_of_toNat_eq
  rw [cntField, field_toNat, commandWord_toNat]
  have := opc.isLt; have := band.isLt; have := mode.isLt; have := cnt.isLt
  omega

/-- A command word is its four fields put together again. -/
theorem commandWord_fields (w : Word) : commandWord (cntField w) (modeField w) (bandField w) (opcField w) = w := by
  apply BitVec.eq_of_toNat_eq
  rw [commandWord_toNat, cntField, modeField, bandField, opcField, field_toNat, field_toNat, field_toNat, field_toNat]
  have := w.isLt
  omega

theorem upper_word (opc : BitVec 8) : ((commandWord 0#16 0#4 0#4 opc).extractLsb' 8 24).toNat = 0 := by
  rw [field_toNat, commandWord_toNat]
  have := opc.isLt
  simp only [BitVec.toNat_ofNat]
  omega

theorem upper_blockWord (cnt : BitVec 16) (opc : BitVec 8) :
    ((commandWord cnt 0#4 0#4 opc).extractLsb' 8 8).toNat = 0 := by
  rw [field_toNat, commandWord_toNat]
  have := opc.isLt
  simp only [BitVec.toNat_ofNat]
  omega

theorem upper_bandWord (band : BitVec 4) (opc : BitVec 8) :
    ((commandWord 0#16 0#4 band opc).extractLsb' 12 20).toNat = 0 := by
  rw [field_toNat, commandWord_toNat]
  have := opc.isLt; have := band.isLt
  simp only [BitVec.toNat_ofNat]
  omega

theorem upper_modeWord (mode : BitVec 4) (opc : BitVec 8) : (commandWord 0#16 mode 0#4 opc).extractLsb' 16 16 = 0#16 := by
  apply BitVec.eq_of_toNat_eq
  rw [field_toNat, commandWord_toNat]
  have := opc.isLt; have := mode.isLt
  simp only [BitVec.toNat_ofNat]
  omega

theorem band_modeWord (mode : BitVec 4) (opc : BitVec 8) : (commandWord 0#16 mode 0#4 opc).extractLsb' 8 4 = 0#4 :=
  bandField_commandWord 0#16 mode 0#4 opc

theorem unused_modeWord (mode : BitVec 4) (opc : BitVec 8) :
    ((commandWord 0#16 mode 0#4 opc).extractLsb' 16 16 ++ (commandWord 0#16 mode 0#4 opc).extractLsb' 8 4).toNat = 0 := by
  rw [upper_modeWord, band_modeWord]; rfl

theorem feed (x : Word) : Statement (.feed x) :=
  ⟨.feed, _, _, rfl, by rw [opcField_commandWord]; rfl, upper_word _, rfl⟩

theorem feedBlock (cnt : BitVec 16) : Statement (.feedBlock cnt) :=
  ⟨.feedBlock, _, _, rfl, by rw [opcField_commandWord]; rfl, upper_blockWord _ _, rfl⟩

theorem setSampleRate (rate : Word) : Statement (.setSampleRate rate) :=
  ⟨.setSampleRate, _, _, rfl, by rw [opcField_commandWord]; rfl, upper_word _, rfl⟩

theorem getSampleRate : Statement .getSampleRate :=
  ⟨.getSampleRate, _, _, rfl, by rw [opcField_commandWord]; rfl, upper_word _, rfl⟩

theorem getPeak (band : BitVec 4) (d : Word) : Statement (.getPeak band d) :=
  ⟨.getPeak, _, _, rfl, by rw [opcField_commandWord]; rfl, upper_bandWord _ _, rfl⟩

theorem getRms (band : BitVec 4) (d : Word) : Statement (.getRms band d) :=
  ⟨.getRms, _, _, rfl, by rw [opcField_commandWord]; rfl, upper_bandWord _ _, rfl⟩

theorem peakN (band : BitVec 4) (r : Word) : Statement (.peakN band r) :=
  ⟨.peakN, _, _, rfl, by rw [opcField_commandWord]; rfl, upper_bandWord _ _, rfl⟩

theorem rmsN (band : BitVec 4) (r : Word) : Statement (.rmsN band r) :=
  ⟨.rmsN, _, _, rfl, by rw [opcField_commandWord]; rfl, upper_bandWord _ _, rfl⟩

theorem copyWaveform (band : BitVec 4) (l : Word) : Statement (.copyWaveform band l) :=
  ⟨.copyWaveform, _, _, rfl, by rw [opcField_commandWord]; rfl, upper_bandWord _ _, rfl⟩

theorem getBandAverages (mode : BitVec 4) (l : Word) : Statement (.getBandAverages mode l) :=
  ⟨.getBandAverages, _, _, rfl, by rw [opcField_commandWord]; rfl, unused_modeWord _ _, rfl⟩

end Sys2Proof.Laws.CommandWord
end

