-- ==== Sys2Proof/Laws/Decode.lean ====
section
/-! SUPPORT. What the opcode map and the decoder can answer (30_encoding.md R51, R53, R55). -/

namespace Sys2Proof

/-- An OPC value has a mnemonic exactly when it is that mnemonic's code. -/
theorem opcodeOfCode_iff (b : BitVec 8) (op : Opcode) : opcodeOfCode b = some op ↔ opcodeCode op = b := by
  revert b; cases op <;> decide

/-- An OPC value has a mnemonic on a port exactly when it is the code of a mnemonic of that port. -/
theorem opcodeOn_iff (port : PortId) (b : BitVec 8) (op : Opcode) :
    opcodeOn port b = some op ↔ opcodeCode op = b ∧ opcodePort op = port := by
  unfold opcodeOn
  rw [← opcodeOfCode_iff]
  cases h : opcodeOfCode b with
  | none => simp
  | some op' =>
    simp only [Option.some.injEq]
    split
    · next hp => constructor
                 · intro h'; cases h'; exact ⟨rfl, hp⟩
                 · rintro ⟨rfl, -⟩; rfl
    · next hp => constructor
                 · intro h'; cases h'
                 · rintro ⟨rfl, h2⟩; exact absurd h2 hp

/-- A command put together for an opcode stands on that opcode's port. -/
theorem assemble_port (op : Opcode) (w arg : Word) : (assemble op w arg).port = opcodePort op := by
  cases op <;> rfl

/-- A command decoded on a port is one of that port. -/
theorem decode_command_port (port : PortId) (ws rest : List Word) (i : Instr)
    (h : decode port ws = .command i rest) : i.port = port := by
  cases ws with
  | nil => cases h
  | cons w ws =>
    simp only [decode] at h
    cases hop : opcodeOn port (opcField w) with
    | none => simp [hop] at h
    | some op =>
      have hp := ((opcodeOn_iff port _ op).1 hop).2
      simp only [hop] at h
      split at h
      · cases h
      · split at h
        · cases ws with
          | nil => cases h
          | cons arg ws =>
            simp only [Decoded.command.injEq] at h
            rw [← h.1, assemble_port, hp]
        · simp only [Decoded.command.injEq] at h
          rw [← h.1, assemble_port, hp]

/-- How many words a rejected command still has to consume: at most 65535 on port P, at most one on port Q. -/
theorem decode_reject_args (port : PortId) (ws rest : List Word) (e : DecodeError) (n : Nat)
    (h : decode port ws = .reject e n rest) : n ≤ 65535 ∧ (port = .q → n ≤ 1) := by
  cases ws with
  | nil => cases h
  | cons w ws =>
    simp only [decode] at h
    cases hop : opcodeOn port (opcField w) with
    | none => simp only [hop, Decoded.reject.injEq] at h; omega
    | some op =>
      have hp := ((opcodeOn_iff port _ op).1 hop).2
      simp only [hop] at h
      split at h
      · simp only [Decoded.reject.injEq] at h
        have hc := (cntField w).isLt
        obtain ⟨-, rfl, -⟩ := h
        subst hp
        cases op <;> (simp only [argCount, opcodePort]; constructor <;> intros <;> simp_all <;> omega)
      · split at h
        · cases ws <;> cases h
        · cases h

end Sys2Proof
end

