-- ==== Sys2Proof/Laws/Memory.lean ====
section
/-! SUPPORT. The laws of the word memories: read after write, and that every write keeps the canonical form. -/

namespace Sys2Proof.Machine

@[simp] theorem memRead_nil (i : Nat) : memRead [] i = 0#32 := rfl

/-- The canonical form, as a proposition. -/
theorem memory_wf_iff (m : Memory) :
    m.wf = true ↔ m.Pairwise (fun x y => x.1 < y.1) ∧ ∀ c ∈ m, c.2 ≠ 0#32 := by
  unfold Memory.wf
  rw [Bool.and_eq_true, decide_eq_true_iff, List.all_eq_true]
  exact and_congr_right fun _ => forall₂_congr fun c _ => decide_eq_true_iff

theorem memory_wf_cons (a : Nat) (w : Word) (m : Memory) :
    Memory.wf ((a, w) :: m) = true ↔ (∀ c ∈ m, a < c.1) ∧ w ≠ 0#32 ∧ Memory.wf m = true := by
  rw [memory_wf_iff, memory_wf_iff, List.pairwise_cons]
  simp only [List.mem_cons, forall_eq_or_imp]
  tauto

/-- An index below every listed one reads as an unlisted word. -/
theorem memRead_of_lt (m : Memory) (i : Nat) (h : ∀ c ∈ m, i < c.1) : memRead m i = 0#32 := by
  cases m with
  | nil => rfl
  | cons c m =>
    have := h c (List.mem_cons_self ..)
    obtain ⟨a, w⟩ := c
    simp only at this
    rw [memRead, if_neg (by omega), if_neg (by omega)]
    rfl

/-- Reading the index just written gives the word written. -/
theorem memRead_memWrite_same (m : Memory) (i : Nat) (v : Word) (h : m.wf = true) :
    memRead (memWrite m i v) i = v := by
  induction m with
  | nil =>
    unfold memWrite
    split
    · next hv => simp [hv, unlistedWord]
    · simp [memRead]
  | cons c m ih =>
    obtain ⟨a, w⟩ := c
    obtain ⟨hlt, -, hm⟩ := (memory_wf_cons a w m).1 h
    unfold memWrite
    split
    · next ha => rw [memRead, if_pos ha, ih hm]
    · next ha =>
      split
      · next he =>
        split
        · next hv => rw [memRead_of_lt m i (by intro c hc; have := hlt c hc; omega)]; exact hv.symm
        · simp [memRead]
      · next he =>
        split
        · next hv => rw [memRead, if_neg ha, if_neg he]; exact hv.symm
        · simp [memRead]

/-- Writing one index leaves every other word as it was. -/
theorem memRead_memWrite_other (m : Memory) (i j : Nat) (v : Word) (h : m.wf = true) (hj : j ≠ i) :
    memRead (memWrite m i v) j = memRead m j := by
  induction m with
  | nil =>
    unfold memWrite
    split
    · rfl
    · simp only [memRead]
      split
      · rfl
      · rw [if_neg (by omega)]
  | cons c m ih =>
    obtain ⟨a, w⟩ := c
    obtain ⟨hlt, -, hm⟩ := (memory_wf_cons a w m).1 h
    unfold memWrite
    split
    · next ha => simp only [memRead, ih hm]
    · next ha =>
      split
      · next he =>
        split
        · next hv =>
          by_cases hij : a < j
          · rw [memRead, if_pos hij]
          · rw [memRead, if_neg hij, if_neg (by omega), memRead_of_lt m j (by intro c hc; have := hlt c hc; omega)]
            rfl
        · by_cases hij : i < j
          · rw [memRead, if_pos hij, memRead, if_pos (by omega)]
          · rw [memRead, if_neg hij, if_neg (by omega), memRead, if_neg (by omega), if_neg (by omega)]
      · next he =>
        split
        · rfl
        · by_cases hij : i < j
          · rw [memRead, if_pos hij]
          · rw [memRead, if_neg hij, if_neg (by omega), memRead, if_neg (by omega), if_neg (by omega)]

/-- What a write can list: what was listed, or the word written. -/
theorem mem_memWrite (m : Memory) (i : Nat) (v : Word) (c : Nat × Word) (h : c ∈ memWrite m i v) :
    c ∈ m ∨ (c = (i, v) ∧ v ≠ 0#32) := by
  induction m with
  | nil =>
    unfold memWrite at h
    split at h
    · simp at h
    · next hv => exact .inr ⟨by simpa using h, hv⟩
  | cons d m ih =>
    obtain ⟨a, w⟩ := d
    unfold memWrite at h
    split at h
    · rcases List.mem_cons.1 h with h | h
      · exact .inl (by simp [h])
      · rcases ih h with h | h
        · exact .inl (by simp [h])
        · exact .inr h
    · split at h
      · split at h
        · exact .inl (by simp [h])
        · next hv =>
          rcases List.mem_cons.1 h with h | h
          · exact .inr ⟨h, hv⟩
          · exact .inl (by simp [h])
      · split at h
        · exact .inl h
        · next hv =>
          rcases List.mem_cons.1 h with h | h
          · exact .inr ⟨h, hv⟩
          · exact .inl h

/-- A write keeps the canonical form. -/
theorem memWrite_wf (m : Memory) (i : Nat) (v : Word) (h : m.wf = true) : (memWrite m i v).wf = true := by
  induction m with
  | nil =>
    unfold memWrite
    split
    · rfl
    · next hv => rw [memory_wf_cons]; exact ⟨by simp, hv, rfl⟩
  | cons c m ih =>
    obtain ⟨a, w⟩ := c
    obtain ⟨hlt, hw, hm⟩ := (memory_wf_cons a w m).1 h
    unfold memWrite
    split
    · next ha =>
      rw [memory_wf_cons]
      refine ⟨fun c hc => ?_, hw, ih hm⟩
      rcases mem_memWrite m i v c hc with hc | ⟨rfl, -⟩
      · exact hlt c hc
      · exact ha
    · next ha =>
      split
      · next he =>
        split
        · exact hm
        · next hv => rw [memory_wf_cons]; exact ⟨fun c hc => he ▸ hlt c hc, hv, hm⟩
      · next he =>
        split
        · exact h
        · next hv =>
          rw [memory_wf_cons]
          refine ⟨fun c hc => ?_, hv, h⟩
          rcases List.mem_cons.1 hc with rfl | hc
          · simp only; omega
          · have := hlt c hc; omega

/-- Canonical memories that read alike are equal data. -/
theorem memory_ext (m n : Memory) (hm : m.wf = true) (hn : n.wf = true) (h : ∀ i, memRead m i = memRead n i) :
    m = n := by
  induction m generalizing n with
  | nil =>
    cases n with
    | nil => rfl
    | cons d n =>
      obtain ⟨b, x⟩ := d
      have := h b
      obtain ⟨-, hx, -⟩ := (memory_wf_cons b x n).1 hn
      simp [memRead] at this
      exact absurd this.symm hx
  | cons c m ih =>
    obtain ⟨a, w⟩ := c
    obtain ⟨hlt, hw, hm'⟩ := (memory_wf_cons a w m).1 hm
    cases n with
    | nil =>
      have := h a
      simp [memRead] at this
      exact absurd this hw
    | cons d n =>
      obtain ⟨b, x⟩ := d
      obtain ⟨hlt', hx, hn'⟩ := (memory_wf_cons b x n).1 hn
      have hab : a = b := by
        rcases Nat.lt_trichotomy a b with hl | hl | hl
        · have := h a
          simp only [memRead, lt_irrefl, if_false, if_true] at this
          rw [if_neg (by omega), if_neg (by omega)] at this
          exact absurd this hw
        · exact hl
        · have := h b
          simp only [memRead, lt_irrefl, if_false, if_true] at this
          rw [if_neg (by omega), if_neg (by omega)] at this
          exact absurd this.symm hx
      subst hab
      have hwx : w = x := by simpa [memRead] using h a
      subst hwx
      rw [ih n hm' hn']
      intro i
      by_cases hi : a < i
      · simpa [memRead, hi] using h i
      · rw [memRead_of_lt m i (by intro c hc; have := hlt c hc; omega),
          memRead_of_lt n i (by intro c hc; have := hlt' c hc; omega)]

end Sys2Proof.Machine
end

