-- ==== Sys2Proof/Laws/Ring.lean ====
section
/-! SUPPORT. What a push does to a circular history, and the shapes of the windows read from it. -/

namespace Sys2Proof.Machine

@[simp] theorem ringPush_cursor (size : Nat) (r : Ring) (x : Word) :
    (ringPush size r x).cursor = (r.cursor + 1) % size := rfl

@[simp] theorem ringPush_mem (size : Nat) (r : Ring) (x : Word) :
    (ringPush size r x).mem = memWrite r.mem r.cursor x := rfl

/-- A legal ring, as a proposition. -/
theorem ring_wf_iff (size : Nat) (r : Ring) :
    r.wf size = true ↔ r.mem.wf = true ∧ (∀ c ∈ r.mem, c.1 < size) ∧ r.cursor < size := by
  simp [Ring.wf, and_assoc]

/-- A push keeps a ring legal. -/
theorem ringPush_wf (size : Nat) (r : Ring) (x : Word) (h : r.wf size = true) :
    (ringPush size r x).wf size = true := by
  obtain ⟨hm, hi, hc⟩ := (ring_wf_iff size r).1 h
  refine (ring_wf_iff size _).2 ⟨memWrite_wf _ _ _ hm, fun c hcm => ?_, Nat.mod_lt _ (by omega)⟩
  rcases mem_memWrite _ _ _ c hcm with hcm | ⟨rfl, -⟩
  · exact hi c hcm
  · exact hc

/-- After a push the slot of the old cursor holds the sample. -/
theorem ringPush_read_cursor (size : Nat) (r : Ring) (x : Word) (h : r.wf size = true) :
    memRead (ringPush size r x).mem r.cursor = x :=
  memRead_memWrite_same _ _ _ ((ring_wf_iff size r).1 h).1

/-- After a push every other slot is as before. -/
theorem ringPush_read_other (size : Nat) (r : Ring) (x : Word) (a : Nat) (h : r.wf size = true) (ha : a ≠ r.cursor) :
    memRead (ringPush size r x).mem a = memRead r.mem a :=
  memRead_memWrite_other _ _ _ _ ((ring_wf_iff size r).1 h).1 ha

/-- The ring at reset is legal for every size above zero. -/
theorem ring_reset_wf (size : Nat) (h : 0 < size) : Ring.reset.wf size = true :=
  (ring_wf_iff size _).2 ⟨rfl, by simp [Ring.reset], h⟩

/-- Every slot is in range (42_ring_buffer.md R73). -/
theorem slot_lt (size i0 k : Nat) (h : 0 < size) : slot size i0 k < size := Nat.mod_lt _ h

/-- The slot of the k-th most recent sample is (i0 - 1 - k) mod the size, as integers (42_ring_buffer.md R73). -/
theorem slot_eq_emod (size i0 k : Nat) (h : k < size) :
    slot size i0 k = (((i0 : Int) - 1 - k) % (size : Int)).toNat := by
  unfold slot
  rw [show (i0 : Int) - 1 - k = ((i0 + (size - 1 - k) : Nat) : Int) - size by omega, Int.sub_emod_right,
    ← Int.natCast_emod, Int.toNat_natCast]

@[simp] theorem historyOf_length (size : Nat) (r : Ring) : (historyOf size r).length = size := by
  simp [historyOf]

@[simp] theorem newestOf_length (size : Nat) (r : Ring) (n : Nat) : (newestOf size r n).length = min n size := by
  simp [newestOf]

/-- The k-th entry of a history (10_state.md R22). -/
theorem historyOf_getElem (size : Nat) (r : Ring) (k : Nat) (h : k < (historyOf size r).length) :
    (historyOf size r)[k] = memRead r.mem ((r.cursor + k) % size) := by
  simp [historyOf]

/-- The capacity is at least one. -/
theorem capacity_pos (s : State) : 0 < s.capacity := Nat.two_pow_pos _

end Sys2Proof.Machine
end

