-- ==== Sys2Proof/Laws/Ops.lean ====
section
/-! SUPPORT. For each shared operation, once, what it can do: the operands, what a query reads and how it ends, the turns
of the ports, the events of the host. -/

namespace Sys2Proof.Machine

/-! ## Operands -/

/-- BAND names a band exactly when it is below 4; the operand is that band, or ERR_BAND. -/
theorem bandOperand_cases (f : BitVec 4) :
    (∃ b, bandOfField f = some b ∧ bandOperand f = .ok b ∧ f.toNat < 4)
    ∨ (bandOfField f = none ∧ bandOperand f = .error .errBand ∧ 4 ≤ f.toNat) := by
  revert f; decide +kernel

/-- A sample count is a number below 2^32, or ERR_ARG. -/
theorem sampleCount_cases (d rate : Word) :
    (∃ n, sampleCount d rate = .ok n ∧ n ≤ 2 ^ 32 - 1) ∨ sampleCount d rate = .error .errArg := by
  unfold sampleCount
  dsimp only
  split
  · exact .inr rfl
  · split
    · exact .inl ⟨_, rfl, le_refl _⟩
    · exact .inl ⟨_, rfl, min_le_right _ _⟩

/-! ## What a query reads (20_memory.md R43) -/

/-- A query that nothing overlapped reads the present shared state. -/
theorem view_of_idle (s : State) (h : s.queryIdle) : s.view = ⟨[], s.shared, s.draws, s.capacity⟩ := by
  unfold State.view
  rw [show s.q.phase = .command from h]

theorem sample_of_no_past (v : View) (e : Nat) (h : v.past = []) : v.sample e = v.now := by
  unfold View.sample
  rw [h]

/-- Whatever is drawn, it is one of the states of the interval. -/
theorem sample_mem (v : View) (e : Nat) : v.sample e ∈ v.past ++ [v.now] := by
  unfold View.sample
  split
  · next h => simp [h]
  · next old rest h =>
    rw [h]
    have hlt : Config.tornRead v.draw e % (rest.length + 2) < (old :: rest ++ [v.now]).length := by
      have := Nat.mod_lt (Config.tornRead v.draw e) (show 0 < rest.length + 2 by omega)
      simp only [List.length_append, List.length_cons, List.length_nil]
      omega
    rw [List.getD_eq_getElem _ _ hlt]
    exact List.getElem_mem hlt

/-- The states a query may read from are the remembered ones of a query in progress, and none otherwise. -/
theorem view_past_cases (s : State) :
    (∃ i past, s.q.phase = .query i past ∧ s.view.past = past)
    ∨ ((∀ i past, s.q.phase ≠ .query i past) ∧ s.view.past = []) := by
  unfold State.view
  cases h : s.q.phase with
  | command => exact .inr ⟨by simp, rfl⟩
  | discard n => exact .inr ⟨by simp, rfl⟩
  | query i past => exact .inl ⟨i, past, rfl, rfl⟩

@[simp] theorem view_now (s : State) : s.view.now = s.shared := rfl
@[simp] theorem view_draw (s : State) : s.view.draw = s.draws := rfl
@[simp] theorem view_capacity (s : State) : s.view.capacity = s.capacity := rfl

/-! ## Windows of a ring (42_ring_buffer.md R73) -/

/-- The slot of the k-th most recent sample holds the k-th entry from the end of the history. -/
theorem read_slot (size : Nat) (r : Ring) (k : Nat) (h : k < size) :
    memRead r.mem (slot size r.cursor k) = (historyOf size r)[size - 1 - k]'(by simp; omega) := by
  rw [historyOf_getElem]
  rfl

/-! ## How a query ends -/

theorem answer_ok (s : State) (vs : List Word) :
    s.answer (.ok vs) = { s.endConsumer .ok vs with draws := s.draws + 1 } := rfl

theorem answer_error (s : State) (st : Status) :
    s.answer (.error st) = { s.endConsumer st [] with draws := s.draws + 1 } := rfl

/-- Every query ends with one answer. -/
theorem exec_query_answers (i : Instr) (s : State) (h : i.port = .q) : ∃ r, exec i s = .next (s.answer r) := by
  cases i <;> first | exact ⟨_, rfl⟩ | cases h

/-! ## What the producer commands can do -/

/-- FEED: one FEED step and the response. -/
theorem exec_feed (x : Word) (s : State) : exec (.feed x) s = .next ((s.feedStep x).endProducer .ok []) := rfl

/-- FEED_BLOCK: the response of an empty block, or the block is open. -/
theorem exec_feedBlock (cnt : BitVec 16) (s : State) :
    (cnt.toNat = 0 ∧ exec (.feedBlock cnt) s = .next (s.endProducer .ok []))
    ∨ (cnt.toNat ≠ 0 ∧ exec (.feedBlock cnt) s = .next { s with p := { s.p with phase := .block cnt.toNat } }) := by
  by_cases h : cnt.toNat = 0
  · exact .inl ⟨h, by simp [exec, execFeedBlock, h]⟩
  · exact .inr ⟨h, by simp [exec, execFeedBlock, h]⟩

/-- SET_SAMPLE_RATE: the response alone, or the new rate with its coefficients, and the response. -/
theorem exec_setSampleRate (rate : Word) (s : State) :
    (eq32 rate s.shared.sampleRate = true ∧ exec (.setSampleRate rate) s = .next (s.endProducer .ok []))
    ∨ (eq32 rate s.shared.sampleRate = false ∧ exec (.setSampleRate rate) s
        = .next { (s.commit (rateShared s.draws s.shared rate)).endProducer .ok [] with draws := s.draws + 1 }) := by
  cases h : eq32 rate s.shared.sampleRate with
  | true => exact .inl ⟨rfl, by simp only [exec, execSetSampleRate, h, if_true]⟩
  | false => exact .inr ⟨rfl, by simp only [exec, execSetSampleRate, h, Bool.false_eq_true, if_false]⟩

/-- One sample of a block: a FEED step, and the block stays open or is answered. -/
theorem blockSample_cases (s : State) (left : Nat) (x : Word) :
    (left ≤ 1 ∧ s.blockSample left x = (s.feedStep x).endProducer .ok [])
    ∨ (1 < left ∧ s.blockSample left x
        = { s.feedStep x with p := { (s.feedStep x).p with phase := .block (left - 1) } }) := by
  unfold State.blockSample
  split
  · exact .inl ⟨by assumption, rfl⟩
  · exact .inr ⟨by omega, by simp [State.feedStep]⟩

/-! ## Turns (00_scope.md R18, 30_encoding.md R55) -/

/-- What a turn of port P can do. -/
theorem producerTurn_cases (s t : State) (h : producerTurn s = .next t) :
    t = s
    ∨ (∃ i rest, s.p.phase = .command ∧ decode .p s.p.input = .command i rest
        ∧ exec i (s.setProducerInput rest) = .next t)
    ∨ (∃ e n rest, s.p.phase = .command ∧ decode .p s.p.input = .reject e n rest
        ∧ t = (s.setProducerInput rest).rejectProducer e n)
    ∨ (∃ left x rest, s.p.phase = .discard left ∧ s.p.input = x :: rest
        ∧ t = (s.setProducerInput rest).rejectProducer .reservedField (left - 1))
    ∨ (∃ left x rest, s.p.phase = .block left ∧ s.p.input = x :: rest
        ∧ t = (s.setProducerInput rest).blockSample left x) := by
  unfold producerTurn at h
  split at h
  · next hp =>
    split at h
    · cases h; exact .inl rfl
    · next i rest hd => exact .inr (.inl ⟨i, rest, hp, hd, h⟩)
    · next e n rest hd => cases h; exact .inr (.inr (.inl ⟨e, n, rest, hp, hd, rfl⟩))
  · next left hp =>
    split at h
    · cases h; exact .inl rfl
    · next x rest hi => cases h; exact .inr (.inr (.inr (.inl ⟨left, x, rest, hp, hi, rfl⟩)))
  · next left hp =>
    split at h
    · cases h; exact .inl rfl
    · next x rest hi => cases h; exact .inr (.inr (.inr (.inr ⟨left, x, rest, hp, hi, rfl⟩)))

/-- What a finishing turn of port Q can do. -/
theorem consumerTurn_cases (s t : State) (h : consumerTurn s = .next t) :
    t = s
    ∨ (∃ i past, s.q.phase = .query i past ∧ exec i s = .next t)
    ∨ (∃ i rest, s.q.phase = .command ∧ decode .q s.q.input = .command i rest
        ∧ exec i (s.setConsumerInput rest) = .next t)
    ∨ (∃ e n rest, s.q.phase = .command ∧ decode .q s.q.input = .reject e n rest
        ∧ t = (s.setConsumerInput rest).rejectConsumer e n)
    ∨ (∃ left x rest, s.q.phase = .discard left ∧ s.q.input = x :: rest
        ∧ t = (s.setConsumerInput rest).rejectConsumer .reservedField (left - 1)) := by
  unfold consumerTurn at h
  split at h
  · next i past hp => exact .inr (.inl ⟨i, past, hp, h⟩)
  · next hp =>
    split at h
    · cases h; exact .inl rfl
    · next i rest hd => exact .inr (.inr (.inl ⟨i, rest, hp, hd, h⟩))
    · next e n rest hd => cases h; exact .inr (.inr (.inr (.inl ⟨e, n, rest, hp, hd, rfl⟩)))
  · next left hp =>
    split at h
    · cases h; exact .inl rfl
    · next x rest hi => cases h; exact .inr (.inr (.inr (.inr ⟨left, x, rest, hp, hi, rfl⟩)))

/-- What an accepting turn of port Q can do. -/
theorem acceptTurn_cases (s : State) :
    acceptTurn s = s
    ∨ ∃ i rest, s.q.phase = .command ∧ decode .q s.q.input = .command i rest
        ∧ acceptTurn s = { s with q := { s.q with input := rest, phase := .query i [] } } := by
  unfold acceptTurn
  split
  · exact .inl rfl
  · exact .inl rfl
  · next hp =>
    split
    · next i rest hd => exact .inr ⟨i, rest, hp, hd, rfl⟩
    · exact .inl rfl
    · exact .inl rfl

/-- What a turn of the host can do. -/
theorem hostTurn_cases (s : State) :
    (s.host = [] ∧ hostTurn s = s)
    ∨ ∃ e rest, s.host = e :: rest ∧ hostTurn s = ({ s with host := rest } : State).hostEvent e := by
  unfold hostTurn
  split
  · next h => exact .inl ⟨h, rfl⟩
  · next e rest h => exact .inr ⟨e, rest, h, rfl⟩

/-- A run in two parts. -/
theorem runTurns_append (a b : List Turn) (s t : State) (h : runTurns a s = .next t) :
    runTurns (a ++ b) s = runTurns b t := by
  induction a generalizing s with
  | nil => cases h; rfl
  | cons x a ih =>
    simp only [List.cons_append, runTurns] at h ⊢
    split at h
    · exact ih _ h
    · cases h
    · cases h

/-- An event of the host writes the shared state only when it is the reset. -/
theorem hostEvent_shared (s : State) (e : HostEvent) (h : e ≠ .reset) : (s.hostEvent e).shared = s.shared := by
  cases e with
  | word port w => cases port <;> rfl
  | byte port b => cases port <;> rfl
  | take port => cases port <;> rfl
  | reset => exact absurd rfl h

@[simp] theorem hostEvent_ringCapLog2 (s : State) (e : HostEvent) :
    (s.hostEvent e).ringCapLog2 = s.ringCapLog2 := by
  cases e with
  | word port w => cases port <;> rfl
  | byte port b => cases port <;> rfl
  | take port => cases port <;> rfl
  | reset => rfl

/-- Choosing the next turn writes the model's own fields only. -/
theorem nextTurn_state (s : State) :
    (nextTurn s).2.shared = s.shared ∧ (nextTurn s).2.p = s.p ∧ (nextTurn s).2.q = s.q
    ∧ (nextTurn s).2.ringCapLog2 = s.ringCapLog2 ∧ (nextTurn s).2.host = s.host := by
  unfold nextTurn
  split <;> exact ⟨rfl, rfl, rfl, rfl, rfl⟩

end Sys2Proof.Machine
end

