-- ==== Sys2Proof/Laws/Spectral.lean ====
section
/-! SUPPORT. What the spectral engine's operations can answer: the lengths, the ranges of the indices, and the cases of the
two reducers (43_spectral.md R80 to R87). -/

namespace Sys2Proof.Machine

theorem fftH_eq : Config.fftH = 64 := by decide

theorem fftN_eq : Config.fftN = 128 := by decide

@[simp] theorem chronological_length (v : View) : (chronological v).length = 128 := by
  simp [chronological, fftN_eq]

@[simp] theorem magnitudes_length (xw : List Word) : (magnitudes xw).length = 64 := by
  simp [magnitudes, fftH_eq]

@[simp] theorem analyze_length (v : View) : (analyze v).length = 64 := magnitudes_length _

/-- Dft32 of an all-zero input keeps only sign bits (R81, P2). -/
theorem dft32_of_zero (xw : List Word) (k : Nat) (h : ∀ x ∈ xw, isZero x = true) :
    ∃ a b : Word, dft32 xw k = (a &&& 0x80000000#32, b &&& 0x80000000#32) := by
  unfold dft32
  rw [if_pos (List.all_eq_true.2 h)]
  exact ⟨_, _, rfl⟩

/-- Every index is in range (R84). -/
theorem toIndex_lt (v : Word) : toIndex v < 64 := by
  unfold toIndex
  rw [fftH_eq]
  split
  · omega
  · split
    · split <;> omega
    · exact lt_of_le_of_lt (min_le_right _ _) (by omega)

theorem binIndex_lt (rate f : Word) : binIndex rate f < 64 := toIndex_lt _

/-- A weighted window, position by position (R82). -/
theorem windowed_getElem? (xs : List Word) (i : Nat) :
    (windowed xs)[i]? = xs[i]?.map fun x => mul32 x (hann32 i 128) := by
  unfold windowed
  rw [fftN_eq, List.getElem?_mapIdx]

/-- mag[j] is the magnitude of source bin j + 1 (R82). -/
theorem magnitudes_getElem? (xw : List Word) (j : Nat) (h : j < 64) :
    (magnitudes xw)[j]? = some (magnitudeOf (dft32 xw (j + 1))) := by
  unfold magnitudes
  rw [fftH_eq, List.getElem?_map, List.getElem?_range h]
  rfl

/-- The linear reducer answers one mean for each group, or ERR_ARG (R85). -/
theorem reduceLinear_cases (mag : List Word) (l : Nat) :
    (1 ≤ l ∧ l ≤ 64 ∧ reduceLinear mag l
      = .ok ((List.range l).map fun i => mean mag (i * (64 / l)) ((i + 1) * (64 / l))))
    ∨ ((l = 0 ∨ 64 < l) ∧ reduceLinear mag l = .error .errArg) := by
  unfold reduceLinear
  rw [fftH_eq]
  split
  · exact .inr ⟨by omega, rfl⟩
  · exact .inl ⟨by omega, by omega, rfl⟩

@[simp] theorem subBands_length (mag : List Word) (rate step hi : Word) (n : Nat) (f : Word) :
    (subBands mag rate step hi n f).length = n := by
  induction n generalizing f with
  | zero => rfl
  | succ n ih => simp [subBands, ih]

@[simp] theorem octaveBands_length (mag : List Word) (rate : Word) (o bpo i : Nat) :
    (octaveBands mag rate o bpo i).length = bpo := by
  simp [octaveBands]

/-- Why the logarithmic reducer turns a request away (R87). -/
def logRejected (rate : Word) (l : Nat) : Prop :=
  (isNaN rate || isInf rate || !lt32 0#32 rate) = true ∨ l = 2 ^ 32 - 1 ∨ octaves rate = 0 ∨ (l + 1) / octaves rate = 0

/-- The logarithmic reducer answers its octaves and the slots left over, or ERR_ARG (R87). -/
theorem reduceLog_cases (mag : List Word) (rate : Word) (l : Nat) :
    (¬ logRejected rate l ∧ reduceLog mag rate l
      = .ok ((List.range (octaves rate)).flatMap (octaveBands mag rate (octaves rate) ((l + 1) / octaves rate))
        ++ List.replicate (l + 1 - octaves rate * ((l + 1) / octaves rate)) 0#32))
    ∨ (logRejected rate l ∧ reduceLog mag rate l = .error .errArg) := by
  unfold reduceLog logRejected
  by_cases h₁ : (isNaN rate || isInf rate || !lt32 0#32 rate) = true
  · exact .inr ⟨.inl h₁, if_pos h₁⟩
  · rw [if_neg h₁]
    by_cases h₂ : l = 2 ^ 32 - 1
    · exact .inr ⟨.inr (.inl h₂), if_pos h₂⟩
    · rw [if_neg h₂]
      by_cases h₃ : octaves rate = 0
      · exact .inr ⟨.inr (.inr (.inl h₃)), if_pos h₃⟩
      · rw [if_neg h₃]
        by_cases h₄ : (l + 1) / octaves rate = 0
        · exact .inr ⟨.inr (.inr (.inr h₄)), if_pos h₄⟩
        · exact .inl ⟨by tauto, if_neg h₄⟩

/-- The octave count stops at the first value below MIN_BW_HZ, unless its fuel ends first (R86). -/
theorem octaveCount_succ (fuel : Nat) (f : Word) :
    (lt32 f Config.minBwHz = true ∧ octaveCount (fuel + 1) f = 0)
    ∨ (lt32 f Config.minBwHz = false
      ∧ octaveCount (fuel + 1) f = octaveCount fuel (div32 f 0x40000000#32) + 1) := by
  cases h : lt32 f Config.minBwHz with
  | true => exact .inl ⟨rfl, by rw [octaveCount, if_pos h]⟩
  | false => exact .inr ⟨rfl, by rw [octaveCount, if_neg (by simp [h])]⟩

end Sys2Proof.Machine
end

