-- ==== Sys2Proof/Laws/Trig.lean ====
section
/-! SUPPORT. The fixed-point enclosures hold the reals they stand for: π, products, quotients, and sin and cos on
[0, π/2] (00_scope.md R14). -/

namespace Sys2Proof.Machine

/-! ## π -/

/-- The partial sums of the arctangent series. -/
def arctanSum (q : ℚ) : Nat → ℚ
  | 0 => 0
  | n + 1 => arctanSum q n + (-1) ^ n * (q ^ (2 * n + 1) / (2 * n + 1))

theorem arctanSum_cast (q : ℚ) (n : Nat) :
    ((arctanSum q n : ℚ) : ℝ)
      = ∑ i ∈ Finset.range n, (-1) ^ i * ((q : ℝ) ^ (2 * i + 1) / ((2 * i + 1 : Nat) : ℝ)) := by
  induction n with
  | zero => simp [arctanSum]
  | succ n ih =>
    rw [Finset.sum_range_succ, ← ih, arctanSum]
    push_cast
    ring

/-- An even number of terms of the arctangent series is a lower bound, an odd number an upper bound. -/
theorem arctan_between (q : ℚ) (h₀ : 0 ≤ q) (h₁ : q < 1) (k : Nat) :
    ((arctanSum q (2 * k) : ℚ) : ℝ) ≤ Real.arctan q ∧ Real.arctan q ≤ ((arctanSum q (2 * k + 1) : ℚ) : ℝ) := by
  have hq0 : (0 : ℝ) ≤ q := by exact_mod_cast h₀
  have hq1 : (q : ℝ) < 1 := by exact_mod_cast h₁
  have hs : HasSum (fun n : Nat => (-1) ^ n * ((q : ℝ) ^ (2 * n + 1) / ((2 * n + 1 : Nat) : ℝ))) (Real.arctan q) := by
    have := Real.hasSum_arctan (x := (q : ℝ)) (by rw [Real.norm_eq_abs, abs_of_nonneg hq0]; exact hq1)
    simpa only [mul_div_assoc] using this
  have ha : Antitone fun n : Nat => (q : ℝ) ^ (2 * n + 1) / ((2 * n + 1 : Nat) : ℝ) := by
    refine antitone_nat_of_succ_le fun n => ?_
    have hp : (q : ℝ) ^ (2 * (n + 1) + 1) ≤ (q : ℝ) ^ (2 * n + 1) :=
      pow_le_pow_of_le_one hq0 hq1.le (by omega)
    exact div_le_div₀ (pow_nonneg hq0 _) hp (by positivity) (by exact_mod_cast (by omega))
  rw [arctanSum_cast, arctanSum_cast]
  exact ⟨ha.alternating_series_le_tendsto hs.tendsto_sum_nat k,
    ha.tendsto_le_alternating_series hs.tendsto_sum_nat k⟩

theorem machin_lower :
    (piFloor : ℚ) / 2 ^ enclosureBits ≤ 4 * (4 * arctanSum (1 / 5) (2 * 72) - arctanSum (1 / 239) (2 * 24 + 1)) := by
  decide +kernel

theorem machin_upper :
    4 * (4 * arctanSum (1 / 5) (2 * 72 + 1) - arctanSum (1 / 239) (2 * 24)) < ((piFloor : ℚ) + 1) / 2 ^ enclosureBits := by
  decide +kernel

/-- π to 320 binary places. -/
theorem piFloor_spec :
    (piFloor : ℝ) ≤ Real.pi * 2 ^ enclosureBits ∧ Real.pi * 2 ^ enclosureBits < (piFloor : ℝ) + 1 := by
  have hm := Real.four_mul_arctan_inv_5_sub_arctan_inv_239
  obtain ⟨l5, u5⟩ := arctan_between (1 / 5) (by norm_num) (by norm_num) 72
  obtain ⟨l239, u239⟩ := arctan_between (1 / 239) (by norm_num) (by norm_num) 24
  have e5 : ((1 / 5 : ℚ) : ℝ) = 5⁻¹ := by norm_num
  have e239 : ((1 / 239 : ℚ) : ℝ) = 239⁻¹ := by norm_num
  rw [e5] at l5 u5
  rw [e239] at l239 u239
  have hl : ((piFloor : ℚ) / 2 ^ enclosureBits : ℝ)
      ≤ 4 * (4 * (arctanSum (1 / 5) (2 * 72) : ℚ) - (arctanSum (1 / 239) (2 * 24 + 1) : ℚ)) := by
    exact_mod_cast machin_lower
  have hu : (4 * (4 * (arctanSum (1 / 5) (2 * 72 + 1) : ℚ) - (arctanSum (1 / 239) (2 * 24) : ℚ)) : ℝ)
      < ((piFloor : ℚ) + 1) / 2 ^ enclosureBits := by
    exact_mod_cast machin_upper
  have hpos : (0 : ℝ) < 2 ^ enclosureBits := by positivity
  push_cast at hl hu
  constructor
  · rw [← div_le_iff₀ hpos]; linarith
  · rw [← lt_div_iff₀ hpos]; linarith

/-! ## Enclosures -/

/-- The enclosure holds the real number. -/
def Enclosure.Holds (e : Enclosure) (x : ℝ) : Prop :=
  (e.lo : ℝ) ≤ x * 2 ^ enclosureBits ∧ x * 2 ^ enclosureBits ≤ e.hi

/-- π·n/d is held. -/
theorem piTimes_holds (n d : Nat) (h : 0 < d) : (piTimes n d).Holds (Real.pi * n / d) := by
  obtain ⟨hl, hu⟩ := piFloor_spec
  have hd : (0 : ℝ) < d := by exact_mod_cast h
  have hn : (0 : ℝ) ≤ n := Nat.cast_nonneg n
  constructor
  · have h₁ : ((n * piFloor / d : Nat) : ℝ) ≤ ((n * piFloor : Nat) : ℝ) / d := Nat.cast_div_le
    refine le_trans h₁ ?_
    rw [div_mul_eq_mul_div]
    apply div_le_div_of_nonneg_right _ hd.le
    push_cast
    nlinarith
  · have h₁ : ((n * (piFloor + 1) : Nat) : ℝ) / d ≤ ((n * (piFloor + 1) / d + 1 : Nat) : ℝ) := by
      rw [div_le_iff₀ hd]
      exact_mod_cast (Nat.lt_mul_of_div_lt (Nat.lt_succ_self _) h).le
    refine le_trans ?_ h₁
    rw [div_mul_eq_mul_div]
    apply div_le_div_of_nonneg_right _ hd.le
    push_cast
    nlinarith

/-- The product of two reals that are not negative is held. -/
theorem mul_holds (a b : Enclosure) (x y : ℝ) (ha : a.Holds x) (hb : b.Holds y) (hx : 0 ≤ x) (hy : 0 ≤ y) :
    (a.mul b).Holds (x * y) := by
  have hpos : (0 : ℝ) < 2 ^ enclosureBits := by positivity
  have e : x * y * 2 ^ enclosureBits = (x * 2 ^ enclosureBits) * (y * 2 ^ enclosureBits) / 2 ^ enclosureBits := by
    field_simp
  constructor
  · have h₁ : ((a.lo * b.lo / 2 ^ enclosureBits : Nat) : ℝ) ≤ ((a.lo * b.lo : Nat) : ℝ) / ((2 ^ enclosureBits : Nat) : ℝ) :=
      Nat.cast_div_le
    refine le_trans h₁ ?_
    rw [e]
    push_cast
    apply div_le_div_of_nonneg_right _ hpos.le
    exact mul_le_mul ha.1 hb.1 (Nat.cast_nonneg _) (by positivity)
  · have h₁ : ((a.hi * b.hi : Nat) : ℝ) / ((2 ^ enclosureBits : Nat) : ℝ)
        ≤ ((a.hi * b.hi / 2 ^ enclosureBits + 1 : Nat) : ℝ) := by
      rw [div_le_iff₀ (by exact_mod_cast Nat.two_pow_pos _)]
      exact_mod_cast (Nat.lt_mul_of_div_lt (Nat.lt_succ_self _) (Nat.two_pow_pos _)).le
    refine le_trans ?_ h₁
    rw [e]
    push_cast
    apply div_le_div_of_nonneg_right _ hpos.le
    exact mul_le_mul ha.2 hb.2 (by positivity) (Nat.cast_nonneg _)

/-- The quotient by a positive integer is held. -/
theorem divNat_holds (a : Enclosure) (x : ℝ) (n : Nat) (ha : a.Holds x) (hn : 0 < n) : (a.divNat n).Holds (x / n) := by
  have hd : (0 : ℝ) < n := by exact_mod_cast hn
  have e : x / n * 2 ^ enclosureBits = x * 2 ^ enclosureBits / n := by field_simp
  constructor
  · have h₁ : ((a.lo / n : Nat) : ℝ) ≤ (a.lo : ℝ) / n := Nat.cast_div_le
    refine le_trans h₁ ?_
    rw [e]
    exact div_le_div_of_nonneg_right ha.1 hd.le
  · have h₁ : (a.hi : ℝ) / n ≤ ((a.hi / n + 1 : Nat) : ℝ) := by
      rw [div_le_iff₀ hd]
      exact_mod_cast (Nat.lt_mul_of_div_lt (Nat.lt_succ_self _) hn).le
    refine le_trans ?_ h₁
    rw [e]
    exact div_le_div_of_nonneg_right ha.2 hd.le

/-! ## Taylor series -/

@[simp] theorem taylorTerms_length (n d : Nat) (t xx : Enclosure) : (taylorTerms n d t xx).length = n := by
  induction n generalizing d t with
  | zero => rfl
  | succ n ih => simp [taylorTerms, ih]

/-- Every Taylor term is held: the i-th is x^(d+2i)/(d+2i)!. -/
theorem taylorTerms_holds (n d : Nat) (t xx : Enclosure) (x : ℝ) (hx : 0 ≤ x)
    (ht : t.Holds (x ^ d / (d.factorial : ℝ))) (hxx : xx.Holds (x * x)) (i : Nat) (hi : i < (taylorTerms n d t xx).length) :
    ((taylorTerms n d t xx)[i]).Holds (x ^ (d + 2 * i) / ((d + 2 * i).factorial : ℝ)) := by
  induction n generalizing d t i with
  | zero => simp [taylorTerms] at hi
  | succ n ih =>
    cases i with
    | zero => simpa [taylorTerms] using ht
    | succ i =>
      have hstep : ((t.mul xx).divNat ((d + 1) * (d + 2))).Holds (x ^ (d + 2) / ((d + 2).factorial : ℝ)) := by
        have h₁ := divNat_holds _ _ ((d + 1) * (d + 2))
          (mul_holds t xx _ _ ht hxx (by positivity) (by positivity)) (by positivity)
        convert h₁ using 1
        rw [Nat.factorial_succ, Nat.factorial_succ]
        push_cast
        field_simp
        ring
      have := ih (d + 2) _ hstep i (by simpa [taylorTerms] using hi)
      simp only [taylorTerms, List.getElem_cons_succ]
      rw [show d + 2 * (i + 1) = d + 2 + 2 * i by ring]
      exact this

/-! ## Alternating sums of enclosures -/

theorem everyOther_length : ∀ l : List Enclosure, (everyOther l).length = (l.length + 1) / 2
  | [] => by simp [everyOther]
  | [_] => by simp [everyOther]
  | _ :: _ :: rest => by
    have := everyOther_length rest
    simp only [everyOther, List.length_cons, this]
    omega

theorem everyOther_getElem : ∀ (l : List Enclosure) (i : Nat) (h : i < (everyOther l).length),
    (everyOther l)[i] = l[2 * i]'(by rw [everyOther_length] at h; omega)
  | [], i, h => absurd h (Nat.not_lt_zero i)
  | [_], i, h => by
    have h₀ : i < 1 := h
    obtain rfl : i = 0 := by omega
    rfl
  | _ :: _ :: _, 0, _ => rfl
  | _ :: _ :: rest, i + 1, h => by
    have h₀ : i < (everyOther rest).length := by
      simpa only [everyOther, List.length_cons, Nat.add_lt_add_iff_right] using h
    simpa [everyOther, Nat.mul_add] using everyOther_getElem rest i h₀

/-- The sums of the ends of a list of enclosures hold the sum of the reals they hold. -/
theorem sum_holds (l : List Enclosure) (g : Nat → ℝ) (h : ∀ i (hi : i < l.length), (l[i]).Holds (g i)) :
    (((l.map Enclosure.lo).sum : Nat) : ℝ) ≤ (∑ i ∈ Finset.range l.length, g i) * 2 ^ enclosureBits
    ∧ (∑ i ∈ Finset.range l.length, g i) * 2 ^ enclosureBits ≤ (((l.map Enclosure.hi).sum : Nat) : ℝ) := by
  induction l generalizing g with
  | nil => simp
  | cons a l ih =>
    have h₀ := h 0 (by simp)
    have h₁ := ih (fun i => g (i + 1)) fun i hi => h (i + 1) (by simpa using hi)
    simp only [List.length_cons, Finset.sum_range_succ', List.map_cons, List.sum_cons, Nat.cast_add, add_mul]
    simp only [List.getElem_cons_zero] at h₀
    obtain ⟨a₁, a₂⟩ := h₀
    obtain ⟨b₁, b₂⟩ := h₁
    constructor <;> linarith

/-- The alternating sum of 2k enclosures, k ≥ 1: below it every real that is at least the sum of all its terms and not
negative, above it every real that is at most the sum of all but the last. -/
theorem alternatingSum_holds (ts : List Enclosure) (f : Nat → ℝ) (y : ℝ) (k : Nat) (hk : ts.length = 2 * (k + 1))
    (h : ∀ i (hi : i < ts.length), (ts[i]).Holds (f i)) (hy : 0 ≤ y)
    (hl : ∑ i ∈ Finset.range (2 * (k + 1)), (-1) ^ i * f i ≤ y)
    (hu : y ≤ ∑ i ∈ Finset.range (2 * k + 1), (-1) ^ i * f i) : (alternatingSum ts).Holds y := by
  have split₁ : ∀ m : Nat, ∑ i ∈ Finset.range (2 * m), (-1 : ℝ) ^ i * f i
      = ∑ i ∈ Finset.range m, f (2 * i) - ∑ i ∈ Finset.range m, f (2 * i + 1) := by
    intro m
    induction m with
    | zero => simp
    | succ m ih =>
      rw [show 2 * (m + 1) = 2 * m + 1 + 1 by ring, Finset.sum_range_succ, Finset.sum_range_succ, ih,
        Finset.sum_range_succ, Finset.sum_range_succ, pow_succ, pow_mul]
      norm_num
      ring
  have hpos : (0 : ℝ) < 2 ^ enclosureBits := by positivity
  have hev := sum_holds (everyOther ts) (fun i => f (2 * i)) fun i hi => by
    rw [everyOther_getElem]; exact h _ _
  have hod := sum_holds (everyOther ts.tail) (fun i => f (2 * i + 1)) fun i hi => by
    rw [everyOther_getElem, List.getElem_tail]; exact h _ _
  have hod' := sum_holds (everyOther ts.tail).dropLast (fun i => f (2 * i + 1)) fun i hi => by
    rw [List.getElem_dropLast, everyOther_getElem, List.getElem_tail]; exact h _ _
  have n₁ : (everyOther ts).length = k + 1 := by rw [everyOther_length]; omega
  have n₂ : (everyOther ts.tail).length = k + 1 := by rw [everyOther_length, List.length_tail]; omega
  have n₃ : (everyOther ts.tail).dropLast.length = k := by rw [List.length_dropLast]; omega
  rw [n₁] at hev
  rw [n₂] at hod
  rw [n₃] at hod'
  rw [split₁] at hl
  rw [Finset.sum_range_succ, split₁, pow_mul] at hu
  norm_num at hu
  have hs : ∑ i ∈ Finset.range (k + 1), f (2 * i) = ∑ i ∈ Finset.range k, f (2 * i) + f (2 * k) :=
    Finset.sum_range_succ _ _
  constructor
  · have hy' : (0 : ℝ) ≤ y * 2 ^ enclosureBits := by positivity
    rcases Nat.le_total ((everyOther ts.tail).map Enclosure.hi).sum ((everyOther ts).map Enclosure.lo).sum with hle | hle
    · simp only [alternatingSum]
      rw [Nat.cast_sub hle]
      have := mul_le_mul_of_nonneg_right hl hpos.le
      rw [sub_mul] at this
      linarith [hev.1, hod.2]
    · simp only [alternatingSum]
      rw [Nat.sub_eq_zero_of_le hle]
      simpa using hy'
  · simp only [alternatingSum]
    have hc : (((everyOther ts).map Enclosure.hi).sum : ℝ) - (((everyOther ts.tail).dropLast.map Enclosure.lo).sum : ℝ)
        ≤ ((((everyOther ts).map Enclosure.hi).sum - ((everyOther ts.tail).dropLast.map Enclosure.lo).sum : Nat) : ℝ) := by
      rw [sub_le_iff_le_add]
      exact_mod_cast le_tsub_add
    refine le_trans ?_ hc
    have := mul_le_mul_of_nonneg_right hu hpos.le
    rw [add_mul, sub_mul] at this
    rw [hs, add_mul] at hev
    linarith [hev.2, hod'.1]

/-! ## sin and cos -/

/-- From the term after x^d/d! on, where x² ≤ (d+1)(d+2), the terms never grow. -/
theorem taylor_antitone (x : ℝ) (d : Nat) (hx : 0 ≤ x) (h : x * x ≤ (d + 1) * (d + 2)) :
    Antitone fun i : Nat => x ^ (d + 2 * i) / ((d + 2 * i).factorial : ℝ) := by
  refine antitone_nat_of_succ_le fun i => ?_
  have hf : (((d + 2 * (i + 1)).factorial : Nat) : ℝ)
      = ((d + 2 * i + 2 : Nat) : ℝ) * ((d + 2 * i + 1 : Nat) : ℝ) * ((d + 2 * i).factorial : ℝ) := by
    rw [show d + 2 * (i + 1) = d + 2 * i + 1 + 1 by ring, Nat.factorial_succ, Nat.factorial_succ]
    push_cast
    ring
  have hpow : x ^ (d + 2 * (i + 1)) = x ^ (d + 2 * i) * (x * x) := by ring
  rw [hf, hpow, div_le_div_iff₀ (by positivity) (by positivity)]
  have hb : x * x ≤ ((d + 2 * i + 2 : Nat) : ℝ) * ((d + 2 * i + 1 : Nat) : ℝ) := by
    refine le_trans h ?_
    push_cast
    nlinarith [Nat.cast_nonneg (α := ℝ) i, Nat.cast_nonneg (α := ℝ) d]
  calc x ^ (d + 2 * i) * (x * x) * ((d + 2 * i).factorial : ℝ)
      ≤ x ^ (d + 2 * i) * (((d + 2 * i + 2 : Nat) : ℝ) * ((d + 2 * i + 1 : Nat) : ℝ)) * ((d + 2 * i).factorial : ℝ) := by
        gcongr
    _ = _ := by ring

/-- sin is held on [0, π/2]. -/
theorem sinEnclosure_holds (e : Enclosure) (x : ℝ) (he : e.Holds x) (h₀ : 0 ≤ x) (h₁ : x ≤ Real.pi / 2) :
    (sinEnclosure e).Holds (Real.sin x) := by
  have hx2 : x ≤ 2 := by linarith [Real.pi_le_four]
  have ha := taylor_antitone x 1 h₀ (by norm_num; nlinarith)
  have hs : HasSum (fun n : Nat => (-1) ^ n * (x ^ (1 + 2 * n) / ((1 + 2 * n).factorial : ℝ))) (Real.sin x) := by
    have := Real.hasSum_sin x
    simpa only [mul_div_assoc, add_comm] using this
  refine alternatingSum_holds _ (fun i => x ^ (1 + 2 * i) / ((1 + 2 * i).factorial : ℝ)) _ 19 (by simp)
    (fun i hi => taylorTerms_holds 40 1 e _ x h₀ (by simpa using he) (mul_holds e e x x he he h₀ h₀) i hi)
    (Real.sin_nonneg_of_nonneg_of_le_pi h₀ (by linarith [Real.pi_pos])) ?_ ?_
  · exact ha.alternating_series_le_tendsto hs.tendsto_sum_nat 20
  · exact ha.tendsto_le_alternating_series hs.tendsto_sum_nat 19

/-- cos is held on [0, π/2]. -/
theorem cosEnclosure_holds (e : Enclosure) (x : ℝ) (he : e.Holds x) (h₀ : 0 ≤ x) (h₁ : x ≤ Real.pi / 2) :
    (cosEnclosure e).Holds (Real.cos x) := by
  have hx2 : x ≤ 2 := by linarith [Real.pi_le_four]
  have ha := taylor_antitone x 2 h₀ (by norm_num; nlinarith)
  have hs : HasSum (fun n : Nat => (-1) ^ n * (x ^ (2 * n) / ((2 * n).factorial : ℝ))) (Real.cos x) := by
    have := Real.hasSum_cos x
    simpa only [mul_div_assoc] using this
  have hs' : HasSum (fun n : Nat => (-1) ^ n * (x ^ (2 + 2 * n) / ((2 + 2 * n).factorial : ℝ))) (1 - Real.cos x) := by
    have h₂ := (hasSum_nat_add_iff' 1).2 hs
    have h₃ := h₂.neg
    rw [Finset.sum_range_one] at h₃
    convert h₃ using 1
    · rfl
    · funext n
      rw [show 2 * (n + 1) = 2 + 2 * n by ring, pow_succ]
      ring
    · simp
  have key : ∀ m : Nat, ∑ i ∈ Finset.range (m + 1), (-1 : ℝ) ^ i * (x ^ (2 * i) / ((2 * i).factorial : ℝ))
      = 1 - ∑ i ∈ Finset.range m, (-1 : ℝ) ^ i * (x ^ (2 + 2 * i) / ((2 + 2 * i).factorial : ℝ)) := by
    intro m
    induction m with
    | zero => simp
    | succ m ih =>
      rw [Finset.sum_range_succ, ih, Finset.sum_range_succ, show 2 * (m + 1) = 2 + 2 * m by ring, pow_succ]
      ring
  refine alternatingSum_holds _ (fun i => x ^ (2 * i) / ((2 * i).factorial : ℝ)) _ 19 (by simp)
    (fun i hi => ?_) (Real.cos_nonneg_of_mem_Icc ⟨by linarith [Real.pi_pos], h₁⟩) ?_ ?_
  · have := taylorTerms_holds 40 0 ⟨2 ^ enclosureBits, 2 ^ enclosureBits⟩ _ x h₀
      (by simp [Enclosure.Holds]) (mul_holds e e x x he he h₀ h₀) i hi
    simpa only [Nat.zero_add] using this
  · rw [show 2 * (19 + 1) = 39 + 1 by rfl, key]
    linarith [ha.tendsto_le_alternating_series hs'.tendsto_sum_nat 19]
  · rw [key]
    linarith [ha.alternating_series_le_tendsto hs'.tendsto_sum_nat 19]

/-! ## Exact comparison of a tangent with a rational -/

/-- Below π/4 the order of a tangent t with x < 1 is that of the tangent of the double angle with 2x/(1 - x²). -/
theorem compares_double (o : Ordering) (t x : ℝ) (ht₀ : 0 < t) (ht₁ : t < 1) (hx₀ : 0 ≤ x) (hx₁ : x < 1)
    (h : o.Compares (2 * t / (1 - t ^ 2)) (2 * x / (1 - x ^ 2))) : o.Compares t x := by
  have dt : 0 < 1 - t ^ 2 := by nlinarith
  have dx : 0 < 1 - x ^ 2 := by nlinarith
  have key : 2 * t * (1 - x ^ 2) - 2 * x * (1 - t ^ 2) = 2 * ((t - x) * (1 + t * x)) := by ring
  have hp : 0 < 1 + t * x := by nlinarith
  cases o with
  | lt =>
    have h' : 2 * t / (1 - t ^ 2) < 2 * x / (1 - x ^ 2) := h
    rw [div_lt_div_iff₀ dt dx] at h'
    show t < x
    nlinarith
  | eq =>
    have h' : 2 * t / (1 - t ^ 2) = 2 * x / (1 - x ^ 2) := h
    rw [div_eq_div_iff dt.ne' dx.ne'] at h'
    have h₀ : (t - x) * (1 + t * x) = 0 := by linarith
    rcases mul_eq_zero.1 h₀ with h₁ | h₁
    · exact sub_eq_zero.1 h₁
    · exact absurd h₁ hp.ne'
  | gt =>
    have h' : 2 * x / (1 - x ^ 2) < 2 * t / (1 - t ^ 2) := h
    rw [div_lt_div_iff₀ dx dt] at h'
    show x < t
    nlinarith

/-- The order of the reciprocals of two positive reals is the swapped one. -/
theorem compares_inv (o : Ordering) (t x : ℝ) (ht : 0 < t) (hx : 0 < x) (h : o.Compares t x) :
    o.swap.Compares t⁻¹ x⁻¹ := by
  cases o with
  | lt => exact inv_strictAnti₀ ht h
  | eq => exact congrArg _ h
  | gt => exact inv_strictAnti₀ hx h

/-- The tangent of an angle between 0 and π/4 is between 0 and 1. -/
theorem tan_between (f : ℝ) (h₀ : 0 < f) (h₁ : f < 1 / 4) :
    0 < Real.tan (Real.pi * f) ∧ Real.tan (Real.pi * f) < 1 := by
  have hpi := Real.pi_pos
  constructor
  · exact Real.tan_pos_of_pos_of_lt_pi_div_two (by positivity) (by nlinarith)
  · rw [← Real.tan_pi_div_four]
    exact Real.tan_lt_tan_of_nonneg_of_lt_pi_div_two (by positivity) (by linarith) (by nlinarith)

/-- One doubling: below π/4, from the order at the double angle. -/
theorem compares_of_double (o : Ordering) (k a p q : Nat) (ha : 0 < a) (hk : 4 * a < 2 ^ (k + 1)) (hpq : p < q)
    (h : o.Compares (Real.tan (Real.pi * (a / 2 ^ k))) (((2 * p * q : Nat) : ℝ) / ((q * q - p * p : Nat) : ℝ))) :
    o.Compares (Real.tan (Real.pi * (a / 2 ^ (k + 1)))) ((p : ℝ) / q) := by
  have hq : (0 : ℝ) < q := by exact_mod_cast (by omega : 0 < q)
  have hlt : (p : ℝ) < q := by exact_mod_cast hpq
  have hf : (a : ℝ) / 2 ^ (k + 1) < 1 / 4 := by
    rw [div_lt_div_iff₀ (by positivity) (by norm_num)]
    have : ((4 * a : Nat) : ℝ) < ((2 ^ (k + 1) : Nat) : ℝ) := by exact_mod_cast hk
    push_cast at this
    linarith
  obtain ⟨t₀, t₁⟩ := tan_between _ (by positivity) hf
  refine compares_double o _ _ t₀ t₁ (by positivity) ((div_lt_one hq).2 hlt) ?_
  rw [← Real.tan_two_mul]
  have e₁ : 2 * (Real.pi * ((a : ℝ) / 2 ^ (k + 1))) = Real.pi * (a / 2 ^ k) := by
    rw [pow_succ]; field_simp
  have hd : (q : ℝ) * q - p * p ≠ 0 := by nlinarith [Nat.cast_nonneg (α := ℝ) p]
  have e₂ : 2 * ((p : ℝ) / q) / (1 - (p / q) ^ 2) = ((2 * p * q : Nat) : ℝ) / ((q * q - p * p : Nat) : ℝ) := by
    rw [Nat.cast_sub (Nat.mul_le_mul hpq.le hpq.le)]
    push_cast
    have hd' : (1 : ℝ) - (p / q) ^ 2 = (q * q - p * p) / (q * q) := by field_simp
    rw [hd']
    field_simp
  rw [e₁, e₂]
  exact h

/-- compareTan answers the order of tan(π·a/2^k) and p/q. -/
theorem compareTan_compares (k a p q : Nat) (ha : 0 < a) (hk : 2 * a < 2 ^ k) (hq : 0 < q) :
    (compareTan k a p q).Compares (Real.tan (Real.pi * (a / 2 ^ k))) ((p : ℝ) / q) := by
  induction k generalizing a p q with
  | zero => omega
  | succ k ih =>
    have hq' : (0 : ℝ) < q := by exact_mod_cast hq
    have h2 : 2 ^ (k + 1) = 2 * 2 ^ k := by ring
    unfold compareTan
    split
    · next h =>
      have e : (a : ℝ) / 2 ^ (k + 1) = 1 / 4 := by
        rw [div_eq_div_iff (by positivity) (by norm_num)]
        have : ((4 * a : Nat) : ℝ) = ((2 ^ (k + 1) : Nat) : ℝ) := by exact_mod_cast h
        push_cast at this
        linarith
      rw [e, mul_one_div, Real.tan_pi_div_four]
      rcases Nat.lt_trichotomy q p with h | rfl | h
      · rw [compare_lt_iff_lt.2 h]
        exact (one_lt_div hq').2 (by exact_mod_cast h)
      · rw [compare_eq_iff_eq.2 rfl]
        exact (div_self hq'.ne').symm
      · rw [compare_gt_iff_gt.2 h]
        exact (div_lt_one hq').2 (by exact_mod_cast h)
    · next hne =>
      split
      · next h =>
        split
        · next hle =>
          have hf : (a : ℝ) / 2 ^ (k + 1) < 1 / 4 := by
            rw [div_lt_div_iff₀ (by positivity) (by norm_num)]
            have : ((4 * a : Nat) : ℝ) < ((2 ^ (k + 1) : Nat) : ℝ) := by exact_mod_cast h
            push_cast at this
            linarith
          have ht := (tan_between _ (by positivity) hf).2
          exact lt_of_lt_of_le ht ((one_le_div hq').2 (by exact_mod_cast hle))
        · next hlt =>
          exact compares_of_double _ k a p q ha h (by omega)
            (ih a _ _ ha (by omega) (Nat.sub_pos_of_lt (Nat.mul_self_lt_mul_self (by omega))))
      · next h =>
        have hr : Real.tan (Real.pi * ((a : ℝ) / 2 ^ (k + 1)))
            = (Real.tan (Real.pi * (((2 ^ k - a : Nat) : ℝ) / 2 ^ (k + 1))))⁻¹ := by
          rw [← Real.tan_pi_div_two_sub, Nat.cast_sub (by omega)]
          congr 1
          push_cast
          rw [pow_succ]
          field_simp
          ring
        have hf : ((2 ^ k - a : Nat) : ℝ) / 2 ^ (k + 1) < 1 / 4 := by
          rw [div_lt_div_iff₀ (by positivity) (by norm_num)]
          have : ((4 * (2 ^ k - a) : Nat) : ℝ) < ((2 ^ (k + 1) : Nat) : ℝ) := by exact_mod_cast (by omega)
          push_cast at this ⊢
          linarith
        have ha' : 0 < 2 ^ k - a := by omega
        have hac : (0 : ℝ) < ((2 ^ k - a : Nat) : ℝ) := by exact_mod_cast ha'
        obtain ⟨t₀, t₁⟩ := tan_between _ (by positivity) hf
        rw [hr]
        split
        · next hle =>
          exact lt_of_le_of_lt ((div_le_one hq').2 (by exact_mod_cast hle)) ((one_lt_inv₀ t₀).2 t₁)
        · next hlt =>
          have hp' : (0 : ℝ) < p := by exact_mod_cast (by omega : 0 < p)
          have := compares_of_double _ k (2 ^ k - a) q p ha' (by omega) (by omega)
            (by
              rw [show 2 * q * p = 2 * p * q by ring]
              exact ih _ (2 * p * q) (p * p - q * q) ha' (by omega)
                (Nat.sub_pos_of_lt (Nat.mul_self_lt_mul_self (by omega))))
          have := compares_inv _ _ _ t₀ (by positivity) this
          rwa [inv_div] at this

/-- The midpoint of the words m - 1 and m. -/
noncomputable def midpointBelow (m : Nat) : ℝ :=
  ((magnitude (BitVec.ofNat 32 (m - 1)) : ℝ) + magnitude (BitVec.ofNat 32 m)) / 2 ^ 150

/-- tanReaches tells whether tan(π·fc) is above the midpoint of the words m - 1 and m, or on it with m even. -/
theorem tanReaches_iff (fc : Word) (m : Nat) (h₀ : 0 < magnitude fc) (h₁ : 2 * magnitude fc < 2 ^ 149) :
    tanReaches fc m = true
      ↔ midpointBelow m < Real.tan (Real.pi * (magnitude fc / 2 ^ 149))
        ∨ (midpointBelow m = Real.tan (Real.pi * (magnitude fc / 2 ^ 149)) ∧ m % 2 = 0) := by
  have h := compareTan_compares 149 (magnitude fc)
    (magnitude (BitVec.ofNat 32 (m - 1)) + magnitude (BitVec.ofNat 32 m)) (2 ^ 150) h₀ h₁ (Nat.two_pow_pos _)
  have e : (((magnitude (BitVec.ofNat 32 (m - 1)) + magnitude (BitVec.ofNat 32 m) : Nat) : ℝ)) / ((2 ^ 150 : Nat) : ℝ)
      = midpointBelow m := by
    unfold midpointBelow
    norm_num
  rw [e] at h
  unfold tanReaches
  generalize compareTan 149 (magnitude fc)
    (magnitude (BitVec.ofNat 32 (m - 1)) + magnitude (BitVec.ofNat 32 m)) (2 ^ 150) = o at h ⊢
  cases o with
  | lt =>
    have h' : Real.tan (Real.pi * (magnitude fc / 2 ^ 149)) < midpointBelow m := h
    simp [h'.not_gt, h'.ne']
  | eq =>
    have h' : Real.tan (Real.pi * (magnitude fc / 2 ^ 149)) = midpointBelow m := h
    simp [h']
  | gt =>
    have h' : midpointBelow m < Real.tan (Real.pi * (magnitude fc / 2 ^ 149)) := h
    simp [h']

/-- The search finds an argument that is reached, or its start, below a bound that is not. -/
theorem tanNearestFrom_spec (fc : Word) (k acc : Nat)
    (h₀ : acc = 0 ∨ tanReaches fc acc = true) (h₁ : tanReaches fc (acc + 2 ^ k) = false) :
    (tanNearestFrom fc k acc = 0 ∨ tanReaches fc (tanNearestFrom fc k acc) = true)
    ∧ tanReaches fc (tanNearestFrom fc k acc + 1) = false := by
  induction k generalizing acc with
  | zero => exact ⟨h₀, h₁⟩
  | succ k ih =>
    unfold tanNearestFrom
    split
    · next hr => exact ih _ (.inr hr) (by rw [Nat.add_assoc, ← Nat.two_mul, ← Nat.pow_succ']; exact h₁)
    · next hr => exact ih _ h₀ (by simpa using hr)

end Sys2Proof.Machine
end

