-- ==== Sys2Proof/Tests/Slice0.lean ====
section
/-! SUPPORT. Tests of the model against the spec's own vectors (spec/95_test_vectors.md, 30_encoding.md R60), and for every
statement with hypotheses a concrete case that meets them all. -/

namespace Sys2Proof.Tests

-- One after another: each test that waits on the kernel would else hold a thread of its own.
set_option Elab.async false

open Sys2Proof Sys2Proof.Machine

/-! ## Small states -/

/-- Reset with C = 4. -/
def base : State := { State.reset with ringCapLog2 := 2 }

/-- The state `exec` answers. -/
def after (i : Instr) (s : State) : State :=
  match exec i s with
  | .next t => t
  | .fault _ => s
  | .refused _ => s

/-- Reset with another sample rate in the register. -/
def atRate (rate : Word) : State := { base with shared := { base.shared with sampleRate := rate } }

/-- Configured at 48 kHz by the command. -/
def configured : State := after (.setSampleRate 0x473B8000#32) base

/-- C = 4, the raw ring after the pushes 1, 2, 3, 4, 5 (V-RB-2), the rate 48000. -/
def ringFive : State :=
  { base with
    shared :=
      { base.shared with
        rings :=
          { base.shared.rings with
            raw := ⟨[(0, 0x40A00000#32), (1, 0x40000000#32), (2, 0x40400000#32), (3, 0x40800000#32)], 1⟩ }
        sampleRate := 0x473B8000#32 } }

/-- Words waiting on port P. -/
def sentP (ws : List Word) : State := { base with p := { base.p with input := ws } }

/-- Words waiting on port Q. -/
def sentQ (ws : List Word) : State := { base with q := { base.q with input := ws } }

/-- A query in progress that one producer step has overlapped. -/
def overlapped (i : Instr) : State := { base with q := { base.q with phase := .query i [Shared.reset] } }

/-- The same with words waiting on port P: a block that is fed during the query. -/
def overlappedWith (ws : List Word) : State := { overlapped .getSampleRate with p := (sentP ws).p }

/-- `ringFive` with a query in progress that a producer step has overlapped: the rate and the words of the interval differ. -/
def torn (i : Instr) : State := { ringFive with q := { base.q with phase := .query i [Shared.reset] } }

/-- The magnitudes mag[j] = j + 1 of V-SP-5. -/
def ramp : List Word := (List.range 64).map fun j => u2f (j + 1)

/-! ## Well-formedness: each check refuses an ill-formed term -/

theorem test_wf_wrong_port : (Instr.feed 0#32).wellFormed .q = false := by decide
theorem test_wf_band_out_of_range : (Instr.peakN 4#4 1#32).wellFormed .q = false := by decide
theorem test_wf_mode_out_of_range : (Instr.getBandAverages 2#4 1#32).wellFormed .q = false := by decide
theorem test_wf_accepts : (Instr.peakN 3#4 1#32).wellFormed .q = true := by decide

/-! ## Decoding: the words of R60, their fields written out (R52, R53) -/

theorem test_decode_feed :
    decode .p [0x0000#16 ++ 0x0#4 ++ 0x0#4 ++ 0x01#8, 0x3F800000#32] = .command (.feed 0x3F800000#32) [] := by decide
theorem test_decode_feedBlock :
    decode .p [0x0002#16 ++ 0x0#4 ++ 0x0#4 ++ 0x02#8, 0x3F800000#32, 0x40000000#32]
      = .command (.feedBlock 2#16) [0x3F800000#32, 0x40000000#32] := by decide
theorem test_decode_setSampleRate :
    decode .p [0x0000#16 ++ 0x0#4 ++ 0x0#4 ++ 0x03#8, 0x473B8000#32] = .command (.setSampleRate 0x473B8000#32) [] := by
  decide
theorem test_decode_getSampleRate :
    decode .q [0x0000#16 ++ 0x0#4 ++ 0x0#4 ++ 0x10#8] = .command .getSampleRate [] := by decide
theorem test_decode_getPeak :
    decode .q [0x0000#16 ++ 0x0#4 ++ 0x0#4 ++ 0x11#8, 0x3A83126F#32] = .command (.getPeak 0#4 0x3A83126F#32) [] := by
  decide
theorem test_decode_getRms :
    decode .q [0x0000#16 ++ 0x0#4 ++ 0x3#4 ++ 0x12#8, 0x3F800000#32] = .command (.getRms 3#4 0x3F800000#32) [] := by
  decide
theorem test_decode_peakN :
    decode .q [0x0000#16 ++ 0x0#4 ++ 0x3#4 ++ 0x13#8, 0x00000004#32] = .command (.peakN 3#4 4#32) [] := by decide
theorem test_decode_rmsN :
    decode .q [0x0000#16 ++ 0x0#4 ++ 0x1#4 ++ 0x14#8, 0x00000000#32] = .command (.rmsN 1#4 0#32) [] := by decide
theorem test_decode_copyWaveform :
    decode .q [0x0000#16 ++ 0x0#4 ++ 0x2#4 ++ 0x15#8, 0x00000004#32] = .command (.copyWaveform 2#4 4#32) [] := by decide
theorem test_decode_getBandAverages :
    decode .q [0x0000#16 ++ 0x1#4 ++ 0x0#4 ++ 0x16#8, 0x00000008#32] = .command (.getBandAverages 1#4 8#32) [] := by
  decide

/-- R60, last row: OPC 0x00 is unassigned, one word is consumed. -/
theorem test_decode_unassigned :
    decode .p [0x00000100#32, 0x3F800000#32] = .reject .unassignedOpcode 0 [0x3F800000#32] := by decide
/-- V-ENC-3: an opcode of the other port. -/
theorem test_decode_other_port : decode .q [0x00000001#32] = .reject .unassignedOpcode 0 [] := by decide
/-- V-ENC-6: FEED_BLOCK with MODE ≠ 0, both samples to be consumed. -/
theorem test_decode_reserved :
    decode .p [0x00021002#32, 0x3F800000#32, 0x40000000#32]
      = .reject .reservedField 2 [0x3F800000#32, 0x40000000#32] := by decide
/-- V-ENC-12: GET_BAND_AVERAGES with BAND ≠ 0. -/
theorem test_decode_reserved_band : decode .q [0x00000316#32, 4#32] = .reject .reservedField 1 [4#32] := by decide

theorem test_table_word : decodeTableWord 64 0x0000000400000313 = some (.peakN 3#4 4#32) := by decide
theorem test_table_word_short : decodeTableWord 32 0x00000313 = some (.peakN 3#4 0#32) := by decide

/-! ## One step of each command -/

/-- Program 2 of 95_test_vectors.md, line 3: the three outputs of the first impulse sample (V-FB-1). -/
theorem test_feed_impulse :
    let t := after (.feed 0x3F800000#32) configured
    (memRead t.shared.rings.low.mem 0, memRead t.shared.rings.mid.mem 0, memRead t.shared.rings.high.mem 0)
      = (0x3701BDEC#32, 0x3DB1D45C#32, 0x3EFCB5C9#32) := by decide +kernel

/-- V-FS-5, n = 0: -1.0 through zero coefficients. -/
theorem test_feed_signed_zero :
    let t := after (.feed 0xBF800000#32) base
    (t.shared.bank.low1.z1, t.shared.bank.low1.z2, t.shared.rings.raw) = (0#32, 0x80000000#32, ⟨[(0, 0xBF800000#32)], 1⟩) := by
  decide +kernel

/-- V-ENC-7: an empty block is answered at once. -/
theorem test_feedBlock_empty : (after (.feedBlock 0#16) base).p = ⟨[], [0#32, 0#32], [], .command⟩ := by decide +kernel
theorem test_feedBlock_open : (after (.feedBlock 4#16) base).p = ⟨[], [], [], .block 4⟩ := by decide +kernel

/-- V-FS-1: the coefficients at 48 kHz. -/
theorem test_setSampleRate_coefficients :
    (configured.shared.bank.low2.coeffs, configured.shared.bank.band1.coeffs, configured.shared.bank.high2.coeffs)
      = (⟨0x3B363F33#32, 0x3BB63F33#32, 0x3B363F33#32, 0xBFB323F8#32, 0x3ED241DC#32⟩,
         ⟨0x3E96DF14#32, 0x00000000#32, 0xBE96DF14#32, 0xBFB323F8#32, 0x3ED241DC#32⟩,
         ⟨0x3F33DA38#32, 0xBFB3DA38#32, 0x3F33DA38#32, 0xBFB323F8#32, 0x3ED241DC#32⟩) := by decide +kernel

/-- V-CMD-2: -0.0 from reset is a no-op. -/
theorem test_setSampleRate_no_op :
    ((after (.setSampleRate 0x80000000#32) base).shared, (after (.setSampleRate 0x80000000#32) base).p.output)
      = (base.shared, [0#32, 0#32]) := by decide +kernel

/-- V-CMD-2: the register is answered bit-exact. -/
theorem test_getSampleRate_bit_exact :
    (after .getSampleRate (atRate 0x7FC00001#32)).q.output = [0#32, 1#32, 0x7FC00001#32] := by decide +kernel

/-- V-ENC-11: the product -0.0 counts no sample, and one is examined. -/
theorem test_getPeak_unconfigured :
    (after (.getPeak 0#4 0xBF800000#32) base).q.output = [0#32, 1#32, 0#32] := by decide +kernel
/-- V-ENC-10: a negative duration. -/
theorem test_getPeak_negative :
    (after (.getPeak 0#4 0xBF800000#32) ringFive).q.output = [5#32, 0#32] := by decide +kernel

/-- Program 4, line 2: nothing is counted before the rate is set. -/
theorem test_getRms_unconfigured : (after (.getRms 0#4 0x3F800000#32) base).q.output = [4#32, 0#32] := by decide +kernel
/-- V-RB-5 rms(4), reached by a duration of 48000 samples. -/
theorem test_getRms_clamped :
    (after (.getRms 0#4 0x3F800000#32) ringFive).q.output = [0#32, 1#32, 0x406B26A9#32] := by decide +kernel

/-- Program 1, line 5. -/
theorem test_peakN_zero_range : (after (.peakN 0#4 0#32) ringFive).q.output = [0#32, 1#32, 0x40A00000#32] := by
  decide +kernel
/-- V-ENC-9: BAND 7. -/
theorem test_peakN_band : (after (.peakN 7#4 1#32) ringFive).q.output = [3#32, 0#32] := by decide +kernel

/-- V-RB-5: rms(2). -/
theorem test_rmsN_two : (after (.rmsN 0#4 2#32) ringFive).q.output = [0#32, 1#32, 0x4090E2DC#32] := by decide +kernel
/-- Program 1, line 7. -/
theorem test_rmsN_zero : (after (.rmsN 0#4 0#32) ringFive).q.output = [4#32, 0#32] := by decide +kernel

/-- V-RB-3: copyRecent(2). -/
theorem test_copyWaveform_two :
    (after (.copyWaveform 0#4 2#32) ringFive).q.output = [0#32, 2#32, 0x40800000#32, 0x40A00000#32] := by decide +kernel
/-- V-RB-3: copyRecent(9) is clamped to C. -/
theorem test_copyWaveform_clamped :
    (after (.copyWaveform 0#4 9#32) ringFive).q.output
      = [0#32, 4#32, 0x40000000#32, 0x40400000#32, 0x40800000#32, 0x40A00000#32] := by decide +kernel

/-- V-ENC-13: MODE 2. -/
theorem test_getBandAverages_mode : (after (.getBandAverages 2#4 4#32) base).q.output = [5#32, 0#32] := by decide +kernel
/-- V-SP-6, L = 7: fewer values than octaves. -/
theorem test_getBandAverages_short :
    (after (.getBandAverages 1#4 7#32) ringFive).q.output = [5#32, 0#32] := by decide +kernel

/-! ## The spectral reducers, the counts and the transcendental functions -/

/-- V-SP-5, L = 5: bins 60 to 63 are not used. -/
theorem test_reduceLinear_five :
    reduceLinear ramp 5 = .ok [0x40D00000#32, 0x41940000#32, 0x41F40000#32, 0x422A0000#32, 0x425A0000#32] := by
  decide +kernel
/-- V-SP-6. -/
theorem test_reduceLog_eight :
    reduceLog ramp 0x473B8000#32 8
      = .ok [0x3F800000#32, 0x3F800000#32, 0x3F800000#32, 0x40000000#32, 0x40600000#32, 0x40D00000#32, 0x41480000#32,
          0x41C40000#32, 0x42400000#32] := by decide +kernel
/-- V-SP-6: the octave counts. -/
theorem test_octaves :
    ([0x473B8000#32, 0x472C4400#32, 0x47BB8000#32, 0x45F00000#32, 0x42F00000#32, 0x42EE0000#32] : List Word).map octaves
      = [9, 9, 10, 7, 1, 0] := by decide +kernel
/-- V-SP-4. -/
theorem test_binIndex :
    (binIndex 0x473B8000#32 0x43BB8000#32, binIndex 0x473B8000#32 0x46BB8000#32, toIndex qNaN, toIndex 0x7F800000#32)
      = (1, 63, 0, 63) := by decide +kernel
/-- V-CMD-1 at 48000: 0.001, 1e-6, -1.0, 1e30, +∞, NaN. -/
theorem test_sampleCount :
    ([0x3A83126F#32, 0x358637BD#32, 0xBF800000#32, 0x7149F2CA#32, 0x7F800000#32, 0x7FC00000#32] : List Word).map
        (fun d => (sampleCount d 0x473B8000#32).toOption)
      = [some 48, some 0, none, some 4294967295, some 4294967295, none] := by decide +kernel
/-- V-FS-1: K. -/
theorem test_tan32 : tan32 0x3CA3D70A#32 = 0x3D80D968#32 := by decide +kernel
/-- V-SP-2. -/
theorem test_hann32 :
    ([0, 1, 2, 16, 32, 48, 63, 64, 65, 127] : List Nat).map (fun i => hann32 i 128)
      = [0x00000000#32, 0x3A1DE1C8#32, 0x3B1DC971#32, 0x3E15F61A#32, 0x3F000000#32, 0x3F5A827A#32, 0x3F7FD888#32,
          0x3F800000#32, 0x3F7FD888#32, 0x3A1DE1C8#32] := by decide +kernel
/-- V-RB-8: a NaN never wins a peak, and poisons a root mean square. -/
theorem test_nan_window :
    (peakOf [0x40000000#32, 0x7FC00000#32], rmsOf 2 [0x40000000#32, 0x7FC00000#32]) = (0x40000000#32, qNaN) := by
  decide +kernel
/-- V-RB-10: an infinity gives an infinity. -/
theorem test_rms_infinity :
    (peakOf [0x7F800000#32], rmsOf 4 [0x7F800000#32, 0#32, 0#32, 0#32]) = (0x7F800000#32, 0x7F800000#32) := by
  decide +kernel
/-- V-FS-6, third row: the registers after a fed +infinity and then 1.0, and the second output. -/
theorem test_infinity_in_section :
    let s : Section := ⟨⟨0x3B363F33#32, 0x3BB63F33#32, 0x3B363F33#32, 0xBFB323F8#32, 0x3ED241DC#32⟩, 0#32, 0#32⟩
    let t := feedSection s 0x7F800000#32
    let u := feedSection t 0x3F800000#32
    (t.z1, t.z2, feedOutput t 0x3F800000#32, u.z1, u.z2)
      = (0x7F800000#32, 0x7FC00000#32, 0x7F800000#32, 0x7FC00000#32, 0xFF800000#32) := by decide +kernel
/-- V-RB-12: a subnormal is kept, its square underflows. -/
theorem test_subnormal : (peakOf [1#32], rmsOf 1 [1#32]) = (1#32, 0#32) := by decide +kernel

/-! ## The step -/

/-- V-ENC-14: GET_SAMPLE_RATE as the first command after reset. -/
theorem test_step_getSampleRate :
    ∃ t, step (base.withFetchWord 32 0x10) = .next t ∧ t.q.output = [0#32, 1#32, 0#32] := ⟨_, rfl, by decide +kernel⟩
/-- V-ENC-16: an unassigned opcode consumes its own word only. -/
theorem test_step_unassigned :
    ∃ t, consumerTurn (sentQ [0x00000117#32, 0#32]) = .next t ∧ t.q = ⟨[0#32], [1#32, 0#32], [], .command⟩ :=
  ⟨_, rfl, by decide +kernel⟩
/-- 20_memory.md R36: bytes arrive least significant first. -/
theorem test_bytes :
    ((base.hostEvent (.byte .q 0x10#8)).hostEvent (.byte .q 0x00#8)).q.bytes = [0x10#8, 0x00#8] := by decide +kernel
theorem test_word_of_bytes : wordOfBytes 0x00#8 0x80#8 0x3B#8 0x47#8 = 0x473B8000#32 := by decide

/-! ## A concrete case that meets all hypotheses, for every statement that has some -/

theorem witness_DecodedWordsAreTheEncoding :
    decode .q [0x00000F13#32, 0xFFFFFFFF#32, 9#32] = .command (.peakN 15#4 0xFFFFFFFF#32) [9#32] := by decide

theorem witness_UnassignedOpcodesAreRejected :
    (∀ op, opcodeCode op = opcField 0x00000000#32 → opcodePort op ≠ .p)
    ∧ (∀ op, opcodeCode op = opcField 0x00000010#32 → opcodePort op ≠ .p)
    ∧ (∀ op, opcodeCode op = opcField 0x00000017#32 → opcodePort op ≠ .q) := by
  refine ⟨?_, ?_, ?_⟩ <;> intro op <;> cases op <;> decide

theorem witness_ReservedBitsAreRejected :
    (opcodeCode .feed = opcField 0x00000101#32 ∧ 0x00000101#32 &&& unusedMask .feed ≠ 0#32)
    ∧ (opcodeCode .peakN = opcField 0x80000013#32 ∧ 0x80000013#32 &&& unusedMask .peakN ≠ 0#32)
    ∧ (opcodeCode .getBandAverages = opcField 0x00010016#32 ∧ 0x00010016#32 &&& unusedMask .getBandAverages ≠ 0#32) := by
  decide

/-- The boundary counts of one block, and of the last block. -/
theorem witness_FeedZerosExpansion : 0 ≤ 65535 ∧ 65535 ≤ 65535 ∧ (1 ≤ 1 ∧ 1 ≤ 65535) ∧ (1 ≤ 65535 ∧ 65535 ≤ 65535) := by
  decide

theorem witness_ProducerStepRunsTheCommand :
    let s := { sentP [1#32, 0x3F800000#32, 2#32] with schedule := [.producer] }
    (nextTurn s).1 = .producer ∧ s.p.phase = .command ∧ decode .p s.p.input = .command (.feed 0x3F800000#32) [2#32] := by
  decide +kernel

theorem witness_ConsumerStepRunsTheQuery :
    (let s := { sentQ [0x10#32] with schedule := [.consumer] }
     (nextTurn s).1 = .consumer ∧ s.q.phase = .command ∧ decode .q s.q.input = .command .getSampleRate [])
    ∧ (let s := { overlapped .getSampleRate with schedule := [.consumer] }
       (nextTurn s).1 = .consumer ∧ s.q.phase = .query .getSampleRate [Shared.reset]) := by decide +kernel

/-- Every phase in which a port waits; the discard phases are reached by a reserved bit in a command with one argument. -/
theorem witness_IncompleteCommandWaits :
    (base.p.phase = .command ∧ decode .p base.p.input = .wait)
    ∧ ((sentP [1#32]).p.phase = .command ∧ decode .p (sentP [1#32]).p.input = .wait)
    ∧ ((sentQ [0x11#32]).q.phase = .command ∧ decode .q (sentQ [0x11#32]).q.input = .wait)
    ∧ ((after (.feedBlock 4#16) base).p.phase = .block 4 ∧ (after (.feedBlock 4#16) base).p.input = [])
    ∧ (∃ t, takeTurn .producer (sentP [0x00000101#32]) = .next t ∧ t.p.phase = .discard 1 ∧ t.p.input = [])
    ∧ (∃ t, takeTurn .consumer (sentQ [0x00010011#32]) = .next t ∧ t.q.phase = .discard 1 ∧ t.q.input = []) :=
  ⟨by decide +kernel, by decide +kernel, by decide +kernel, by decide +kernel, ⟨_, rfl, by decide +kernel⟩,
    ⟨_, rfl, by decide +kernel⟩⟩

theorem witness_UnassignedOpcodeAnswersErrOpcode :
    ((sentP [0x10#32]).p.phase = .command ∧ (sentP [0x10#32]).p.input = [0x10#32]
      ∧ ∀ op, opcodeCode op = opcField 0x10#32 → opcodePort op ≠ .p)
    ∧ ((sentQ [0x01#32]).q.phase = .command ∧ (sentQ [0x01#32]).q.input = [0x01#32]
      ∧ ∀ op, opcodeCode op = opcField 0x01#32 → opcodePort op ≠ .q) := by
  refine ⟨⟨by decide, by decide, ?_⟩, by decide, by decide, ?_⟩ <;> intro op <;> cases op <;> decide

/-- V-ENC-6 and V-ENC-8, and the shortest cases: FEED_BLOCK of no sample and GET_SAMPLE_RATE, which has no argument. -/
theorem witness_ReservedCommandConsumesItsArguments :
    (opcodeCode .feedBlock = opcField 0x00021002#32 ∧ 0x00021002#32 &&& unusedMask .feedBlock ≠ 0#32
      ∧ [1#32, 2#32].length = argCount .feedBlock 0x00021002#32 ∧ opcodePort .feedBlock = .p
      ∧ (sentP [0x00021002#32, 1#32, 2#32]).p.phase = .command)
    ∧ (0x00001002#32 &&& unusedMask .feedBlock ≠ 0#32 ∧ argCount .feedBlock 0x00001002#32 = 0)
    ∧ (opcodeCode .getPeak = opcField 0x00010711#32 ∧ 0x00010711#32 &&& unusedMask .getPeak ≠ 0#32
      ∧ [0xBF800000#32].length = argCount .getPeak 0x00010711#32 ∧ opcodePort .getPeak = .q
      ∧ (sentQ [0x00010711#32, 0xBF800000#32]).q.phase = .command)
    ∧ (0x00000110#32 &&& unusedMask .getSampleRate ≠ 0#32 ∧ argCount .getSampleRate 0x00000110#32 = 0) := by decide

theorem witness_QueryAppendsOneCountedResponse :
    (Instr.peakN 0#4 1#32).port = .q ∧ ∃ t, exec (.peakN 0#4 1#32) ringFive = .next t := ⟨rfl, _, rfl⟩

theorem witness_FourBytesDeliverOneWord :
    base.p.bytes = [] ∧ base.q.bytes = [] ∧ base.p.output = [] ∧ base.q.output = []
    ∧ (after (.feed 1#32) base).p.output = 0#32 :: [0#32]
    ∧ (after .getSampleRate base).q.output = 0#32 :: [1#32, 0#32] :=
  ⟨rfl, rfl, rfl, rfl, by decide +kernel, by decide +kernel⟩

theorem witness_FeedWritesOneWordOfEachHistory :
    (after (.feed 0x3F800000#32) base).wf = true
    ∧ ∃ t, exec (.feed 0x3F800000#32) (after (.feed 0x3F800000#32) base) = .next t := ⟨by decide +kernel, _, rfl⟩

theorem witness_FeedUpdatesEverySection :
    (∃ t, exec (.feed 0x3F800000#32) configured = .next t)
    ∧ (SectionId.high1, SectionId.high2) ∈ [(SectionId.low1, SectionId.low2), (.band1, .band2), (.high1, .high2)] :=
  ⟨⟨_, rfl⟩, by decide⟩

/-- The two boundary blocks: none, and the longest. -/
theorem witness_FeedBlockIsAccepted : 0#16 = 0#16 ∧ 1#16 ≠ 0#16 ∧ 65535#16 ≠ 0#16 := by decide

/-- With and without a query in progress; the empty block. -/
theorem witness_FeedBlockEqualsItsFeeds :
    ([1#32, 2#32] : List Word).length ≤ 65535
    ∧ (sentP (encodeBlock [1#32, 2#32] ++ [7#32])).p.phase = .command
    ∧ (sentP (encodeBlock [])).p.phase = .command ∧ (sentP (encodeBlock [])).p.input = encodeBlock [] ++ []
    ∧ (overlappedWith (encodeBlock [1#32, 2#32] ++ [7#32])).q.phase = .query .getSampleRate [Shared.reset]
    ∧ (overlappedWith (encodeBlock [1#32, 2#32] ++ [7#32])).p.phase = .command
    ∧ (overlappedWith (encodeBlock [1#32, 2#32] ++ [7#32])).p.input = encodeBlock [1#32, 2#32] ++ [7#32] :=
  ⟨by decide, rfl, rfl, by decide, rfl, rfl, rfl⟩

theorem witness_FeedBlockStepsSampleBySample :
    (([] : List Word) ++ [2#32]).length ≤ 65535 ∧ ([1#32] ++ [2#32] : List Word).length ≤ 65535 ∧ ([2#32] : List Word) ≠ []
    ∧ (sentP (encodeBlock ([1#32] ++ [2#32]) ++ [7#32])).p.phase = .command
    ∧ (overlappedWith (encodeBlock ([1#32] ++ [2#32]) ++ [7#32])).q.phase = .query .getSampleRate [Shared.reset]
    ∧ (overlappedWith (encodeBlock ([1#32] ++ [2#32]) ++ [7#32])).p.phase = .command
    ∧ (overlappedWith (encodeBlock ([1#32] ++ [2#32]) ++ [7#32])).p.input = encodeBlock ([1#32] ++ [2#32]) ++ [7#32] :=
  ⟨by decide, by decide, by decide, rfl, rfl, rfl, rfl⟩

/-- The two zeros, the same rate twice; a NaN is not equal to itself. -/
theorem witness_UnchangedRateIsANoOp :
    eq32 0x80000000#32 base.shared.sampleRate = true ∧ eq32 0x473B8000#32 configured.shared.sampleRate = true
    ∧ eq32 qNaN qNaN = false := by
  decide +kernel

/-- V-FS-4: the smallest rate with a valid cutoff. -/
theorem witness_ChangedRateReconfiguresTheBank :
    eq32 0x44F00001#32 base.shared.sampleRate = false ∧ lt32 0#32 (div32 0x44700000#32 0x44F00001#32) = true
    ∧ lt32 (div32 0x44700000#32 0x44F00001#32) 0x3F000000#32 = true := by decide +kernel

/-- V-FS-4: the largest rate without one; a NaN. -/
theorem witness_InvalidRateIsStoredAndAnsweredOk :
    eq32 0x44F00000#32 base.shared.sampleRate = false ∧ validFc (cutoffOf 0x44F00000#32) Config.qFactor = false
    ∧ eq32 qNaN base.shared.sampleRate = false ∧ validFc (cutoffOf qNaN) Config.qFactor = false := by decide +kernel

/-- V-FS-4 on both sides of the boundary. -/
theorem witness_CutoffValidExactlyAbove1920Hz :
    (isFinite 0x44F00001#32 = true ∧ 1920 * 2 ^ 149 < units 0x44F00001#32)
    ∧ isFinite 0x44F00000#32 = true ∧ ¬ 1920 * 2 ^ 149 < units 0x44F00000#32 := by decide +kernel

theorem witness_StepKeepsCoefficientsOfTheRate :
    validFc (cutoffOf configured.shared.sampleRate) Config.qFactor = true ∧ configured.shared.coeffsFollowRate
    ∧ ∃ t, step { configured with schedule := [.producer] } = .next t :=
  ⟨by decide +kernel, fun _ => by decide +kernel, _, rfl⟩

theorem witness_PushesSlideTheHistory : 0 < 4 ∧ Ring.wf 4 ringFive.shared.rings.raw = true ∧ Ring.wf 1 Ring.reset = true := by
  decide +kernel

theorem witness_CopyWaveformResult :
    ringFive.queryIdle ∧ bandOfField 0#4 = some .raw ∧ bandOfField 3#4 = some .high ∧ 4 ≤ (4#4).toNat :=
  ⟨rfl, rfl, rfl, by decide⟩

theorem witness_PeakNResult : ringFive.queryIdle ∧ bandOfField 3#4 = some .high ∧ 4 ≤ (4#4).toNat :=
  ⟨rfl, rfl, by decide⟩

theorem witness_RmsNResult :
    ringFive.queryIdle ∧ bandOfField 3#4 = some .high ∧ 1#32 ≠ 0#32 ∧ 4 ≤ (4#4).toNat :=
  ⟨rfl, rfl, by decide, by decide⟩

/-- V-CMD-1: counts at and above the boundary, and none. -/
theorem witness_GetPeakResult :
    ringFive.queryIdle ∧ bandOfField 0#4 = some .raw ∧ sampleCount 0x80000000#32 ringFive.shared.sampleRate = .ok 0
    ∧ sampleCount 0x3A83126F#32 ringFive.shared.sampleRate = .ok 48
    ∧ sampleCount 0xBF800000#32 ringFive.shared.sampleRate = .error .errArg ∧ 4 ≤ (4#4).toNat :=
  ⟨rfl, rfl, by decide +kernel, by decide +kernel, by decide +kernel, by decide⟩

theorem witness_GetRmsResult :
    ringFive.queryIdle ∧ bandOfField 0#4 = some .raw ∧ sampleCount 0x38D1B717#32 ringFive.shared.sampleRate = .ok 4
    ∧ sampleCount 0x358637BD#32 ringFive.shared.sampleRate = .ok 0
    ∧ sampleCount 0x7FC00000#32 ringFive.shared.sampleRate = .error .errArg ∧ 4 ≤ (4#4).toNat :=
  ⟨rfl, rfl, by decide +kernel, by decide +kernel, by decide +kernel, by decide⟩

theorem witness_SampleCountIsTheFloor :
    isNaN (mul32 qNaN 0x473B8000#32) = true ∧ lt32 (mul32 0xBF800000#32 0x473B8000#32) 0#32 = true
    ∧ mul32 0x7F800000#32 0x473B8000#32 = 0x7F800000#32
    ∧ isFinite (mul32 0x3A83126F#32 0x473B8000#32) = true ∧ 0 ≤ units (mul32 0x3A83126F#32 0x473B8000#32)
    ∧ isFinite (mul32 0x7149F2CA#32 0x473B8000#32) = true ∧ 0 ≤ units (mul32 0x7149F2CA#32 0x473B8000#32) := by
  decide +kernel

theorem witness_GetSampleRateResult : configured.queryIdle := rfl

theorem witness_BandOrModeOutOfRangeIsAnError :
    2 ≤ (2#4).toNat ∧ 2 ≤ (15#4).toNat ∧ 4 ≤ (4#4).toNat ∧ 4 ≤ (15#4).toNat ∧ (0#4).toNat < 4 ∧ (3#4).toNat < 4 := by
  decide

theorem witness_PeakIsTheLargestMagnitude :
    isFinite 0x80000001#32 = true ∧ isFinite 0x7F7FFFFF#32 = true ∧ isNaN 0x7F800001#32 = true
    ∧ isNaN 0x7F7FFFFF#32 = false ∧ isNaN 0xFF800000#32 = false := by decide

theorem witness_PeakAfterOnePush : 0 < 1 ∧ 1 ≤ 1 := by decide

theorem witness_RmsOfSilenceIsZero : 1 ≤ 2 ∧ 2 ≤ 2 ^ 24 ∧ ∀ x ∈ ([0#32, 0x80000000#32] : List Word), isZero x = true :=
  ⟨by decide, by norm_num, by simp [isZero, expField, fracField]⟩

theorem witness_LinearBandAveragesResult :
    (1 ≤ (1#32).toNat ∧ (1#32).toNat ≤ 64) ∧ (1 ≤ (64#32).toNat ∧ (64#32).toNat ≤ 64)
    ∧ ((0#32).toNat = 0 ∨ 64 < (0#32).toNat) ∧ ((65#32).toNat = 0 ∨ 64 < (65#32).toNat) := by decide

/-- V-SP-6 at 48000 (nine octaves): the shortest accepted request, and each refused one at its boundary. -/
theorem witness_LogBandAveragesResult :
    ringFive.shared ∈ ringFive.interval ∧ (torn (.getBandAverages 1#4 8#32)).interval = [Shared.reset, ringFive.shared]
    ∧ (let rate := ringFive.shared.sampleRate
       isFinite rate = true ∧ lt32 0#32 rate = true ∧ (8#32).toNat < 2 ^ 32 - 1 ∧ 1 ≤ octaves rate
         ∧ octaves rate ≤ (8#32).toNat + 1 ∧ 0 < octaves rate ∧ 0 < ((8#32).toNat + 1) / octaves rate)
    ∧ (isFinite 0x7F800000#32 = false ∧ lt32 0#32 0x80000000#32 = false ∧ (0xFFFFFFFF#32).toNat = 2 ^ 32 - 1
       ∧ octaves 0x42EE0000#32 = 0 ∧ (7#32).toNat + 1 < octaves ringFive.shared.sampleRate) :=
  ⟨List.mem_singleton.2 rfl, rfl, by decide +kernel, by decide +kernel⟩

theorem witness_SilentWindowHasZeroAverages :
    base.queryIdle ∧ (∀ i, isZero (memRead base.shared.win.mem i) = true)
    ∧ (∀ k i, isZero (base.view.windowWord k i) = true) ∧ ∃ t, exec (.getBandAverages 0#4 4#32) base = .next t :=
  
  have h : isZero 0#32 = true := by decide
  ⟨rfl, fun _ => h, fun _ _ => h, _, rfl⟩

theorem witness_MagnitudesAreNeverNegative : ∃ m, m ∈ analyze base.view :=
  ⟨_, List.mem_map.2 ⟨0, List.mem_range.2 (by decide), rfl⟩⟩

theorem witness_LinearReductionOfFullLengthIsIdentity :
    (List.replicate 64 qNaN).length = 64
    ∧ ∀ m ∈ List.replicate 64 qNaN, m = qNaN ∨ (isNaN m = false ∧ signBit m = false) :=
  ⟨by decide, fun _ h => .inl (List.eq_of_mem_replicate h)⟩

theorem witness_OctaveCountEndsBelowMinBandwidth :
    (isFinite 0x7F7FFFFF#32 = true ∧ lt32 0#32 0x7F7FFFFF#32 = true ∧ 0 < octaves 0x7F7FFFFF#32)
    ∧ (isFinite 0x00000001#32 = true ∧ lt32 0#32 0x00000001#32 = true) := by decide +kernel

theorem witness_HannTableIsCorrectlyRounded : 127 < 128 ∧ isFinite 0x3A1DE1C8#32 = true := by decide

theorem witness_QueriesAreIdempotent :
    (Instr.copyWaveform 0#4 2#32).port = .q ∧ ringFive.queryIdle
    ∧ ∃ t u, exec (.copyWaveform 0#4 2#32) ringFive = .next t ∧ exec (.copyWaveform 0#4 2#32) t = .next u :=
  ⟨rfl, rfl, _, _, rfl, rfl⟩

theorem witness_UnoverlappedQueryIsExact :
    (sentQ [0x15#32, 2#32]).queryIdle
    ∧ decode .q (sentQ [0x15#32, 2#32]).q.input = .command (.copyWaveform 0#4 2#32) [] := ⟨rfl, by decide⟩

theorem witness_OverlappingStepsAreRemembered :
    (overlapped .getSampleRate).q.phase = .query .getSampleRate [Shared.reset]
    ∧ (∃ t, exec (.feed 1#32) (overlapped .getSampleRate) = .next t)
    ∧ eq32 0x473B8000#32 (overlapped .getSampleRate).shared.sampleRate = false
    ∧ (∃ t, exec (.setSampleRate 0x473B8000#32) (overlapped .getSampleRate) = .next t)
    ∧ ∀ left ∈ [1, 65535],
      let s : State := { overlapped .getSampleRate with p := ⟨[1#32], [], [], .block left⟩ }
      s.q.phase = .query .getSampleRate [Shared.reset] ∧ s.p.phase = .block left ∧ s.p.input = [1#32]
        ∧ ∃ t, takeTurn .producer s = .next t :=
  ⟨rfl, ⟨_, rfl⟩, by decide +kernel, ⟨_, rfl⟩, fun _ _ => ⟨rfl, rfl, rfl, _, rfl⟩⟩

/-- An interval of two states with different rates and words; a count, no count and no window for the rates in it. -/
theorem witness_TornWordsComeFromTheInterval :
    ringFive.queryIdle ∧ (torn (.copyWaveform 0#4 2#32)).interval = [Shared.reset, ringFive.shared]
    ∧ bandOfField 0#4 = some .raw ∧ bandOfField 3#4 = some .high ∧ 1#32 ≠ 0#32 ∧ 0#32 = 0#32
    ∧ sampleCount 0x38D1B717#32 ringFive.shared.sampleRate = .ok 4
    ∧ sampleCount 0x38D1B717#32 Shared.reset.sampleRate = .ok 0
    ∧ sampleCount qNaN ringFive.shared.sampleRate = .error .errArg
    ∧ sampleCount qNaN Shared.reset.sampleRate = .error .errArg :=
  ⟨rfl, rfl, rfl, rfl, by decide, rfl, by decide +kernel, by decide +kernel, by decide +kernel, by decide +kernel⟩

theorem witness_OnlyProducerAndResetWriteShared :
    (overlapped .getSampleRate).wf = true
    ∧ (nextTurn { overlapped .getSampleRate with schedule := [.consumer] }).1 = .consumer
    ∧ (∃ t, step { overlapped .getSampleRate with schedule := [.consumer] } = .next t)
    ∧ (nextTurn { base with schedule := [.host], host := [.word .p 1#32] }).1 = .host
    ∧ (∃ t, step { base with schedule := [.host], host := [.word .p 1#32] } = .next t)
    ∧ ({ base with schedule := [.host], host := [.word .p 1#32] } : State).host.head? ≠ some .reset :=
  ⟨by decide +kernel, rfl, ⟨_, rfl⟩, rfl, ⟨_, rfl⟩, by decide⟩

theorem witness_UnconfiguredQueries :
    base.queryIdle ∧ base.shared.sampleRate = 0#32 ∧ bandOfField 0#4 = some .raw ∧ isFinite 0xBF800000#32 = true :=
  ⟨rfl, rfl, rfl, by decide⟩

theorem witness_StepKeepsLegalState :
    base.wf = true ∧ (overlapped .getSampleRate).wf = true
    ∧ ∃ t, step { base with schedule := [.producer] } = .next t := ⟨by decide +kernel, by decide +kernel, _, rfl⟩

/-- A fed NaN and a fed infinity, and the two registers they leave. -/
theorem witness_PoisonedSectionStaysPoisoned :
    let nan : State := { after (.feed qNaN) base with schedule := [.producer], p := (sentP [1#32, 0#32]).p }
    let inf : State := { after (.feed 0x7F800000#32) base with schedule := [.producer], p := (sentP [1#32, 0#32]).p }
    (isFinite qNaN = false ∧ isNaN qNaN = true ∧ isFinite 0x7F800000#32 = false)
    ∧ (nan.shared.bank.get .high2).poisoned = true ∧ (∃ t, step nan = .next t)
    ∧ isFinite (inf.shared.bank.get .low1).z1 = false ∧ ∃ t, step inf = .next t :=
  ⟨by decide, by decide +kernel, ⟨_, rfl⟩, by decide +kernel, _, rfl⟩

/-- A tie between two words, and the first quotient that rounds to infinity. -/
theorem witness_RoundingIsToNearestEven :
    (0 < 2 ∧ roundUnits 1 2 < 0x7F800000 ∧ magnitude 1#32 ≠ magnitude (pack false (roundUnits 1 2)) ∧ signBit 1#32 = false)
    ∧ (2 ^ 25 - 1) * 2 ^ 253 * 1 ≤ 2 * ((2 ^ 25 - 1) * 2 ^ 252) := by decide +kernel

/-- 1 + 3; the tie 1 + 2^-24, where the word after 1 is as near as the even one; the sum of the two largest words; the
zeros, the infinities and a NaN. -/
theorem witness_ArithmeticRoundsToNearest :
    (isFinite 0x3F800000#32 = true ∧ isFinite 0x40400000#32 = true ∧ isZero 0x40400000#32 = false
      ∧ 2 * |units 0x3F800000#32 + units 0x40400000#32| < (2 ^ 25 - 1) * 2 ^ 253 * |1|)
    ∧ (isFinite 0x33800000#32 = true ∧ isFinite 0x3F800001#32 = true
      ∧ units 0x3F800001#32 ≠ units (add32 0x3F800000#32 0x33800000#32)
      ∧ noFarther 0x3F800001#32 (add32 0x3F800000#32 0x33800000#32) (units 0x3F800000#32 + units 0x33800000#32) 1)
    ∧ (isFinite 0x7F7FFFFF#32 = true
      ∧ (2 ^ 25 - 1) * 2 ^ 253 * |1| ≤ 2 * |units 0x7F7FFFFF#32 + units 0x7F7FFFFF#32|)
    ∧ (isFinite 0x80000000#32 = true ∧ units 0#32 + units 0x80000000#32 = 0 ∧ isZero 0x80000000#32 = true
      ∧ isZero 0#32 = true)
    ∧ (isInf 0x7F800000#32 = true ∧ isInf 0xFF800000#32 = true ∧ isNaN 0xFF800000#32 = false
      ∧ signBit 0x7F800000#32 ≠ signBit 0xFF800000#32 ∧ isNaN 0#32 = false ∧ isInf 0#32 = false)
    ∧ (units 0x80000000#32 = units 0#32 ∧ isNaN 0x7F800001#32 = true) := by
  unfold noFarther
  simp only [Int.abs_eq_natAbs]
  decide +kernel

theorem witness_SquareRootRoundsToNearest :
    (isFinite 0x40000000#32 = true ∧ signBit 0x40000000#32 = false)
    ∧ (isFinite 0x7F7FFFFF#32 = true ∧ signBit 0x7F7FFFFF#32 = false)
    ∧ (signBit 0x80000001#32 = true ∧ isZero 0x80000001#32 = false) ∧ isNaN 0xFFC00001#32 = true := by decide

theorem witness_ArithmeticNaNsAreCanonical :
    isNaN (add32 0x7F800000#32 0xFF800000#32) = true ∧ isNaN (sub32 0x7F800001#32 0#32) = true
    ∧ isNaN (mul32 0#32 0x7F800000#32) = true ∧ isNaN (div32 0#32 0x80000000#32) = true
    ∧ isNaN (sqrt32 0xBF800000#32) = true ∧ isNaN 0x7F800001#32 = true
    ∧ base.wf = true ∧ ∃ t, exec (.feed 0x7FC00001#32) base = .next t :=
  ⟨by decide +kernel, by decide +kernel, by decide +kernel, by decide +kernel, by decide +kernel, by decide +kernel,
    by decide +kernel, _, rfl⟩

theorem witness_SmallIntegersAreExact : 0 ≤ 2 ^ 24 ∧ 2 ^ 24 ≤ 2 ^ 24 := by decide

/-- The argument of 48 kHz, the smallest and the largest. -/
theorem witness_TangentIsCorrectlyRounded :
    (lt32 0#32 0x3CA3D70A#32 = true ∧ lt32 0x3CA3D70A#32 half32 = true ∧ isFinite 0x3D80D968#32 = true)
    ∧ (lt32 0#32 0x00000001#32 = true ∧ lt32 0x3EFFFFFF#32 half32 = true) := by decide +kernel

/-- By hand: tan(π·2^-149) is 3.14 units, and tan(π·(1/2 - 2^-25)) is 2^25/π but for a part in 10^8. -/
theorem test_tan_ends : (tan32 0x00000001#32, tan32 0x3EFFFFFF#32) = (0x00000003#32, 0x4B22F983#32) := by
  decide +kernel

/-- By hand: tan(π/8) = √2 - 1, tan(π/4) = 1 and tan(3π/8) = √2 + 1, found by the exact comparisons. -/
theorem test_tanNearest :
    (tanNearest 0x3E000000#32, tanNearest 0x3E800000#32, tanNearest 0x3EC00000#32)
      = (0x3ED413CD, 0x3F800000, 0x401A827A) := by decide +kernel

end Sys2Proof.Tests
end

section
/-! Rounding to nearest, ties to even, of real numbers (00_scope.md R12): which word a real number reaches, that the
word so found is the nearest finite one, and that a rounded quotient is such a word. -/

namespace Sys2Proof.Machine

/-! ## Reaching a word -/

/-- Whether the real number of units `x` rounds to the word with the low 31 bits `m` or to a greater one: it is above the
midpoint of the words m - 1 and m, or on it and m is even (R12). -/
def Reaches (x : ℝ) (m : Nat) : Prop :=
  (magOf (m - 1) : ℝ) + magOf m < 2 * x ∨ ((magOf (m - 1) : ℝ) + magOf m = 2 * x ∧ m % 2 = 0)

/-- `m` is the low 31 bits of the word that `x` units round to, with exponents past 255 going on beyond infinity. -/
structure IsRounding (m : Nat) (x : ℝ) : Prop where
  reached : m = 0 ∨ Reaches x m
  next : ¬ Reaches x (m + 1)

theorem Reaches.midpoint_le {x : ℝ} {m : Nat} (h : Reaches x m) : (magOf (m - 1) : ℝ) + magOf m ≤ 2 * x :=
  h.elim le_of_lt fun h => h.1.le

theorem Reaches.mono {x y : ℝ} {m : Nat} (h : Reaches x m) (hxy : x ≤ y) : Reaches y m := by
  rcases h with h | ⟨h, hm⟩
  · exact .inl (by linarith)
  · rcases hxy.lt_or_eq with hlt | rfl
    · exact .inl (by linarith)
    · exact .inr ⟨h, hm⟩

theorem magOf_cast_le {m n : Nat} (h : m ≤ n) : (magOf m : ℝ) ≤ magOf n := by
  exact_mod_cast magOf_strictMono.monotone h

theorem magOf_cast_lt {m n : Nat} (h : m < n) : (magOf m : ℝ) < magOf n := by
  exact_mod_cast magOf_strictMono h

/-- A smaller word is reached as well. -/
theorem Reaches.anti {x : ℝ} {k m : Nat} (h : Reaches x m) (hkm : k ≤ m) : Reaches x k := by
  rcases hkm.lt_or_eq with hlt | rfl
  · have h₁ := magOf_cast_lt hlt
    have h₂ := magOf_cast_le (show k - 1 ≤ m - 1 by omega)
    exact .inl (by linarith [h.midpoint_le])
  · exact h

/-- The words below a rounding and itself are exactly those that are reached. -/
theorem IsRounding.le_iff {m k : Nat} {x : ℝ} (h : IsRounding m x) (hk : 0 < k) : k ≤ m ↔ Reaches x k := by
  constructor
  · intro hkm
    rcases h.reached with rfl | hm
    · omega
    · exact hm.anti hkm
  · intro hr
    by_contra hc
    exact h.next (hr.anti (by omega))

/-- Between two reals that round to the same word every real rounds to it. -/
theorem IsRounding.between {m : Nat} {x y z : ℝ} (hx : IsRounding m x) (hz : IsRounding m z) (hxy : x ≤ y)
    (hyz : y ≤ z) : IsRounding m y :=
  ⟨hx.reached.imp_right fun h => h.mono hxy, fun h => hz.next (h.mono hyz)⟩

/-! ## Where infinity begins -/

/-- The midpoint of the largest finite word and infinity is half a unit beyond the largest finite magnitude. -/
theorem magOf_overflow : magOf (0x7F800000 - 1) + magOf 0x7F800000 = (2 ^ 25 - 1) * 2 ^ 253 := by decide +kernel

theorem reaches_infinity_iff (x : ℝ) : Reaches x 0x7F800000 ↔ (2 ^ 25 - 1) * 2 ^ 253 ≤ 2 * x := by
  have h : (magOf (0x7F800000 - 1) : ℝ) + magOf 0x7F800000 = (2 ^ 25 - 1) * 2 ^ 253 := by
    have := congrArg (Nat.cast (R := ℝ)) magOf_overflow
    push_cast at this
    linarith
  unfold Reaches
  rw [h, le_iff_lt_or_eq]
  simp

theorem IsRounding.lt_infinity {m : Nat} {x : ℝ} (h : IsRounding m x) (hx : 2 * x < (2 ^ 25 - 1) * 2 ^ 253) :
    m < 0x7F800000 := by
  by_contra hc
  exact absurd ((reaches_infinity_iff x).1 ((h.le_iff (by decide)).1 (not_lt.1 hc))) (not_le.2 hx)

/-! ## The rounding is the nearest word -/

/-- No magnitude is nearer to `x` than that of its rounding, and if another is as near the rounding is even. -/
theorem IsRounding.nearest_magOf {m : Nat} {x : ℝ} (h : IsRounding m x) (k : Nat) :
    |(magOf m : ℝ) - x| ≤ |(magOf k : ℝ) - x|
    ∧ (k ≠ m → |(magOf k : ℝ) - x| ≤ |(magOf m : ℝ) - x| → m % 2 = 0) := by
  rcases Nat.lt_trichotomy k m with hk | rfl | hk
  · have hr : Reaches x m := h.reached.resolve_left (by omega)
    have hmid := hr.midpoint_le
    have hle := magOf_cast_le (show k ≤ m - 1 by omega)
    have hlt := magOf_cast_lt hk
    have hfar : x - magOf k ≤ |(magOf k : ℝ) - x| := by rw [abs_sub_comm]; exact le_abs_self _
    refine ⟨le_trans (abs_le.2 ⟨by linarith, by linarith⟩) hfar, fun _ hnear => ?_⟩
    rcases hr with hr | hr
    · have : |(magOf m : ℝ) - x| < x - magOf k := abs_lt.2 ⟨by linarith, by linarith⟩
      linarith
    · exact hr.2
  · exact ⟨le_refl _, fun hne => absurd rfl hne⟩
  · have hmid : 2 * x ≤ magOf m + magOf (m + 1) := by
      by_contra hc
      exact h.next (.inl (by simpa using hc))
    have hle := magOf_cast_le (show m + 1 ≤ k by omega)
    have hlt := magOf_cast_lt hk
    have hfar : (magOf k : ℝ) - x ≤ |(magOf k : ℝ) - x| := le_abs_self _
    refine ⟨le_trans (abs_le.2 ⟨by linarith, by linarith⟩) hfar, fun _ hnear => ?_⟩
    rcases hmid.lt_or_eq with hlt' | heq
    · have : |(magOf m : ℝ) - x| < magOf k - x := abs_lt.2 ⟨by linarith, by linarith⟩
      linarith
    · by_contra hodd
      exact h.next (.inr ⟨by simpa using heq.symm, by omega⟩)

theorem units_cast_cases (w : Word) :
    (units w : ℝ) = magOf (w.toNat % 2 ^ 31) ∨ (units w : ℝ) = -magOf (w.toNat % 2 ^ 31) := by
  unfold units
  rw [magnitude_eq]
  split
  · exact .inr (by push_cast; rfl)
  · exact .inl (by push_cast; rfl)

/-- No word is nearer to a real that is not negative than its rounding, and if one of another value is as near the
rounding is even (R12). -/
theorem IsRounding.nearest {m : Nat} {x : ℝ} (h : IsRounding m x) (hm : m < 2 ^ 31) (hx : 0 ≤ x) (w : Word) :
    realDistance (pack false m) x ≤ realDistance w x
    ∧ (units w ≠ units (pack false m) → realDistance w x ≤ realDistance (pack false m) x → m % 2 = 0) := by
  have hu : units (pack false m) = magOf m := by rw [units_pack _ _ hm]; rfl
  have hc : (units (pack false m) : ℝ) = magOf m := by exact_mod_cast hu
  unfold realDistance
  rw [hc]
  obtain ⟨hnear, htie⟩ := h.nearest_magOf (w.toNat % 2 ^ 31)
  have hpos : (0 : ℝ) ≤ magOf (w.toNat % 2 ^ 31) := Nat.cast_nonneg _
  have hmirror : |(magOf (w.toNat % 2 ^ 31) : ℝ) - x| ≤ |-(magOf (w.toNat % 2 ^ 31) : ℝ) - x| := by
    rw [abs_sub_comm, ← abs_neg (-_ - _), abs_of_nonneg (a := -(-_ - _)) (by linarith)]
    exact abs_le.2 ⟨by linarith, by linarith⟩
  rcases units_cast_cases w with hw | hw
  · rw [hw]
    refine ⟨hnear, fun hne => htie fun he => hne ?_⟩
    rw [hu, ← he]
    exact_mod_cast hw
  · rw [hw]
    refine ⟨hnear.trans hmirror, fun hne hle => htie (fun he => hne ?_) (hmirror.trans hle)⟩
    have h0 := (h.nearest_magOf 0).1
    rw [abs_sub_comm _ x, abs_sub_comm _ x, show ((magOf 0 : Nat) : ℝ) = 0 from Nat.cast_zero, sub_zero,
      abs_of_nonneg hx] at h0
    rw [← abs_neg (-_ - _), abs_of_nonneg (a := -(-_ - _)) (by linarith), abs_sub_comm] at hle
    have hz : (magOf m : ℝ) = 0 := by rw [← he]; linarith
    rw [he, hz, neg_zero] at hw
    rw [hu]
    exact_mod_cast hw.trans hz.symm

/-! ## A rounded quotient is a rounding -/

theorem reaches_div_iff (n d m : Nat) (hd : 0 < d) :
    Reaches ((n : ℝ) / d) m
      ↔ (magOf (m - 1) + magOf m) * d < 2 * n ∨ ((magOf (m - 1) + magOf m) * d = 2 * n ∧ m % 2 = 0) := by
  have hd' : (0 : ℝ) < d := by exact_mod_cast hd
  unfold Reaches
  rw [← mul_div_assoc, lt_div_iff₀ hd', eq_div_iff hd'.ne']
  norm_cast

/-- A significand k of at most 24 bits at an exponent e, as roundUnits finds it, is a rounding. -/
theorem isRounding_significand (n d e k : Nat) (hd : 0 < d) (hk : k = nearestEven n (d * 2 ^ e)) (hk24 : k ≤ 2 ^ 24)
    (hup : n < 2 ^ (24 + e) * d) (hlo : e = 0 ∨ (2 ^ 23 ≤ k ∧ 2 ^ (23 + e) * d ≤ n)) :
    IsRounding (k + e * 2 ^ 23) ((n : ℝ) / d) := by
  have mag : ∀ j, 2 ^ 23 ≤ j ∨ e = 0 → j ≤ 2 ^ 24 → magOf (j + e * 2 ^ 23) * d = j * (d * 2 ^ e) := by
    rintro j hj hj24
    rcases hj with hj | rfl
    · rw [magOf_binade j e hj hj24]; ring
    · simp [magOf_small j hj24]
  have htop : 2 ^ (24 + e) * d = 2 ^ 24 * (d * 2 ^ e) := by rw [pow_add]; ring
  have hbot : 2 ^ (23 + e) * d = 2 ^ 23 * (d * 2 ^ e) := by rw [pow_add]; ring
  have hmono : ∀ i j, i < j → magOf i * d < magOf j * d := fun i j h =>
    Nat.mul_lt_mul_of_pos_right (magOf_strictMono h) hd
  obtain ⟨h₁, h₂, heven⟩ := nearestEven_spec n (d * 2 ^ e) (Nat.mul_pos hd (Nat.two_pow_pos e))
  rw [← hk] at h₁ h₂ heven
  rw [htop] at hup
  rw [hbot] at hlo
  have hnear : 2 ^ 23 ≤ k ∨ e = 0 := hlo.symm.imp_left And.left
  have hself := mag k hnear hk24
  constructor
  · rcases Nat.eq_zero_or_pos (k + e * 2 ^ 23) with h0 | h0
    · exact .inl h0
    refine .inr ((reaches_div_iff n d _ hd).2 ?_)
    rw [Nat.add_mul, hself]
    by_cases hk' : 2 ^ 23 < k ∨ e = 0
    · have hpred := mag (k - 1) (hk'.imp_left (by omega)) (by omega)
      have hsum : (k - 1) * (d * 2 ^ e) + d * 2 ^ e = k * (d * 2 ^ e) := by
        rw [← Nat.succ_mul, show (k - 1).succ = k by omega]
      rw [show k + e * 2 ^ 23 - 1 = k - 1 + e * 2 ^ 23 by omega, hpred]
      omega
    · have hlt := hmono (k + e * 2 ^ 23 - 1) (k + e * 2 ^ 23) (by omega)
      rw [hself, show k = 2 ^ 23 by omega] at hlt
      rw [show k = 2 ^ 23 by omega]
      omega
  · rw [reaches_div_iff n d _ hd, Nat.add_sub_cancel, Nat.add_mul, hself]
    rcases hk24.lt_or_eq with hlt | rfl
    · rw [show k + e * 2 ^ 23 + 1 = k + 1 + e * 2 ^ 23 by omega, mag (k + 1) (hnear.imp_left (by omega)) hlt, Nat.add_mul,
        Nat.one_mul]
      generalize k * (d * 2 ^ e) = y at *
      omega
    · have hlt := hmono (2 ^ 24 + e * 2 ^ 23) (2 ^ 24 + e * 2 ^ 23 + 1) (by omega)
      rw [hself] at hlt
      omega

/-- roundUnits is the rounding of the quotient, saturated at infinity. -/
theorem roundUnits_isRounding (n d : Nat) (hd : 0 < d) :
    ∃ m, roundUnits n d = min m 0x7F800000 ∧ IsRounding m ((n : ℝ) / d) := by
  obtain ⟨e, heq, hk, hup, hlo⟩ := roundUnits_cases n d hd
  exact ⟨_, heq, isRounding_significand n d e _ hd rfl hk hup hlo⟩

/-- A finite result of roundUnits is the rounding of the quotient. -/
theorem isRounding_of_finite (n d : Nat) (hd : 0 < d) (h : roundUnits n d < 0x7F800000) :
    IsRounding (roundUnits n d) ((n : ℝ) / d) := by
  obtain ⟨m, heq, hm⟩ := roundUnits_isRounding n d hd
  rwa [show roundUnits n d = m by omega]

/-- roundUnits answers infinity exactly from half a unit beyond the largest finite magnitude. -/
theorem roundUnits_eq_infinity_iff (n d : Nat) (hd : 0 < d) :
    roundUnits n d = 0x7F800000 ↔ (2 ^ 25 - 1) * 2 ^ 253 * d ≤ 2 * n := by
  obtain ⟨m, heq, hm⟩ := roundUnits_isRounding n d hd
  have hinf : roundUnits n d = 0x7F800000 ↔ 0x7F800000 ≤ m := by omega
  rw [hinf, hm.le_iff (by decide), reaches_div_iff n d _ hd, magOf_overflow]
  omega

theorem pack_isFinite (neg : Bool) (m : Nat) (h : m < 0x7F800000) : isFinite (pack neg m) = true := by
  rw [isFinite_iff, pack_low neg m (by omega)]
  exact h

/-! ## Distances as the statements write them -/

theorem noFarther_iff (r w : Word) (x y : Int) (hy : y ≠ 0) :
    noFarther r w x y ↔ realDistance r ((x : ℝ) / y) ≤ realDistance w ((x : ℝ) / y) := by
  have hy' : (y : ℝ) ≠ 0 := by exact_mod_cast hy
  have key : ∀ v : Word, realDistance v ((x : ℝ) / y) * |(y : ℝ)| = ((|units v * y - x| : Int) : ℝ) := by
    intro v
    unfold realDistance
    rw [← abs_mul, sub_mul, div_mul_cancel₀ _ hy']
    push_cast
    rfl
  rw [← mul_le_mul_iff_left₀ (abs_pos.2 hy'), key, key]
  unfold noFarther
  exact Int.cast_le.symm

/-- Settles O55, by the reached words of the quotient. -/
theorem roundingIsToNearestEven : Obligations.RoundingIsToNearestEven := by
  intro n d hd
  refine ⟨roundUnits_eq_infinity_iff n d hd, fun hfin w _ => ?_, roundUnits_le n d⟩
  have hd' : (d : Int) ≠ 0 := by omega
  obtain ⟨hnear, htie⟩ := (isRounding_of_finite n d hd hfin).nearest (by omega) (by positivity) w
  have hiff : ∀ r v : Word, noFarther r v n d ↔ realDistance r ((n : ℝ) / d) ≤ realDistance v ((n : ℝ) / d) :=
    fun r v => by simpa using noFarther_iff r v n d hd'
  refine ⟨(hiff _ _).2 hnear, fun hne _ hle => htie (fun he => hne ?_) ((hiff _ _).1 hle)⟩
  rw [← units_natAbs, ← units_natAbs, he]

end Sys2Proof.Machine
end

section
/-! Small integers and the square root (00_scope.md R12): an exact value is its own rounding, and the quotient that sqrt32
rounds has the rounding of the real root. -/

namespace Sys2Proof.Machine

/-! ## Small integers -/

/-- Every integer up to 2^24 is the magnitude of a finite word. -/
theorem exists_magOf_eq (n : Nat) (h : n ≤ 2 ^ 24) : ∃ m, m < 0x7F800000 ∧ magOf m = n * 2 ^ 149 := by
  rcases Nat.eq_zero_or_pos n with rfl | hpos
  · exact ⟨0, by decide, by simp [magOf]⟩
  rcases h.lt_or_eq with hlt | rfl
  · have hlog : Nat.log2 n ≤ 23 := by
      have := (Nat.log2_lt (by omega)).2 hlt
      omega
    have hself := Nat.log2_self_le (show n ≠ 0 by omega)
    have hnext := @Nat.lt_log2_self n
    generalize Nat.log2 n = l at hlog hself hnext
    have hge : 2 ^ 23 ≤ n * 2 ^ (23 - l) := by
      calc 2 ^ 23 = 2 ^ l * 2 ^ (23 - l) := by rw [← pow_add]; congr 1; omega
        _ ≤ _ := Nat.mul_le_mul_right _ hself
    have hle : n * 2 ^ (23 - l) ≤ 2 ^ 24 := by
      calc n * 2 ^ (23 - l) ≤ 2 ^ (l + 1) * 2 ^ (23 - l) := Nat.mul_le_mul_right _ hnext.le
        _ = 2 ^ 24 := by rw [← pow_add]; congr 1; omega
    refine ⟨n * 2 ^ (23 - l) + (126 + l) * 2 ^ 23, by omega, ?_⟩
    rw [magOf_binade _ _ hge hle, Nat.mul_assoc, ← pow_add]
    congr 2
    omega
  · exact ⟨2 ^ 24 + 149 * 2 ^ 23, by decide, magOf_binade _ _ (by decide) le_rfl⟩

/-- A magnitude is its own rounding. -/
theorem isRounding_magOf (m : Nat) : IsRounding m (magOf m) := by
  constructor
  · rcases Nat.eq_zero_or_pos m with h | h
    · exact .inl h
    · exact .inr (.inl (by linarith [magOf_cast_lt (show m - 1 < m by omega)]))
  · intro h
    have hmid := h.midpoint_le
    have hlt := magOf_cast_lt (Nat.lt_succ_self m)
    rw [Nat.add_sub_cancel] at hmid
    linarith

theorem IsRounding.unique {m n : Nat} {x : ℝ} (hm : IsRounding m x) (hn : IsRounding n x) : m = n := by
  refine le_antisymm ?_ ?_
  · rcases Nat.eq_zero_or_pos m with h | h
    · omega
    · exact (hn.le_iff h).2 ((hm.le_iff h).1 le_rfl)
  · rcases Nat.eq_zero_or_pos n with h | h
    · omega
    · exact (hm.le_iff h).2 ((hn.le_iff h).1 le_rfl)

/-- A quotient that is a finite magnitude is not rounded. -/
theorem roundUnits_exact (n m : Nat) (hm : m < 0x7F800000) (h : magOf m = n) : roundUnits n 1 = m := by
  obtain ⟨r, heq, hr⟩ := roundUnits_isRounding n 1 Nat.one_pos
  have hself := isRounding_magOf m
  rw [h, ← div_one (n : ℝ), ← Nat.cast_one] at hself
  rw [heq, hr.unique hself]
  omega

/-- Settles O59: the integer is the magnitude of a finite word, which is its own rounding. -/
theorem smallIntegersAreExact : Obligations.SmallIntegersAreExact := by
  intro n hn
  obtain ⟨m, hm, hmag⟩ := exists_magOf_eq n hn
  have hu : u2f n = pack false m := congrArg (pack false) (roundUnits_exact _ m hm hmag)
  rw [hu]
  refine ⟨pack_isFinite _ _ hm, ?_⟩
  rw [units_pack _ _ (by omega), hmag]
  push_cast
  rfl

/-! ## The square root -/

/-- From 2^26 units up the sum of two neighbouring magnitudes is even. -/
theorem midpoint_sum_even (m : Nat) (h : 2 ^ 26 < magOf (m - 1) + magOf m) : (magOf (m - 1) + magOf m) % 2 = 0 := by
  have hmono : magOf (m - 1) ≤ magOf m := magOf_strictMono.monotone (Nat.sub_le m 1)
  have hm : 2 ^ 24 < m := by
    rw [← magOf_strictMono.lt_iff_lt, magOf_small _ le_rfl]
    omega
  have hpred : 2 ^ 24 ≤ magOf (m - 1) := by
    rw [← magOf_small _ le_rfl]
    exact magOf_strictMono.monotone (by omega)
  have h₁ := magOf_dvd (m - 1) 1 hpred
  have h₂ := magOf_dvd m 1 (hpred.trans hmono)
  omega

/-- Above 2^25 units no real strictly between two neighbouring integers is told from the half between them: both
reach the same words. -/
theorem reaches_half_iff (r m : Nat) (x : ℝ) (hr : 2 ^ 25 ≤ r) (h₁ : (r : ℝ) < x) (h₂ : x < r + 1) :
    Reaches (((2 * r + 1 : Nat) : ℝ) / (2 : Nat)) m ↔ Reaches x m := by
  rw [reaches_div_iff _ _ _ Nat.two_pos]
  have heven := midpoint_sum_even m
  unfold Reaches
  norm_cast
  generalize magOf (m - 1) + magOf m = s at *
  have hlt : s ≤ 2 * r → (s : ℝ) < 2 * x := fun h => by
    have : (s : ℝ) ≤ 2 * r := by exact_mod_cast h
    linarith
  have hgt : 2 * r + 2 ≤ s → 2 * x < (s : ℝ) := fun h => by
    have : (2 : ℝ) * r + 2 ≤ s := by exact_mod_cast h
    linarith
  rcases Nat.lt_or_ge s (2 * r + 1) with hs | hs
  · exact iff_of_true (.inl (by omega)) (.inl (hlt (by omega)))
  · have hbig := hgt (by omega)
    exact iff_of_false (by omega) (by rintro (h | h) <;> linarith)

/-- The quotient that sqrt32 rounds has the rounding of the real root. -/
theorem isRounding_sqrt_iff (x r m : Nat) (hx : 2 ^ 52 ≤ x) (h₁ : r * r ≤ x) (h₂ : x < (r + 1) * (r + 1)) :
    IsRounding m (((2 * r + if r * r = x then 0 else 1 : Nat) : ℝ) / (2 : Nat)) ↔ IsRounding m (Real.sqrt x) := by
  split
  · next h =>
    rw [← h, Nat.cast_mul, Real.sqrt_mul_self (Nat.cast_nonneg r)]
    push_cast
    rw [add_zero, mul_div_cancel_left₀ _ two_ne_zero]
  · next h =>
    have hr : 2 ^ 25 ≤ r := by
      by_contra hc
      have : (r + 1) * (r + 1) ≤ 2 ^ 25 * 2 ^ 25 := Nat.mul_le_mul (by omega) (by omega)
      omega
    have hlo : (r : ℝ) < Real.sqrt x :=
      Real.lt_sqrt_of_sq_lt (by rw [sq]; exact_mod_cast lt_of_le_of_ne h₁ h)
    have hhi : Real.sqrt x < r + 1 := by
      rw [Real.sqrt_lt' (by positivity), sq]
      exact_mod_cast h₂
    have hiff := fun k => reaches_half_iff r k _ hr hlo hhi
    exact ⟨fun h => ⟨h.reached.imp_right (hiff m).1, fun hn => h.next ((hiff _).2 hn)⟩,
      fun h => ⟨h.reached.imp_right (hiff m).2, fun hn => h.next ((hiff _).1 hn)⟩⟩

/-- A finite magnitude is below that of infinity's pattern. -/
theorem magnitude_lt (a : Word) (h : isFinite a = true) : magnitude a < 2 ^ 23 * 2 ^ 254 := by
  have hinf : magOf 0x7F800000 = 2 ^ 23 * 2 ^ 254 := by
    rw [show 0x7F800000 = 2 ^ 23 + 254 * 2 ^ 23 by norm_num]
    exact magOf_binade _ _ le_rfl (by norm_num)
  rw [isFinite_iff] at h
  rw [magnitude_eq, ← hinf]
  exact magOf_strictMono h

theorem magnitude_eq_zero_iff (a : Word) : magnitude a = 0 ↔ isZero a = true := by
  rw [magnitude_eq, isZero_iff]
  exact ⟨fun h => magOf_strictMono.injective (h.trans (show 0 = magOf 0 from rfl)), fun h => by rw [h]; rfl⟩

theorem units_of_not_signBit (a : Word) (h : signBit a = false) : units a = magnitude a := by
  unfold units; rw [h]; rfl

/-- The root of a finite positive word is the finite word that its real root rounds to. -/
theorem sqrt32_isRounding (a : Word) (hf : isFinite a = true) (hs : signBit a = false) (hz : isZero a = false) :
    ∃ m, m < 0x7F800000 ∧ sqrt32 a = pack false m ∧ IsRounding m (Real.sqrt ((units a : ℝ) * 2 ^ 149)) := by
  obtain ⟨hn, hi⟩ := not_isNaN_of_isFinite a hf
  have hpos : 0 < magnitude a := Nat.pos_of_ne_zero fun h => by
    rw [(magnitude_eq_zero_iff a).1 h] at hz
    cases hz
  have hlt := magnitude_lt a hf
  have hx : (units a : ℝ) * 2 ^ 149 = ((magnitude a * 2 ^ 149 : Nat) : ℝ) := by
    rw [units_of_not_signBit a hs, Int.cast_natCast, Nat.cast_mul, Nat.cast_pow, Nat.cast_ofNat]
  have hx428 : magnitude a * 2 ^ 149 < 2 ^ 428 := by
    calc magnitude a * 2 ^ 149 < 2 ^ 23 * 2 ^ 254 * 2 ^ 149 := Nat.mul_lt_mul_of_pos_right hlt (Nat.two_pow_pos _)
      _ = 2 ^ (23 + 254 + 149) := by rw [pow_add, pow_add]
      _ ≤ 2 ^ 428 := Nat.pow_le_pow_right Nat.two_pos (by decide)
  obtain ⟨h₁, h₂⟩ := isqrt_spec _ hx428
  have hiff := fun m => isRounding_sqrt_iff _ _ m (by omega) h₁ h₂
  obtain ⟨m, heq, hm⟩ := roundUnits_isRounding
    (2 * isqrt (magnitude a * 2 ^ 149) + if isqrt (magnitude a * 2 ^ 149) * isqrt (magnitude a * 2 ^ 149)
      = magnitude a * 2 ^ 149 then 0 else 1) 2 Nat.two_pos
  rw [hiff] at hm
  have hfin : m < 0x7F800000 := by
    refine hm.lt_infinity ?_
    have : Real.sqrt ((magnitude a * 2 ^ 149 : Nat) : ℝ) ≤ 2 ^ 214 := by
      rw [Real.sqrt_le_left (by positivity), ← pow_mul]
      exact_mod_cast hx428.le
    calc 2 * Real.sqrt ((magnitude a * 2 ^ 149 : Nat) : ℝ) ≤ 2 * 2 ^ 214 := by linarith
      _ < _ := by norm_num
  refine ⟨m, hfin, ?_, by rwa [hx]⟩
  unfold sqrt32
  simp only [hn, hi, hs, hz, Bool.false_eq_true, if_false]
  rw [heq, min_eq_left hfin.le]

/-- Settles O57: the root of a positive word is a rounding of the real root; the special operands one by one. -/
theorem squareRootRoundsToNearest : Obligations.SquareRootRoundsToNearest := by
  refine ⟨fun a w hf hs _ => ?_, by decide +kernel, by decide +kernel, fun a => ⟨fun hs hz => ?_, fun hn => ?_⟩⟩
  · cases hz : isZero a with
    | true =>
      have hroot : sqrt32 a = a := by
        unfold sqrt32
        simp only [(not_isNaN_of_isFinite a hf).1, hz, Bool.false_eq_true, if_false, if_true]
      have hu : units a = 0 := by
        rw [units_of_not_signBit a hs, (magnitude_eq_zero_iff a).2 hz]; rfl
      rw [hroot]
      refine ⟨hf, ?_⟩
      unfold realDistance
      rw [hu]
      simp
    | false =>
      obtain ⟨m, hm, heq, hr⟩ := sqrt32_isRounding a hf hs hz
      rw [heq]
      exact ⟨pack_isFinite _ _ hm, (hr.nearest (by omega) (Real.sqrt_nonneg _) w).1⟩
  · unfold sqrt32
    simp only [hs, hz, Bool.false_eq_true, if_false, if_true]
    split
    · decide
    · decide
  · unfold sqrt32
    rw [hn]
    rfl

end Sys2Proof.Machine
end

section
/-! The two transcendental functions (00_scope.md R14): a rounding that the enclosure decides, or that the exact comparisons
find, is that of the real value. -/

namespace Sys2Proof.Machine

/-! ## Roundings that an enclosure decides -/

theorem decideRounding_eq_some (n₁ d₁ n₂ d₂ m : Nat) (h : decideRounding n₁ d₁ n₂ d₂ = some m) :
    0 < d₂ ∧ roundUnits n₁ d₁ = m ∧ roundUnits n₂ d₂ = m := by
  unfold decideRounding at h
  split at h
  · next hd =>
    obtain rfl := Option.some.inj h
    exact ⟨Nat.pos_of_ne_zero hd.1, rfl, hd.2.symm⟩
  · cases h

/-- Where both ends of an enclosure round to one word, every real between them that does not overflow rounds to it. -/
theorem isRounding_of_decided (n₁ d₁ n₂ d₂ m : Nat) (x : ℝ) (h : decideRounding n₁ d₁ n₂ d₂ = some m) (hd : 0 < d₁)
    (hl : (n₁ : ℝ) / d₁ ≤ x) (hu : 0 < d₂ → x ≤ (n₂ : ℝ) / d₂) (hx : 2 * x < (2 ^ 25 - 1) * 2 ^ 253) :
    m < 0x7F800000 ∧ IsRounding m x := by
  obtain ⟨hd₂, h₁, h₂⟩ := decideRounding_eq_some _ _ _ _ _ h
  have hfin : m < 0x7F800000 := by
    obtain ⟨r, heq, hr⟩ := roundUnits_isRounding n₁ d₁ hd
    have := hr.lt_infinity (by linarith)
    omega
  refine ⟨hfin, ?_⟩
  have hlow := isRounding_of_finite n₁ d₁ hd (h₁ ▸ hfin)
  have hhigh := isRounding_of_finite n₂ d₂ hd₂ (h₂ ▸ hfin)
  rw [h₁] at hlow
  rw [h₂] at hhigh
  exact hlow.between hhigh hl (hu hd₂)

/-! ## The tangent -/

/-- The angle π·Fc. -/
noncomputable def tanAngle (fc : Word) : ℝ := Real.pi * ((magnitude fc : ℝ) / 2 ^ 149)

/-- The tangent of π·Fc in units of 2^-149. -/
noncomputable def tanUnits (fc : Word) : ℝ := 2 ^ 149 * Real.tan (tanAngle fc)

/-- The rounding of the quotient of two reals as their enclosures decide it. -/
def decideQuotient (s c : Enclosure) : Option Nat := decideRounding (s.lo * 2 ^ 149) c.hi (s.hi * 2 ^ 149) c.lo

/-- The decision that tan32 takes from its enclosures of the sine and the cosine. -/
def tanDecision (fc : Word) : Option Nat :=
  decideQuotient (sinEnclosure (piTimes (magnitude fc) (2 ^ 149))) (cosEnclosure (piTimes (magnitude fc) (2 ^ 149)))

/-- tan32 answers what its enclosures decide, and otherwise what the exact comparisons find. The definition is unfolded as
a function, before it is applied: unfolded at an argument, the kernel would evaluate the enclosures to compare the two. -/
theorem tan32_cases (fc : Word) :
    (∃ m, tanDecision fc = some m ∧ tan32 fc = pack false m) ∨ tan32 fc = pack false (tanNearest fc) := by
  obtain ⟨f, hf⟩ : ∃ f, f = tan32 := ⟨_, rfl⟩
  rw [← hf]
  delta tan32 at hf
  rw [hf]
  beta_reduce
  extract_lets x s c
  have hs : s = sinEnclosure (piTimes (magnitude fc) (2 ^ 149)) := rfl
  have hc : c = cosEnclosure (piTimes (magnitude fc) (2 ^ 149)) := rfl
  clear_value s c
  split
  · next m h =>
    rw [hs, hc] at h
    exact .inl ⟨m, h, rfl⟩
  · exact .inr rfl

/-- The quotient of two enclosed reals, times K, is enclosed by the quotients of opposite ends. -/
theorem quotient_between_ends (a₁ a₂ b₁ b₂ K : Nat) (x y : ℝ) (ha₁ : (a₁ : ℝ) ≤ x) (ha₂ : x ≤ a₂)
    (hb₁ : (b₁ : ℝ) ≤ y) (hb₂ : y ≤ b₂) (hy : 0 < y) :
    0 < b₂ ∧ ((a₁ * K : Nat) : ℝ) / b₂ ≤ (K : ℝ) * (x / y)
    ∧ (0 < b₁ → (K : ℝ) * (x / y) ≤ ((a₂ * K : Nat) : ℝ) / b₁) := by
  have hx : 0 ≤ x := le_trans (Nat.cast_nonneg _) ha₁
  rw [← mul_div_assoc, mul_comm (K : ℝ), Nat.cast_mul, Nat.cast_mul]
  refine ⟨by exact_mod_cast hy.trans_le hb₂, by gcongr, fun h => ?_⟩
  have : (0 : ℝ) < b₁ := by exact_mod_cast h
  gcongr

/-- An argument strictly between +0.0 and 0.5 is positive and at least 2^-25 below 0.5. -/
theorem tan_argument (fc : Word) (h₀ : lt32 0#32 fc = true) (h₁ : lt32 fc half32 = true) :
    units fc = magnitude fc ∧ 0 < magnitude fc ∧ magnitude fc ≤ (2 ^ 24 - 1) * 2 ^ 124 := by
  have hkey : orderKey 0#32 < orderKey fc ∧ orderKey fc < orderKey half32 := by
    unfold lt32 at h₀ h₁
    simp only [Bool.and_eq_true, decide_eq_true_eq] at h₀ h₁
    exact ⟨h₀.2, h₁.2⟩
  rw [show orderKey 0#32 = 0 by decide, show orderKey half32 = 0x3F000000 by decide] at hkey
  unfold orderKey at hkey
  cases hs : signBit fc with
  | true => rw [hs] at hkey; simp only [if_true] at hkey; omega
  | false =>
    rw [hs] at hkey
    simp only [Bool.false_eq_true, if_false] at hkey
    have hlast : magOf ((2 ^ 24 - 1) + 124 * 2 ^ 23) = (2 ^ 24 - 1) * 2 ^ 124 :=
      magOf_binade _ _ (by norm_num) (by norm_num)
    refine ⟨units_of_not_signBit fc hs, ?_, ?_⟩
    · exact lt_of_eq_of_lt (show 0 = magOf 0 from rfl) (magnitude_eq fc ▸ magOf_strictMono (by omega))
    · rw [magnitude_eq, ← hlast]
      exact magOf_strictMono.monotone (by omega)

section
variable (fc : Word) (h₀ : 0 < magnitude fc) (h₁ : magnitude fc ≤ (2 ^ 24 - 1) * 2 ^ 124)
include h₀ h₁

theorem tanAngle_range :
    0 < tanAngle fc
    ∧ tanAngle fc + Real.pi / 2 ^ 25 ≤ Real.pi / 2 := by
  have hlo : (0 : ℝ) < magnitude fc := by exact_mod_cast h₀
  have hhi : (magnitude fc : ℝ) ≤ (2 ^ 24 - 1) * 2 ^ 124 := by
    have : (magnitude fc : ℝ) ≤ (((2 ^ 24 - 1) * 2 ^ 124 : Nat) : ℝ) := Nat.cast_le.2 h₁
    norm_num at this ⊢
    exact this
  have hf : (magnitude fc : ℝ) / 2 ^ 149 ≤ 1 / 2 - 1 / 2 ^ 25 := by
    rw [div_le_iff₀ (by positivity)]
    linarith
  have := mul_le_mul_of_nonneg_left hf Real.pi_pos.le
  unfold tanAngle
  exact ⟨mul_pos Real.pi_pos (by positivity), by linarith⟩

/-- The tangent of every argument is below 2^25: it is the reciprocal of the tangent of an angle of at least π/2^25. -/
theorem tan_lt : Real.tan (tanAngle fc) < 2 ^ 25 := by
  obtain ⟨hpos, hlt⟩ := tanAngle_range fc h₀ h₁
  generalize tanAngle fc = a at *
  have hco : 1 / 2 ^ 25 < Real.tan (Real.pi / 2 - a) := by
    have := Real.lt_tan (x := Real.pi / 2 - a) (by linarith [Real.pi_pos]) (by linarith)
    linarith [Real.pi_gt_three]
  rw [Real.tan_pi_div_two_sub] at hco
  have := inv_strictAnti₀ (by positivity) hco
  rwa [inv_inv, one_div, inv_inv] at this

/-- No tangent of an argument overflows. -/
theorem tanUnits_lt : 2 * tanUnits fc < (2 ^ 25 - 1) * 2 ^ 253 := by
  unfold tanUnits
  linarith [tan_lt fc h₀ h₁]

/-- The exact comparisons tell which words the tangent reaches. -/
theorem tanReaches_iff_reaches (m : Nat) (hm : m < 2 ^ 31) :
    tanReaches fc m = true ↔ Reaches (tanUnits fc) m := by
  have hlow : ∀ k < 2 ^ 31, magnitude (BitVec.ofNat 32 k) = magOf k := fun k hk => by
    rw [magnitude_eq, BitVec.toNat_ofNat]
    congr 1
    omega
  rw [tanReaches_iff fc m h₀ (by omega)]
  unfold midpointBelow Reaches tanUnits tanAngle
  rw [hlow _ (by omega), hlow _ hm]
  generalize Real.tan _ = t
  rw [div_lt_iff₀ (by positivity), div_eq_iff (by positivity)]
  have : 2 * (2 ^ 149 * t) = t * 2 ^ 150 := by ring
  rw [this]

theorem not_tanReaches_top : tanReaches fc (2 ^ 31) = false := by
  rw [Bool.eq_false_iff, Ne, tanReaches_iff fc _ h₀ (by omega)]
  have hmag : magnitude (BitVec.ofNat 32 (2 ^ 31 - 1)) + magnitude (BitVec.ofNat 32 (2 ^ 31)) = (2 ^ 24 - 1) * 2 ^ 254 := by
    decide +kernel
  have hmid : midpointBelow (2 ^ 31) = (2 ^ 24 - 1) * 2 ^ 254 / 2 ^ 150 := by
    unfold midpointBelow
    rw [← Nat.cast_add, hmag]
    norm_num
  have := tan_lt fc h₀ h₁
  unfold tanAngle at this
  rw [hmid]
  rintro (h | ⟨h, -⟩) <;> linarith

omit h₀ h₁ in
theorem tanNearestFrom_lt (k acc : Nat) : tanNearestFrom fc k acc < acc + 2 ^ k := by
  induction k generalizing acc with
  | zero => exact Nat.lt_succ_self acc
  | succ k ih =>
    unfold tanNearestFrom
    rw [pow_succ]
    split
    · exact lt_of_lt_of_eq (ih _) (by ring)
    · exact lt_of_lt_of_le (ih _) (by omega)

/-- The exact comparisons find the rounding of the tangent. -/
theorem tanNearest_isRounding :
    tanNearest fc < 0x7F800000
    ∧ IsRounding (tanNearest fc) (tanUnits fc) := by
  obtain ⟨hr, hn⟩ := tanNearestFrom_spec fc 31 0 (.inl rfl) (by simpa using not_tanReaches_top fc h₀ h₁)
  have hlt := tanNearestFrom_lt fc 31 0
  change tanNearest fc = 0 ∨ tanReaches fc (tanNearest fc) = true at hr
  change tanReaches fc (tanNearest fc + 1) = false at hn
  change tanNearest fc < 0 + 2 ^ 31 at hlt
  have hreach := hr.imp_right (tanReaches_iff_reaches fc h₀ h₁ _ (by omega)).1
  have hfin : tanNearest fc < 0x7F800000 := by
    by_contra hc
    have hinf := (hreach.resolve_left (by omega)).anti (not_lt.1 hc)
    exact absurd ((reaches_infinity_iff _).1 hinf) (not_le.2 (tanUnits_lt fc h₀ h₁))
  refine ⟨hfin, hreach, fun h => ?_⟩
  rw [(tanReaches_iff_reaches fc h₀ h₁ _ (by omega)).2 h] at hn
  cases hn

/-- The ends that tan32 rounds enclose the tangent. -/
theorem tan_between_ends (s c : Enclosure) (hs : s.Holds (Real.sin (tanAngle fc)))
    (hc : c.Holds (Real.cos (tanAngle fc))) :
    0 < c.hi ∧ ((s.lo * 2 ^ 149 : Nat) : ℝ) / c.hi ≤ tanUnits fc
    ∧ (0 < c.lo → tanUnits fc ≤ ((s.hi * 2 ^ 149 : Nat) : ℝ) / c.lo) := by
  obtain ⟨hpos, hlt⟩ := tanAngle_range fc h₀ h₁
  have hpi := Real.pi_pos
  have hcos : 0 < Real.cos (tanAngle fc) := Real.cos_pos_of_mem_Ioo ⟨by linarith, by linarith⟩
  have hscale : (0 : ℝ) < 2 ^ enclosureBits := pow_pos two_pos _
  have hends := quotient_between_ends s.lo s.hi c.lo c.hi (2 ^ 149) _ _ hs.1 hs.2 hc.1 hc.2 (mul_pos hcos hscale)
  rw [mul_div_mul_right _ _ hscale.ne', ← Real.tan_eq_sin_div_cos, Nat.cast_pow, Nat.cast_ofNat] at hends
  exact hends

/-- The rounding that the enclosures decide is that of the real tangent. -/
theorem isRounding_of_decideQuotient (s c : Enclosure) (m : Nat) (hs : s.Holds (Real.sin (tanAngle fc)))
    (hc : c.Holds (Real.cos (tanAngle fc))) (h : decideQuotient s c = some m) :
    m < 0x7F800000 ∧ IsRounding m (tanUnits fc) := by
  obtain ⟨hd, hlo, hhi⟩ := tan_between_ends fc h₀ h₁ s c hs hc
  exact isRounding_of_decided _ _ _ _ m _ h hd hlo hhi (tanUnits_lt fc h₀ h₁)

/-- tan32 answers the finite word that the real tangent rounds to. -/
theorem tan32_isRounding :
    ∃ m, m < 0x7F800000 ∧ tan32 fc = pack false m ∧ IsRounding m (tanUnits fc) := by
  obtain ⟨hpos, hlt⟩ := tanAngle_range fc h₀ h₁
  have hangle : (piTimes (magnitude fc) (2 ^ 149)).Holds (tanAngle fc) := by
    have := piTimes_holds (magnitude fc) (2 ^ 149) (Nat.two_pow_pos _)
    unfold tanAngle
    rwa [mul_div_assoc, Nat.cast_pow, Nat.cast_ofNat] at this
  have hle : tanAngle fc ≤ Real.pi / 2 := by linarith [Real.pi_pos]
  rcases tan32_cases fc with ⟨m, h, heq⟩ | heq
  · obtain ⟨hfin, hr⟩ := isRounding_of_decideQuotient fc h₀ h₁ _ _ m (sinEnclosure_holds _ _ hangle hpos.le hle)
      (cosEnclosure_holds _ _ hangle hpos.le hle) h
    exact ⟨m, hfin, heq, hr⟩
  · obtain ⟨hfin, hr⟩ := tanNearest_isRounding fc h₀ h₁
    exact ⟨_, hfin, heq, hr⟩

theorem tanUnits_nonneg : 0 ≤ tanUnits fc := by
  obtain ⟨hpos, hlt⟩ := tanAngle_range fc h₀ h₁
  refine mul_nonneg (by positivity) ?_
  exact Real.tan_nonneg_of_nonneg_of_le_pi_div_two hpos.le (by linarith [Real.pi_pos])

end

/-- Settles O60: decided by the enclosure or by the exact comparisons, Tan32 is the rounding of the real tangent. -/
theorem tangentIsCorrectlyRounded : Obligations.TangentIsCorrectlyRounded := by
  intro fc w hgt hlt _
  obtain ⟨hu, h₀, h₁⟩ := tan_argument fc hgt hlt
  obtain ⟨m, hm, heq, hr⟩ := tan32_isRounding fc h₀ h₁
  rw [heq, hu, Int.cast_natCast]
  exact ⟨pack_isFinite _ _ hm, (hr.nearest (by omega) (tanUnits_nonneg fc h₀ h₁) w).1⟩

/-! ## The table of Hann weights -/

/-- The rounding of the squared sine as an enclosure of the sine decides it. -/
def decideSquare (s : Enclosure) : Option Nat :=
  decideRounding (s.lo * s.lo * 2 ^ 149) (2 ^ (2 * enclosureBits)) (s.hi * s.hi * 2 ^ 149) (2 ^ (2 * enclosureBits))

/-- For the 64 angles of the table the rounding is decided. -/
theorem hann_decided : ∀ j < 65, 0 < j → (decideSquare (sinEnclosure (piTimes j 128))).isSome = true := by
  decide +kernel

theorem hann32_of_decided (i n m : Nat) (hi : i ≠ 0)
    (h : decideSquare (sinEnclosure (piTimes (min i (n - i)) n)) = some m) : hann32 i n = pack false m := by
  unfold decideSquare at h
  unfold hann32
  rw [if_neg hi]
  extract_lets s
  have hs : s = sinEnclosure (piTimes (min i (n - i)) n) := rfl
  clear_value s
  rw [hs, h]

/-- The weight is the squared sine of half the angle, for the angle or for what it lacks of a full turn. -/
theorem hann_eq_sin_sq (i : Nat) (hi : i < 128) :
    0.5 * (1 - Real.cos (2 * Real.pi * i / 128)) = Real.sin (Real.pi * (min i (128 - i) : Nat) / 128) ^ 2 := by
  have hcos : Real.cos (2 * Real.pi * i / 128) = Real.cos (2 * (Real.pi * (min i (128 - i) : Nat) / 128)) := by
    rcases Nat.le_total i (128 - i) with h | h
    · rw [min_eq_left h]
      congr 1
      ring
    · rw [min_eq_right h, Nat.cast_sub hi.le, ← Real.cos_two_pi_sub]
      congr 1
      push_cast
      ring
  rw [hcos, Real.cos_two_mul, ← Real.sin_sq_add_cos_sq (Real.pi * (min i (128 - i) : Nat) / 128)]
  ring

/-- A decided rounding of a squared sine is that of the real square. -/
theorem isRounding_of_decideSquare (s : Enclosure) (y : ℝ) (m : Nat) (hy₀ : 0 ≤ y) (hy₁ : y ≤ 1) (hs : s.Holds y)
    (h : decideSquare s = some m) : m < 0x7F800000 ∧ IsRounding m (2 ^ 149 * y ^ 2) := by
  obtain ⟨hlo, hhi⟩ := hs
  have hscale : (0 : ℝ) < ((2 ^ (2 * enclosureBits) : Nat) : ℝ) := Nat.cast_pos.2 (Nat.two_pow_pos _)
  have hsq : 2 ^ 149 * y ^ 2 * ((2 ^ (2 * enclosureBits) : Nat) : ℝ)
      = (y * 2 ^ enclosureBits) * (y * 2 ^ enclosureBits) * 2 ^ 149 := by
    rw [Nat.cast_pow, Nat.cast_ofNat, two_mul, pow_add]
    ring
  have hnn : 0 ≤ y * 2 ^ enclosureBits := by positivity
  have hunit : y ^ 2 ≤ 1 := pow_le_one₀ hy₀ hy₁
  refine isRounding_of_decided _ _ _ _ m _ h (Nat.two_pow_pos _) ?_ (fun _ => ?_) (by linarith)
  · rw [div_le_iff₀ hscale, hsq, Nat.cast_mul, Nat.cast_mul, Nat.cast_pow, Nat.cast_ofNat]
    exact mul_le_mul_of_nonneg_right (mul_self_le_mul_self (Nat.cast_nonneg _) hlo) (by positivity)
  · rw [le_div_iff₀ hscale, hsq, Nat.cast_mul, Nat.cast_mul, Nat.cast_pow, Nat.cast_ofNat]
    exact mul_le_mul_of_nonneg_right (mul_self_le_mul_self hnn hhi) (by positivity)

/-- Every entry but the first is the finite word that the real weight rounds to. -/
theorem hann32_isRounding (i : Nat) (h₀ : i ≠ 0) (hi : i < 128) :
    ∃ m, m < 0x7F800000 ∧ hann32 i 128 = pack false m
      ∧ IsRounding m (2 ^ 149 * (0.5 * (1 - Real.cos (2 * Real.pi * i / 128)))) := by
  obtain ⟨m, hm⟩ := Option.isSome_iff_exists.1 (hann_decided (min i (128 - i)) (by omega) (by omega))
  rw [hann32_of_decided i 128 m h₀ hm, hann_eq_sin_sq i hi]
  have hj : min i (128 - i) ≤ 64 := by omega
  generalize min i (128 - i) = j at *
  have hpi := Real.pi_pos
  have hcast : (j : ℝ) ≤ 64 := by exact_mod_cast hj
  have hnn : 0 ≤ Real.pi * j / 128 := by positivity
  have hle : Real.pi * j / 128 ≤ Real.pi / 2 := by
    linarith [mul_le_mul_of_nonneg_left hcast hpi.le]
  have hangle : (piTimes j 128).Holds (Real.pi * j / 128) := by simpa using piTimes_holds j 128 (by decide)
  obtain ⟨hfin, hr⟩ := isRounding_of_decideSquare _ _ m (Real.sin_nonneg_of_nonneg_of_le_pi hnn (by linarith))
    (Real.sin_le_one _) (sinEnclosure_holds _ _ hangle hnn hle) hm
  exact ⟨m, hfin, rfl, hr⟩

/-- Settles O44: entry 0 is exact, every other entry is a rounding of the real weight. -/
theorem hannTableIsCorrectlyRounded : Obligations.HannTableIsCorrectlyRounded := by
  refine ⟨rfl, fun i w hi _ => ?_⟩
  rcases Nat.eq_zero_or_pos i with rfl | hpos
  · rw [show hann32 0 128 = 0#32 from rfl]
    unfold realDistance
    rw [show units 0#32 = 0 by decide]
    simp
  · obtain ⟨m, hm, heq, hr⟩ := hann32_isRounding i (by omega) hi
    rw [heq]
    refine (hr.nearest (by omega) ?_ w).1
    rw [hann_eq_sin_sq i hi]
    positivity

end Sys2Proof.Machine
end

section
/-! Legal states as propositions, and which turns write the shared state (00_scope.md R18, 70_reset_and_hazards.md
R113). -/

namespace Sys2Proof.Machine

/-- A legal state, as a proposition. -/
theorem state_wf_iff (s : State) :
    s.wf = true ↔ s.shared.wf s.capacity = true ∧ s.p.phase.wf = true ∧ s.q.phase.wf s.capacity = true
      ∧ s.p.bytes.length < 4 ∧ s.q.bytes.length < 4 := by
  simp [State.wf, and_assoc]

/-- Legal shared state, as a proposition: the histories in range and the four ring cursors equal. -/
theorem shared_wf_iff (capacity : Nat) (sh : Shared) :
    sh.wf capacity = true ↔ sh.rings.raw.wf capacity = true ∧ sh.rings.low.wf capacity = true
      ∧ sh.rings.mid.wf capacity = true ∧ sh.rings.high.wf capacity = true ∧ sh.win.wf Config.fftN = true
      ∧ sh.rings.low.cursor = sh.rings.raw.cursor ∧ sh.rings.mid.cursor = sh.rings.raw.cursor
      ∧ sh.rings.high.cursor = sh.rings.raw.cursor := by
  simp [Shared.wf, and_assoc]

/-- In a legal state a query in progress is a command of port Q. -/
theorem query_port_of_wf (s : State) (h : s.wf = true) (i : Instr) (past : List Shared)
    (hp : s.q.phase = .query i past) : i.port = .q := by
  obtain ⟨-, -, hq, -, -⟩ := (state_wf_iff s).1 h
  rw [hp] at hq
  simp only [ConsumerPhase.wf, Bool.and_eq_true, decide_eq_true_eq] at hq
  obtain ⟨hport, -⟩ := hq
  exact hport

theorem exec_query_shared (i : Instr) (s t : State) (hi : i.port = .q) (h : exec i s = .next t) :
    t.shared = s.shared := by
  obtain ⟨r, hr⟩ := exec_query_answers i s hi
  rw [hr] at h
  obtain rfl := Host.Outcome.next.inj h
  exact answer_shared s r

theorem rejectConsumer_shared (s : State) (e : DecodeError) (n : Nat) : (s.rejectConsumer e n).shared = s.shared := by
  rcases rejectConsumer_cases s e n with ⟨-, h⟩ | ⟨-, h⟩
  · rw [h, endConsumer_shared]
  · rw [h]

/-- A finishing turn of port Q writes no shared state, where the query in progress is one of port Q. -/
theorem consumerTurn_shared (s t : State) (hq : ∀ i past, s.q.phase = .query i past → i.port = .q)
    (h : consumerTurn s = .next t) : t.shared = s.shared := by
  rcases consumerTurn_cases s t h with
    rfl | ⟨i, past, hp, he⟩ | ⟨i, rest, -, hd, he⟩ | ⟨e, n, rest, -, -, rfl⟩ | ⟨left, x, rest, -, -, rfl⟩
  · rfl
  · exact exec_query_shared i s t (hq i past hp) he
  · rw [exec_query_shared i _ t (decode_command_port _ _ _ _ hd) he, setConsumerInput_shared]
  · rw [rejectConsumer_shared, setConsumerInput_shared]
  · rw [rejectConsumer_shared, setConsumerInput_shared]

/-- An accepting turn of port Q writes no shared state. -/
theorem acceptTurn_shared (s : State) : (acceptTurn s).shared = s.shared := by
  rcases acceptTurn_cases s with h | ⟨i, rest, -, -, h⟩
  · rw [h]
  · rw [h]

/-- A turn of the host writes the shared state only for a reset. -/
theorem hostTurn_shared (s : State) (h : s.host.head? ≠ some .reset) : (hostTurn s).shared = s.shared := by
  rcases hostTurn_cases s with ⟨-, he⟩ | ⟨e, rest, hl, he⟩
  · rw [he]
  · rw [he, hostEvent_shared _ e fun hr => h (by rw [hl, hr]; rfl)]

/-- Settles O49, turn by turn. -/
theorem onlyProducerAndResetWriteShared : Obligations.OnlyProducerAndResetWriteShared := by
  intro s t hwf
  obtain ⟨hsh, -, hq, -, hhost⟩ := nextTurn_state s
  unfold step
  refine ⟨fun h hturn => ?_, fun h hturn hreset => ?_⟩
  · rw [← hsh]
    rcases hturn with hturn | hturn
    · rw [hturn] at h
      exact consumerTurn_shared _ t (fun i past hp => query_port_of_wf s hwf i past (hq ▸ hp)) h
    · rw [hturn] at h
      obtain rfl := Host.Outcome.next.inj h
      exact acceptTurn_shared _
  · rw [hturn] at h
    obtain rfl := Host.Outcome.next.inj h
    rw [hostTurn_shared _ (by rwa [hhost]), hsh]

end Sys2Proof.Machine
end

section
/-! The four arithmetic operations (00_scope.md R12, R13): what each answers for each class of operands, that a finite
result is the exact one rounded once, and the NaNs. -/

namespace Sys2Proof.Machine

/-! ## Classes of words -/

theorem not_isNaN_of_isInf (w : Word) (h : isInf w = true) : isNaN w = false := by
  rw [isInf_iff] at h
  rw [Bool.eq_false_iff, Ne, isNaN_iff]
  omega

theorem not_isZero_of_isInf (w : Word) (h : isInf w = true) : isZero w = false := by
  rw [isInf_iff] at h
  rw [Bool.eq_false_iff, Ne, isZero_iff]
  omega

theorem pack_infinity (neg : Bool) : pack neg 0x7F800000 = if neg then 0xFF800000#32 else 0x7F800000#32 := by
  cases neg <;> rfl

theorem pack_zero (neg : Bool) : pack neg 0 = if neg then 0x80000000#32 else 0#32 := by
  cases neg <;> rfl

/-- An infinity is known by its sign. -/
theorem eq_of_isInf (w : Word) (h : isInf w = true) : w = if signBit w then 0xFF800000#32 else 0x7F800000#32 := by
  rw [isInf_iff] at h
  rw [← pack_infinity, ← h, pack_of_word]

theorem neg32_isNaN (b : Word) : isNaN (neg32 b) = isNaN b := by
  rw [Bool.eq_iff_iff, isNaN_iff, isNaN_iff, neg32_low]

theorem neg32_isInf (b : Word) : isInf (neg32 b) = isInf b := by
  rw [Bool.eq_iff_iff, isInf_iff, isInf_iff, neg32_low]

theorem neg32_isFinite (b : Word) : isFinite (neg32 b) = isFinite b := by
  rw [Bool.eq_iff_iff, isFinite_iff, isFinite_iff, neg32_low]

theorem neg32_fracField (b : Word) : fracField (neg32 b) = fracField b := by
  rw [fracField_eq, fracField_eq, neg32_low]

/-- abs32 keeps the low 31 bits (R12). -/
theorem abs32_low (a : Word) : (abs32 a).toNat % 2 ^ 31 = a.toNat % 2 ^ 31 := by
  unfold abs32
  rw [BitVec.toNat_and, show (0x7FFFFFFF#32).toNat = 2 ^ 31 - 1 by decide, Nat.and_two_pow_sub_one_eq_mod, Nat.mod_mod]

theorem abs32_isNaN (a : Word) : isNaN (abs32 a) = isNaN a := by
  rw [Bool.eq_iff_iff, isNaN_iff, isNaN_iff, abs32_low]

theorem abs32_fracField (a : Word) : fracField (abs32 a) = fracField a := by
  rw [fracField_eq, fracField_eq, abs32_low]

theorem signBit_of_units_neg (w : Word) (h : units w < 0) : signBit w = true := by
  by_contra hs
  rw [units_of_not_signBit w (by simpa using hs)] at h
  omega

theorem not_signBit_of_units_pos (w : Word) (h : 0 < units w) : signBit w = false := by
  by_contra hs
  unfold units at h
  rw [if_pos (by simpa using hs)] at h
  omega

/-! ## A rounded quotient with its sign -/

theorem pack_toNat_parity (neg : Bool) (m : Nat) (h : m < 2 ^ 31) : (pack neg m).toNat % 2 = m % 2 := by
  rw [pack_toNat neg m h]
  cases neg with
  | false => rw [if_neg Bool.false_ne_true, Nat.zero_add]
  | true => rw [if_pos rfl]; omega

/-- Distances are the same on the other side of zero. -/
theorem realDistance_neg (v w : Word) (x : ℝ) (h : units v = -units w) : realDistance v (-x) = realDistance w x := by
  unfold realDistance
  rw [h, ← abs_neg]
  push_cast
  congr 1
  ring

/-- A rounding under its sign is the nearest word to the real of that sign; of two the even one. -/
theorem IsRounding.nearest_signed {m : Nat} {q : ℝ} (h : IsRounding m q) (hm : m < 2 ^ 31) (hq : 0 ≤ q) (neg : Bool)
    (w : Word) :
    realDistance (pack neg m) (if neg then -q else q) ≤ realDistance w (if neg then -q else q)
    ∧ (units w ≠ units (pack neg m) →
      realDistance w (if neg then -q else q) ≤ realDistance (pack neg m) (if neg then -q else q) →
        (pack neg m).toNat % 2 = 0) := by
  rw [pack_toNat_parity neg m hm]
  cases neg with
  | false => exact h.nearest hm hq w
  | true =>
    have hself : units (pack true m) = -units (pack false m) := by
      rw [units_pack _ _ hm, units_pack _ _ hm]; rfl
    have hw : units w = -units (neg32 w) := by rw [neg32_units, neg_neg]
    obtain ⟨hnear, htie⟩ := h.nearest hm hq (neg32 w)
    simp only [if_true]
    rw [realDistance_neg _ _ q hself, realDistance_neg _ _ q hw]
    exact ⟨hnear, fun hne => htie fun he => hne (by rw [hw, he, hself])⟩

/-- Equal quotients x/y and n/d are on the same side of the bound A/2. -/
theorem bound_le_iff_of_quotient_eq (A x y n d : Nat) (hy : 0 < y) (hd : 0 < d) (hq : x * d = n * y) :
    A * y ≤ 2 * x ↔ A * d ≤ 2 * n := by
  calc A * y ≤ 2 * x ↔ A * y * d ≤ 2 * x * d := (Nat.mul_le_mul_right_iff hd).symm
    _ ↔ A * d * y ≤ 2 * n * y := by rw [Nat.mul_assoc 2 x, hq, Nat.mul_right_comm A, Nat.mul_assoc 2 n]
    _ ↔ A * d ≤ 2 * n := Nat.mul_le_mul_right_iff hy

/-- The quotient of two integers by its magnitude and the sign of their product. -/
theorem quotient_eq_signed (neg : Bool) (x y : Int) (hneg : x * y < 0 → neg = true) (hpos : 0 < x * y → neg = false) :
    (x : ℝ) / y = if neg then -|(x : ℝ) / y| else |(x : ℝ) / y| := by
  have hsame : (x : ℝ) / y = ((x * y : Int) : ℝ) / ((y : ℝ) * y) := by
    rcases eq_or_ne (y : ℝ) 0 with h | h
    · simp [h]
    · push_cast
      rw [mul_div_mul_right _ _ h]
  have hsq : (0 : ℝ) ≤ (y : ℝ) * y := mul_self_nonneg _
  cases neg with
  | false =>
    have hprod : (0 : ℝ) ≤ ((x * y : Int) : ℝ) := by
      exact_mod_cast not_lt.1 fun h => Bool.false_ne_true (hneg h)
    rw [if_neg Bool.false_ne_true, abs_of_nonneg (hsame ▸ div_nonneg hprod hsq)]
  | true =>
    have hprod : ((x * y : Int) : ℝ) ≤ 0 := by
      exact_mod_cast not_lt.1 fun h => Bool.false_ne_true (hpos h).symm
    rw [if_pos rfl, abs_of_nonpos (hsame ▸ div_nonpos_of_nonpos_of_nonneg hprod hsq), neg_neg]

/-- The quotient x/y rounded once: the word of its sign whose low 31 bits are those of the rounded magnitude n/d. -/
theorem roundsTo_pack (neg : Bool) (x y : Int) (n d : Nat) (hy : y ≠ 0) (hd : 0 < d)
    (hq : x.natAbs * d = n * y.natAbs) (hneg : x * y < 0 → neg = true) (hpos : 0 < x * y → neg = false) :
    roundsTo (pack neg (roundUnits n d)) x y := by
  have hover : (2 ^ 25 - 1) * 2 ^ 253 * |y| ≤ 2 * |x| ↔ roundUnits n d = 0x7F800000 := by
    rw [roundUnits_eq_infinity_iff n d hd, ← bound_le_iff_of_quotient_eq _ _ _ n d (Int.natAbs_pos.2 hy) hd hq,
      ← Int.ofNat_le, Nat.cast_mul, Nat.cast_mul, Nat.cast_mul, Int.natCast_natAbs, Int.natCast_natAbs]
    norm_num
  constructor
  · intro h
    have hx : x ≠ 0 := by
      rintro rfl
      have := abs_pos.2 hy
      rw [abs_zero] at h
      linarith
    rw [hover.1 h, pack_infinity]
    rcases lt_or_gt_of_ne (mul_ne_zero hx hy) with hs | hs
    · rw [hneg hs, if_pos rfl, if_pos hs]
    · rw [hpos hs, if_neg Bool.false_ne_true, if_neg hs.not_gt]
  · intro h
    have hfin : roundUnits n d < 0x7F800000 :=
      lt_of_le_of_ne (roundUnits_le n d) fun he => absurd (hover.2 he) (not_le.2 h)
    have hyr : (y : ℝ) ≠ 0 := by exact_mod_cast hy
    have hdr : (d : ℝ) ≠ 0 := by exact_mod_cast hd.ne'
    have habs : |(x : ℝ) / y| = (n : ℝ) / d := by
      rw [abs_div, div_eq_div_iff (abs_ne_zero.2 hyr) hdr, ← Int.cast_abs, ← Int.cast_abs, ← Nat.cast_natAbs,
        ← Nat.cast_natAbs]
      exact_mod_cast hq
    refine ⟨pack_isFinite _ _ hfin, fun w _ => ?_⟩
    rw [noFarther_iff _ _ x y hy, noFarther_iff _ _ x y hy, quotient_eq_signed neg x y hneg hpos, habs]
    exact (isRounding_of_finite n d hd hfin).nearest_signed (by omega) (by positivity) neg w

/-! ## What each operation answers -/

theorem add32_of_nan (a b : Word) (h : isNaN a = true ∨ isNaN b = true) : add32 a b = qNaN := by
  unfold add32
  rw [if_pos (by simpa using h)]

theorem add32_of_finite (a b : Word) (ha : isFinite a = true) (hb : isFinite b = true) :
    add32 a b = if units a + units b = 0 then pack (signBit a && signBit b) 0
      else pack (decide (units a + units b < 0)) (roundUnits (units a + units b).natAbs 1) := by
  obtain ⟨na, ia⟩ := not_isNaN_of_isFinite a ha
  obtain ⟨nb, ib⟩ := not_isNaN_of_isFinite b hb
  unfold add32
  simp only [na, ia, nb, ib, Bool.or_self, Bool.false_eq_true, if_false]

/-- Infinities that cancel. -/
theorem add32_of_infs (a b : Word) (ha : isInf a = true) (hb : isInf b = true) (hs : signBit a ≠ signBit b) :
    add32 a b = qNaN := by
  unfold add32
  simp [ha, hb, hs]

/-- An infinity stays when it meets no other of the other sign. -/
theorem add32_of_inf (a b : Word) (ha : isInf a = true) (nb : isNaN b = false)
    (h : isInf b = false ∨ signBit a = signBit b) : add32 a b = a ∧ add32 b a = a := by
  have na := not_isNaN_of_isInf a ha
  cases ib : isInf b with
  | false => constructor <;> simp [add32, na, nb, ha, ib]
  | true =>
    have hs : signBit a = signBit b := h.resolve_left (by simp [ib])
    have he : b = a := by rw [eq_of_isInf a ha, eq_of_isInf b ib, hs]
    subst he
    constructor <;> simp [add32, na, ha]

theorem mul32_comm (a b : Word) : mul32 a b = mul32 b a := by
  unfold mul32
  rw [Bool.or_comm (isNaN a), Bool.or_comm (isInf a), Bool.or_comm (isZero a), Nat.mul_comm, bne_comm]

theorem mul32_of_nan (a b : Word) (h : isNaN a = true ∨ isNaN b = true) : mul32 a b = qNaN := by
  unfold mul32
  rw [if_pos (by simpa using h)]

theorem mul32_of_finite (a b : Word) (ha : isFinite a = true) (hb : isFinite b = true) :
    mul32 a b = pack (signBit a != signBit b) (roundUnits (magnitude a * magnitude b) (2 ^ 149)) := by
  obtain ⟨na, ia⟩ := not_isNaN_of_isFinite a ha
  obtain ⟨nb, ib⟩ := not_isNaN_of_isFinite b hb
  unfold mul32
  rw [if_neg (by simp [na, nb]), if_neg (by simp [ia, ib])]

theorem mul32_of_inf (a b : Word) (ha : isInf a = true) (nb : isNaN b = false) :
    mul32 a b = if isZero b then qNaN else pack (signBit a != signBit b) 0x7F800000 := by
  unfold mul32
  rw [if_neg (by simp [not_isNaN_of_isInf a ha, nb]), if_pos (by simp [ha]), not_isZero_of_isInf a ha, Bool.false_or]

theorem div32_of_nan (a b : Word) (h : isNaN a = true ∨ isNaN b = true) : div32 a b = qNaN := by
  unfold div32
  rw [if_pos (by simpa using h)]

theorem div32_of_finite (a b : Word) (ha : isFinite a = true) (hb : isFinite b = true) :
    div32 a b = if isZero b then (if isZero a then qNaN else pack (signBit a != signBit b) 0x7F800000)
      else pack (signBit a != signBit b) (roundUnits (magnitude a * 2 ^ 149) (magnitude b)) := by
  obtain ⟨na, ia⟩ := not_isNaN_of_isFinite a ha
  obtain ⟨nb, ib⟩ := not_isNaN_of_isFinite b hb
  unfold div32
  rw [if_neg (by simp [na, nb]), if_neg (by simp [ia]), if_neg (by simp [ib])]

theorem div32_of_inf_left (a b : Word) (ha : isInf a = true) (nb : isNaN b = false) :
    div32 a b = if isInf b then qNaN else pack (signBit a != signBit b) 0x7F800000 := by
  unfold div32
  rw [if_neg (by simp [not_isNaN_of_isInf a ha, nb]), if_pos ha]

theorem div32_of_inf_right (a b : Word) (ha : isInf a = false) (na : isNaN a = false) (hb : isInf b = true) :
    div32 a b = pack (signBit a != signBit b) 0 := by
  unfold div32
  rw [if_neg (by simp [na, not_isNaN_of_isInf b hb]), if_neg (by simp [ha]), if_pos hb]

/-! ## The exact result rounded once -/

theorem add32_roundsTo (a b : Word) (ha : isFinite a = true) (hb : isFinite b = true) :
    roundsTo (add32 a b) (units a + units b) 1 := by
  have key : ∀ neg, (units a + units b < 0 → neg = true) → (0 < units a + units b → neg = false) →
      roundsTo (pack neg (roundUnits (units a + units b).natAbs 1)) (units a + units b) 1 := fun neg hneg hpos =>
    roundsTo_pack neg _ 1 _ 1 one_ne_zero Nat.one_pos rfl (by rwa [mul_one]) (by rwa [mul_one])
  rw [add32_of_finite a b ha hb]
  split
  · next h =>
    have := key (signBit a && signBit b)
    rw [h, Int.natAbs_zero, roundUnits_exact 0 0 (by decide) rfl] at this
    rw [h]
    exact this (fun h => absurd h (lt_irrefl _)) (fun h => absurd h (lt_irrefl _))
  · exact key _ (fun h => decide_eq_true h) (fun h => decide_eq_false h.not_gt)

/-- The sign of a product of finite values, scaled by a positive integer, is the two signs compared. -/
theorem signs_of_product (a b : Word) (k : Int) (hk : 0 < k) :
    (units a * units b * k < 0 → (signBit a != signBit b) = true)
    ∧ (0 < units a * units b * k → (signBit a != signBit b) = false) := by
  constructor
  · intro h
    rcases mul_neg_iff.1 (neg_of_mul_neg_left h hk.le) with ⟨h₁, h₂⟩ | ⟨h₁, h₂⟩
    · rw [not_signBit_of_units_pos a h₁, signBit_of_units_neg b h₂]; rfl
    · rw [signBit_of_units_neg a h₁, not_signBit_of_units_pos b h₂]; rfl
  · intro h
    rcases mul_pos_iff.1 (pos_of_mul_pos_left h hk.le) with ⟨h₁, h₂⟩ | ⟨h₁, h₂⟩
    · rw [not_signBit_of_units_pos a h₁, not_signBit_of_units_pos b h₂]; rfl
    · rw [signBit_of_units_neg a h₁, signBit_of_units_neg b h₂]; rfl

theorem mul32_roundsTo (a b : Word) (ha : isFinite a = true) (hb : isFinite b = true) :
    roundsTo (mul32 a b) (units a * units b) (2 ^ 149) := by
  obtain ⟨hneg, hpos⟩ := signs_of_product a b (2 ^ 149) (by positivity)
  rw [mul32_of_finite a b ha hb]
  refine roundsTo_pack _ _ _ _ _ (by positivity) (Nat.two_pow_pos _) ?_ hneg hpos
  rw [Int.natAbs_mul, units_natAbs, units_natAbs, Int.natAbs_pow]
  rfl

theorem magnitude_pos_of_not_isZero (b : Word) (h : isZero b = false) : 0 < magnitude b :=
  Nat.pos_of_ne_zero fun h0 => by rw [(magnitude_eq_zero_iff b).1 h0] at h; cases h

theorem div32_roundsTo (a b : Word) (ha : isFinite a = true) (hb : isFinite b = true) (hz : isZero b = false) :
    roundsTo (div32 a b) (units a * 2 ^ 149) (units b) := by
  obtain ⟨hneg, hpos⟩ := signs_of_product a b (2 ^ 149) (by positivity)
  have hmag := magnitude_pos_of_not_isZero b hz
  rw [div32_of_finite a b ha hb, hz, if_neg Bool.false_ne_true]
  refine roundsTo_pack _ _ _ _ _ ?_ hmag ?_ (by rwa [mul_right_comm]) (by rwa [mul_right_comm])
  · rw [← Int.natAbs_pos, units_natAbs]
    exact hmag
  · rw [Int.natAbs_mul, units_natAbs, units_natAbs, Int.natAbs_pow]
    rfl

theorem sub32_roundsTo (a b : Word) (ha : isFinite a = true) (hb : isFinite b = true) :
    roundsTo (sub32 a b) (units a - units b) 1 := by
  have := add32_roundsTo a (neg32 b) ha (by rwa [neg32_isFinite])
  rwa [neg32_units, ← sub_eq_add_neg] at this

/-! ## Signs of zeros -/

theorem add32_zero_sum (a b : Word) (ha : isFinite a = true) (hb : isFinite b = true) (h : units a + units b = 0) :
    add32 a b = if signBit a && signBit b then 0x80000000#32 else 0#32 := by
  rw [add32_of_finite a b ha hb, if_pos h, pack_zero]

theorem sub32_zero_difference (a b : Word) (ha : isFinite a = true) (hb : isFinite b = true) (h : units a = units b) :
    sub32 a b = if signBit a && !signBit b then 0x80000000#32 else 0#32 := by
  rw [← neg32_signBit]
  exact add32_zero_sum a (neg32 b) ha (by rwa [neg32_isFinite]) (by rw [neg32_units, h]; ring)

/-! ## The statement's three parts -/

theorem arithmetic_of_finite (a b : Word) (ha : isFinite a = true) (hb : isFinite b = true) :
    roundsTo (add32 a b) (units a + units b) 1
    ∧ roundsTo (sub32 a b) (units a - units b) 1
    ∧ roundsTo (mul32 a b) (units a * units b) (2 ^ 149)
    ∧ (isZero b = false → roundsTo (div32 a b) (units a * 2 ^ 149) (units b))
    ∧ (units a + units b = 0 → add32 a b = if signBit a && signBit b then 0x80000000#32 else 0#32)
    ∧ (units a = units b → sub32 a b = if signBit a && !signBit b then 0x80000000#32 else 0#32)
    ∧ signBit (mul32 a b) = (signBit a != signBit b)
    ∧ (isZero b = false → signBit (div32 a b) = (signBit a != signBit b))
    ∧ (isZero a = false → isZero b = true →
        div32 a b = if signBit a != signBit b then 0xFF800000#32 else 0x7F800000#32)
    ∧ (isZero a = true → isZero b = true → isNaN (div32 a b) = true) := by
  have hdiv := div32_of_finite a b ha hb
  refine ⟨add32_roundsTo a b ha hb, sub32_roundsTo a b ha hb, mul32_roundsTo a b ha hb, div32_roundsTo a b ha hb,
    add32_zero_sum a b ha hb, sub32_zero_difference a b ha hb, ?_, fun hz => ?_, fun hza hzb => ?_, fun hza hzb => ?_⟩
  · rw [mul32_of_finite a b ha hb, pack_signBit _ _ (roundUnits_lt _ _)]
  · rw [hdiv, hz, if_neg Bool.false_ne_true, pack_signBit _ _ (roundUnits_lt _ _)]
  · rw [hdiv, hza, hzb, if_pos rfl, if_neg Bool.false_ne_true, pack_infinity]
  · rw [hdiv, hza, hzb, if_pos rfl, if_pos rfl]
    rfl

theorem arithmetic_of_nan (a b : Word) (h : isNaN a = true ∨ isNaN b = true) :
    add32 a b = 0x7FC00000#32 ∧ sub32 a b = 0x7FC00000#32 ∧ mul32 a b = 0x7FC00000#32 ∧ div32 a b = 0x7FC00000#32 :=
  ⟨add32_of_nan a b h, add32_of_nan a (neg32 b) (by rwa [neg32_isNaN]), mul32_of_nan a b h, div32_of_nan a b h⟩

/-- Infinite operands of the sum and the difference. -/
theorem add_sub_of_inf (a b : Word) (ha : isInf a = true) (nb : isNaN b = false) :
    (isInf b = true → signBit a ≠ signBit b → isNaN (add32 a b) = true ∧ isNaN (add32 b a) = true)
    ∧ (isInf b = false ∨ signBit a = signBit b → add32 a b = a ∧ add32 b a = a)
    ∧ (isInf b = true → signBit a = signBit b → isNaN (sub32 a b) = true ∧ isNaN (sub32 b a) = true)
    ∧ (isInf b = false ∨ signBit a ≠ signBit b → sub32 a b = a
        ∧ sub32 b a = if signBit a then 0x7F800000#32 else 0xFF800000#32) := by
  have iNa : isInf (neg32 a) = true := by rwa [neg32_isInf]
  refine ⟨fun ib hs => ?_, add32_of_inf a b ha nb, fun ib hs => ?_, fun h => ⟨?_, ?_⟩⟩
  · rw [add32_of_infs a b ha ib hs, add32_of_infs b a ib ha hs.symm]
    exact ⟨rfl, rfl⟩
  · unfold sub32
    rw [add32_of_infs a (neg32 b) ha (by rwa [neg32_isInf]) (by rw [neg32_signBit, hs]; simp),
      add32_of_infs b (neg32 a) ib iNa (by rw [neg32_signBit, hs]; simp)]
    exact ⟨rfl, rfl⟩
  · exact (add32_of_inf a (neg32 b) ha (by rwa [neg32_isNaN])
      (h.imp (by rw [neg32_isInf]; exact id) fun hs => by rw [neg32_signBit]; exact Bool.eq_not.2 hs)).1
  · have hstay := (add32_of_inf (neg32 a) b iNa nb
      (h.imp_right fun hs => by rw [neg32_signBit]; exact Bool.not_eq.2 hs)).2
    unfold sub32
    rw [hstay, eq_of_isInf _ iNa, neg32_signBit]
    cases signBit a <;> rfl

/-- Infinite operands of the product and the quotient. -/
theorem mul_div_of_inf (a b : Word) (ha : isInf a = true) (nb : isNaN b = false) :
    (isZero b = true → isNaN (mul32 a b) = true ∧ isNaN (mul32 b a) = true)
    ∧ (isZero b = false → mul32 a b = (if signBit a != signBit b then 0xFF800000#32 else 0x7F800000#32)
        ∧ mul32 b a = mul32 a b)
    ∧ (isInf b = true → isNaN (div32 a b) = true)
    ∧ (isInf b = false → div32 a b = (if signBit a != signBit b then 0xFF800000#32 else 0x7F800000#32)
        ∧ div32 b a = if signBit a != signBit b then 0x80000000#32 else 0#32) := by
  refine ⟨fun hz => ?_, fun hz => ⟨?_, mul32_comm b a⟩, fun ib => ?_, fun ib => ⟨?_, ?_⟩⟩
  · rw [mul32_comm b a, mul32_of_inf a b ha nb, hz, if_pos rfl]
    exact ⟨rfl, rfl⟩
  · rw [mul32_of_inf a b ha nb, hz, if_neg Bool.false_ne_true, pack_infinity]
  · rw [div32_of_inf_left a b ha nb, ib, if_pos rfl]
    rfl
  · rw [div32_of_inf_left a b ha nb, ib, if_neg Bool.false_ne_true, pack_infinity]
  · rw [div32_of_inf_right b a ib nb ha, pack_zero, bne_comm]

/-- Settles O56: the finite operands by the rounded quotient, the others by what each operation answers for their class. -/
theorem arithmeticRoundsToNearest : Obligations.ArithmeticRoundsToNearest := by
  refine ⟨arithmetic_of_finite, arithmetic_of_nan, fun a b ha nb => ?_⟩
  obtain ⟨hadd, hadd', hsub, hsub'⟩ := add_sub_of_inf a b ha nb
  exact ⟨hadd, hadd', hsub, hsub', mul_div_of_inf a b ha nb⟩

/-! ## NaNs -/

theorem pack_roundUnits_not_isNaN (neg : Bool) (n d : Nat) : isNaN (pack neg (roundUnits n d)) = false := by
  rw [Bool.eq_false_iff, Ne, isNaN_iff, pack_low _ _ (roundUnits_lt n d), not_lt]
  exact roundUnits_le n d

/-- What an operation of R13 may answer: the canonical NaN or no NaN. -/
def Canonical (w : Word) : Prop := w = qNaN ∨ isNaN w = false

theorem Canonical.eq_qNaN {w : Word} (h : Canonical w) (hn : isNaN w = true) : w = qNaN :=
  h.resolve_right (by simp [hn])

theorem canonical_qNaN : Canonical qNaN := .inl rfl

theorem canonical_roundUnits (neg : Bool) (n d : Nat) : Canonical (pack neg (roundUnits n d)) :=
  .inr (pack_roundUnits_not_isNaN neg n d)

theorem canonical_infinity (neg : Bool) : Canonical (pack neg 0x7F800000) := .inr (by cases neg <;> rfl)

theorem canonical_zero (neg : Bool) : Canonical (pack neg 0) := .inr (by cases neg <;> rfl)

theorem add32_canonical (a b : Word) : Canonical (add32 a b) := by
  unfold add32
  split
  · exact canonical_qNaN
  split
  · next ia =>
    split
    · exact canonical_qNaN
    · exact .inr (not_isNaN_of_isInf a ia)
  split
  · next ib => exact .inr (not_isNaN_of_isInf b ib)
  split
  · exact canonical_zero _
  · exact canonical_roundUnits _ _ _

theorem mul32_canonical (a b : Word) : Canonical (mul32 a b) := by
  unfold mul32
  split
  · exact canonical_qNaN
  split
  · split
    · exact canonical_qNaN
    · exact canonical_infinity _
  · exact canonical_roundUnits _ _ _

theorem div32_canonical (a b : Word) : Canonical (div32 a b) := by
  unfold div32
  split
  · exact canonical_qNaN
  split
  · split
    · exact canonical_qNaN
    · exact canonical_infinity _
  split
  · exact canonical_zero _
  split
  · split
    · exact canonical_qNaN
    · exact canonical_infinity _
  · exact canonical_roundUnits _ _ _

theorem sqrt32_canonical (a : Word) : Canonical (sqrt32 a) := by
  unfold sqrt32
  split
  · exact canonical_qNaN
  next na =>
  split
  · exact .inr (by simpa using na)
  split
  · exact canonical_qNaN
  split
  · exact .inr (by simpa using na)
  · exact canonical_roundUnits _ _ _

/-- A FEED in a legal state stores the sample in the raw ring and in the window (R89). -/
theorem feed_stores_sample (s t : State) (x : Word) (hwf : s.wf = true) (h : exec (.feed x) s = .next t) :
    memRead t.shared.rings.raw.mem s.shared.rings.raw.cursor = x
    ∧ memRead t.shared.win.mem s.shared.win.cursor = x := by
  rw [exec_feed] at h
  obtain rfl := Host.Outcome.next.inj h
  obtain ⟨hshared, -⟩ := (state_wf_iff s).1 hwf
  obtain ⟨hraw, -, -, -, hwin, -⟩ := (shared_wf_iff _ _).1 hshared
  rw [endProducer_shared, State.feedStep, commit_shared]
  exact ⟨ringPush_read_cursor _ _ _ hraw, ringPush_read_cursor _ _ _ hwin⟩

/-- Settles O58, operation by operation. -/
theorem arithmeticNaNsAreCanonical : Obligations.ArithmeticNaNsAreCanonical := by
  refine ⟨fun a b => ⟨(add32_canonical a b).eq_qNaN, (add32_canonical a (neg32 b)).eq_qNaN, (mul32_canonical a b).eq_qNaN,
    (div32_canonical a b).eq_qNaN, (sqrt32_canonical a).eq_qNaN⟩, fun a ha => ?_, feed_stores_sample⟩
  rw [neg32_isNaN, abs32_isNaN]
  exact ⟨ha, neg32_fracField a, ha, abs32_fracField a⟩

end Sys2Proof.Machine
end

section
/-! What one step can do to the shared state (00_scope.md R18, 44_commands.md R89 to R91), and that the coefficients follow
the sample rate through each of these (41_filter_bank.md R69, R70). -/

namespace Sys2Proof.Machine

/-! ## The writes of the shared state -/

/-- Every way a command can end: a query's answer, an OK without a write, one FEED step, an open block, or a new rate. -/
theorem exec_cases (i : Instr) (s t : State) (h : exec i s = .next t) :
    (∃ r, t = s.answer r)
    ∨ t = s.endProducer .ok []
    ∨ (∃ x, t = (s.feedStep x).endProducer .ok [])
    ∨ (∃ cnt : BitVec 16, cnt.toNat ≠ 0 ∧ t = { s with p := { s.p with phase := .block cnt.toNat } })
    ∨ ∃ rate, t = { (s.commit (rateShared s.draws s.shared rate)).endProducer .ok [] with draws := s.draws + 1 } := by
  cases hport : i.port with
  | q =>
    obtain ⟨r, hr⟩ := exec_query_answers i s hport
    exact .inl ⟨r, (Host.Outcome.next.inj (hr.symm.trans h)).symm⟩
  | p =>
    cases i with
    | feed x => exact .inr (.inr (.inl ⟨x, (Host.Outcome.next.inj h).symm⟩))
    | feedBlock cnt =>
      rcases exec_feedBlock cnt s with ⟨-, he⟩ | ⟨hcnt, he⟩
      · exact .inr (.inl (Host.Outcome.next.inj (h.symm.trans he)))
      · exact .inr (.inr (.inr (.inl ⟨cnt, hcnt, Host.Outcome.next.inj (h.symm.trans he)⟩)))
    | setSampleRate rate =>
      rcases exec_setSampleRate rate s with ⟨-, he⟩ | ⟨-, he⟩
      · exact .inr (.inl (Host.Outcome.next.inj (h.symm.trans he)))
      · exact .inr (.inr (.inr (.inr ⟨rate, Host.Outcome.next.inj (h.symm.trans he)⟩)))
    | _ => cases hport

/-- What one step can make of the shared state: nothing, one FEED step, a new rate with its coefficients, or the reset. -/
inductive SharedMove (capacity : Nat) (sh : Shared) : Shared → Prop where
  | keep : SharedMove capacity sh sh
  | feed (x : Word) : SharedMove capacity sh (feedShared capacity sh x)
  | setRate (draw : Nat) (rate : Word) : SharedMove capacity sh (rateShared draw sh rate)
  | reset : SharedMove capacity sh Shared.reset

@[simp] theorem feedStep_shared (s : State) (x : Word) : (s.feedStep x).shared = feedShared s.capacity s.shared x :=
  commit_shared _ _

theorem rejectProducer_shared (s : State) (e : DecodeError) (n : Nat) : (s.rejectProducer e n).shared = s.shared := by
  rcases rejectProducer_cases s e n with ⟨-, h⟩ | ⟨-, h⟩
  · rw [h, endProducer_shared]
  · rw [h]

theorem blockSample_shared (s : State) (left : Nat) (x : Word) :
    (s.blockSample left x).shared = feedShared s.capacity s.shared x := by
  rcases blockSample_cases s left x with ⟨-, h⟩ | ⟨-, h⟩
  · rw [h, endProducer_shared, feedStep_shared]
  · rw [h]; exact feedStep_shared s x

theorem exec_sharedMove (i : Instr) (s t : State) (h : exec i s = .next t) :
    SharedMove s.capacity s.shared t.shared := by
  rcases exec_cases i s t h with ⟨r, rfl⟩ | rfl | ⟨x, rfl⟩ | ⟨cnt, -, rfl⟩ | ⟨rate, rfl⟩
  · rw [answer_shared]; exact .keep
  · exact .keep
  · rw [endProducer_shared, feedStep_shared]; exact .feed x
  · exact .keep
  · rw [endProducer_shared, commit_shared]; exact .setRate s.draws rate

theorem producerTurn_sharedMove (s t : State) (h : producerTurn s = .next t) :
    SharedMove s.capacity s.shared t.shared := by
  rcases producerTurn_cases s t h with
    rfl | ⟨i, rest, -, -, he⟩ | ⟨e, n, rest, -, -, rfl⟩ | ⟨left, x, rest, -, -, rfl⟩ | ⟨left, x, rest, -, -, rfl⟩
  · exact .keep
  · exact exec_sharedMove i (s.setProducerInput rest) t he
  · rw [rejectProducer_shared]; exact .keep
  · rw [rejectProducer_shared]; exact .keep
  · rw [blockSample_shared]; exact .feed x

theorem consumerTurn_sharedMove (s t : State) (h : consumerTurn s = .next t) :
    SharedMove s.capacity s.shared t.shared := by
  rcases consumerTurn_cases s t h with
    rfl | ⟨i, past, -, he⟩ | ⟨i, rest, -, -, he⟩ | ⟨e, n, rest, -, -, rfl⟩ | ⟨left, x, rest, -, -, rfl⟩
  · exact .keep
  · exact exec_sharedMove i s t he
  · exact exec_sharedMove i (s.setConsumerInput rest) t he
  · rw [rejectConsumer_shared]; exact .keep
  · rw [rejectConsumer_shared]; exact .keep

theorem hostTurn_sharedMove (s : State) : SharedMove s.capacity s.shared (hostTurn s).shared := by
  rcases hostTurn_cases s with ⟨-, h⟩ | ⟨e, rest, -, h⟩
  · rw [h]; exact .keep
  · rw [h]
    by_cases hreset : e = .reset
    · rw [hreset]; exact .reset
    · rw [hostEvent_shared _ e hreset]; exact .keep

@[simp] theorem nextTurn_capacity (s : State) : (nextTurn s).2.capacity = s.capacity := by
  obtain ⟨-, -, -, hcap, -⟩ := nextTurn_state s
  rw [State.capacity, State.capacity, hcap]

/-- A step is the turn of one of the four agents. -/
theorem step_cases (s t : State) (h : step s = .next t) :
    producerTurn (nextTurn s).2 = .next t ∨ consumerTurn (nextTurn s).2 = .next t
    ∨ t = acceptTurn (nextTurn s).2 ∨ t = hostTurn (nextTurn s).2 := by
  unfold step at h
  cases hturn : (nextTurn s).1 with
  | producer => rw [hturn] at h; exact .inl h
  | consumer => rw [hturn] at h; exact .inr (.inl h)
  | accept => rw [hturn] at h; exact .inr (.inr (.inl (Host.Outcome.next.inj h).symm))
  | host => rw [hturn] at h; exact .inr (.inr (.inr (Host.Outcome.next.inj h).symm))

theorem step_sharedMove (s t : State) (h : step s = .next t) : SharedMove s.capacity s.shared t.shared := by
  obtain ⟨hshared, -⟩ := nextTurn_state s
  rw [← hshared, ← nextTurn_capacity s]
  rcases step_cases s t h with h | h | rfl | rfl
  · exact producerTurn_sharedMove _ t h
  · exact consumerTurn_sharedMove _ t h
  · rw [acceptTurn_shared]; exact .keep
  · exact hostTurn_sharedMove _

/-! ## The coefficients follow the rate -/

/-- A FEED step writes neither the coefficients nor the rate (R67). -/
theorem feedShared_coeffsFollowRate (c : Nat) (sh : Shared) (x : Word) (h : sh.coeffsFollowRate) :
    (feedShared c sh x).coeffsFollowRate := h

/-- A reconfiguration derives all thirty from the new rate, whatever they were (R70). -/
theorem rateShared_coeffsFollowRate (draw : Nat) (sh : Shared) (rate : Word) :
    (rateShared draw sh rate).coeffsFollowRate := by
  intro hvalid
  rw [rateShared_sampleRate] at hvalid ⊢
  rw [rateShared_bank, configure_of_valid draw sh.bank rate hvalid]
  exact ⟨rfl, rfl, rfl, rfl, rfl, rfl⟩

/-- The rate at reset gives no valid cutoff (R25, R66). -/
theorem reset_coeffsFollowRate : Shared.reset.coeffsFollowRate := fun hvalid =>
  absurd hvalid (by decide +kernel)

theorem SharedMove.coeffsFollowRate {capacity : Nat} {sh sh' : Shared} (h : SharedMove capacity sh sh')
    (hsh : sh.coeffsFollowRate) : sh'.coeffsFollowRate := by
  cases h with
  | keep => exact hsh
  | feed x => exact feedShared_coeffsFollowRate capacity sh x hsh
  | setRate draw rate => exact rateShared_coeffsFollowRate draw sh rate
  | reset => exact reset_coeffsFollowRate

/-- Settles O25, by what a step can do to the shared state. -/
theorem stepKeepsCoefficientsOfTheRate : Obligations.StepKeepsCoefficientsOfTheRate := fun s t hs h =>
  (step_sharedMove s t h).coeffsFollowRate hs

end Sys2Proof.Machine
end

section
/-! Every turn keeps a legal state legal (10_state.md R22 to R24, R30, 20_memory.md R35): the two ports and the shared state
are written through three rules, and every operation of a turn is one of these writes or two in a row. -/

namespace Sys2Proof.Machine

/-! ## The rules -/

/-- A write of port P keeps a legal state legal when its phase and its bytes are in range. -/
theorem wf_of_producerPort (s : State) (port : Port ProducerPhase) (hs : s.wf = true) (hphase : port.phase.wf = true)
    (hbytes : port.bytes.length < 4) : ({ s with p := port } : State).wf = true := by
  obtain ⟨hshared, -, hq, -, hqbytes⟩ := (state_wf_iff s).1 hs
  exact (state_wf_iff _).2 ⟨hshared, hphase, hq, hbytes, hqbytes⟩

/-- The same of port Q. -/
theorem wf_of_consumerPort (s : State) (port : Port ConsumerPhase) (hs : s.wf = true)
    (hphase : port.phase.wf s.capacity = true) (hbytes : port.bytes.length < 4) :
    ({ s with q := port } : State).wf = true := by
  obtain ⟨hshared, hp, -, hpbytes, -⟩ := (state_wf_iff s).1 hs
  exact (state_wf_iff _).2 ⟨hshared, hp, hphase, hpbytes, hbytes⟩

theorem query_wf_iff (capacity : Nat) (i : Instr) (past : List Shared) :
    (ConsumerPhase.query i past).wf capacity = true ↔ i.port = .q ∧ ∀ sh ∈ past, sh.wf capacity = true := by
  simp [ConsumerPhase.wf]

/-- A legal shared state may replace a legal one: a query in progress then remembers one legal state more. -/
theorem commit_wf (s : State) (sh : Shared) (hs : s.wf = true) (hsh : sh.wf s.capacity = true) :
    (s.commit sh).wf = true := by
  obtain ⟨hshared, hp, hq, hpbytes, hqbytes⟩ := (state_wf_iff s).1 hs
  cases hphase : s.q.phase with
  | query i past =>
    rw [hphase, query_wf_iff] at hq
    obtain ⟨hport, hpast⟩ := hq
    rw [commit_of_query s sh i past hphase]
    have hquery : (ConsumerPhase.query i (past ++ [s.shared])).wf s.capacity = true :=
      (query_wf_iff _ _ _).2 ⟨hport, List.forall_mem_append.2 ⟨hpast, List.forall_mem_singleton.2 hshared⟩⟩
    exact (state_wf_iff _).2 ⟨hsh, hp, hquery, hpbytes, hqbytes⟩
  | command =>
    rw [commit_of_not_query s sh (by simp [hphase])]
    exact (state_wf_iff _).2 ⟨hsh, hp, hq, hpbytes, hqbytes⟩
  | discard left =>
    rw [commit_of_not_query s sh (by simp [hphase])]
    exact (state_wf_iff _).2 ⟨hsh, hp, hq, hpbytes, hqbytes⟩

/-! ## The shared state -/

/-- A FEED step pushes once to each ring, so the four cursors stay equal (R23). -/
theorem feedShared_wf (capacity : Nat) (sh : Shared) (x : Word) (h : sh.wf capacity = true) :
    (feedShared capacity sh x).wf capacity = true := by
  obtain ⟨hraw, hlow, hmid, hhigh, hwin, clow, cmid, chigh⟩ := (shared_wf_iff capacity sh).1 h
  have advance {c c' : Nat} (hc : c = c') : (c + 1) % capacity = (c' + 1) % capacity := by rw [hc]
  exact (shared_wf_iff capacity _).2
    ⟨ringPush_wf _ _ _ hraw, ringPush_wf _ _ _ hlow, ringPush_wf _ _ _ hmid, ringPush_wf _ _ _ hhigh,
      ringPush_wf _ _ _ hwin, advance clow, advance cmid, advance chigh⟩

theorem rateShared_wf (capacity draw : Nat) (sh : Shared) (rate : Word) :
    (rateShared draw sh rate).wf capacity = sh.wf capacity := by
  simp only [Shared.wf, rateShared_rings, rateShared_win]

theorem shared_reset_wf (capacity : Nat) (h : 0 < capacity) : Shared.reset.wf capacity = true :=
  have hring := ring_reset_wf capacity h
  (shared_wf_iff capacity _).2
    ⟨hring, hring, hring, hring, ring_reset_wf Config.fftN (by decide), rfl, rfl, rfl⟩

/-! ## The operations of a turn -/

theorem endProducer_wf (s : State) (st : Status) (results : List Word) (hs : s.wf = true) :
    (s.endProducer st results).wf = true := by
  obtain ⟨-, -, -, hbytes, -⟩ := (state_wf_iff s).1 hs
  exact wf_of_producerPort s _ hs rfl hbytes

theorem endConsumer_wf (s : State) (st : Status) (results : List Word) (hs : s.wf = true) :
    (s.endConsumer st results).wf = true := by
  obtain ⟨-, -, -, -, hbytes⟩ := (state_wf_iff s).1 hs
  exact wf_of_consumerPort s _ hs rfl hbytes

theorem answer_wf (s : State) (r : Except Status (List Word)) (hs : s.wf = true) : (s.answer r).wf = true := by
  cases r with
  | ok results => exact endConsumer_wf s .ok results hs
  | error st => exact endConsumer_wf s st [] hs

theorem feedStep_wf (s : State) (x : Word) (hs : s.wf = true) : (s.feedStep x).wf = true := by
  obtain ⟨hshared, -⟩ := (state_wf_iff s).1 hs
  exact commit_wf s _ hs (feedShared_wf s.capacity s.shared x hshared)

/-- Port P inside a block of at most 65535 samples, whatever else has been written (R90). -/
theorem openBlock_wf (s : State) (left : Nat) (hs : s.wf = true) (h₁ : 1 ≤ left) (h₂ : left ≤ 65535) :
    ({ s with p := { s.p with phase := .block left } } : State).wf = true := by
  obtain ⟨-, -, -, hbytes, -⟩ := (state_wf_iff s).1 hs
  exact wf_of_producerPort s _ hs (decide_eq_true ⟨h₁, h₂⟩) hbytes

theorem exec_wf (i : Instr) (s t : State) (hs : s.wf = true) (h : exec i s = .next t) : t.wf = true := by
  rcases exec_cases i s t h with ⟨r, rfl⟩ | rfl | ⟨x, rfl⟩ | ⟨cnt, hcnt, rfl⟩ | ⟨rate, rfl⟩
  · exact answer_wf s r hs
  · exact endProducer_wf s .ok [] hs
  · exact endProducer_wf _ .ok [] (feedStep_wf s x hs)
  · exact openBlock_wf s _ hs (Nat.pos_of_ne_zero hcnt) (Nat.le_of_lt_succ cnt.isLt)
  · obtain ⟨hshared, -⟩ := (state_wf_iff s).1 hs
    have hrate : (rateShared s.draws s.shared rate).wf s.capacity = true := by rwa [rateShared_wf]
    have hended := endProducer_wf _ .ok [] (commit_wf s _ hs hrate)
    exact hended

theorem blockSample_wf (s : State) (left : Nat) (x : Word) (hs : s.wf = true) (hleft : left ≤ 65535) :
    (s.blockSample left x).wf = true := by
  rcases blockSample_cases s left x with ⟨-, h⟩ | ⟨hlt, h⟩
  · rw [h]; exact endProducer_wf _ .ok [] (feedStep_wf s x hs)
  · rw [h]; exact openBlock_wf _ (left - 1) (feedStep_wf s x hs) (by omega) (by omega)

theorem rejectProducer_wf (s : State) (e : DecodeError) (n : Nat) (hs : s.wf = true) (hn : n ≤ 65535) :
    (s.rejectProducer e n).wf = true := by
  obtain ⟨-, -, -, hbytes, -⟩ := (state_wf_iff s).1 hs
  rcases rejectProducer_cases s e n with ⟨-, h⟩ | ⟨hne, h⟩
  · rw [h]; exact endProducer_wf s _ [] hs
  · rw [h]; exact wf_of_producerPort s _ hs (decide_eq_true ⟨Nat.pos_of_ne_zero hne, hn⟩) hbytes

theorem rejectConsumer_wf (s : State) (e : DecodeError) (n : Nat) (hs : s.wf = true) (hn : n ≤ 1) :
    (s.rejectConsumer e n).wf = true := by
  obtain ⟨-, -, -, -, hbytes⟩ := (state_wf_iff s).1 hs
  rcases rejectConsumer_cases s e n with ⟨-, h⟩ | ⟨hne, h⟩
  · rw [h]; exact endConsumer_wf s _ [] hs
  · rw [h]; exact wf_of_consumerPort s _ hs (decide_eq_true (by omega)) hbytes

/-- A fourth byte completes a word, so at most three are kept (20_memory.md R37). -/
theorem receiveByte_bytes_length {φ : Type} (port : Port φ) (b : Byte) (h : port.bytes.length < 4) :
    (port.receiveByte b).bytes.length < 4 := by
  rcases receiveByte_cases port b with ⟨b0, b1, b2, -, hb, -⟩ | ⟨hne, hb, -⟩
  · simp [hb]
  · rw [hb, List.length_append, List.length_singleton]; omega

theorem hostEvent_wf (s : State) (e : HostEvent) (hs : s.wf = true) : (s.hostEvent e).wf = true := by
  obtain ⟨-, hp, hq, hpbytes, hqbytes⟩ := (state_wf_iff s).1 hs
  cases e with
  | word port w =>
    cases port with
    | p => exact wf_of_producerPort s _ hs hp hpbytes
    | q => exact wf_of_consumerPort s _ hs hq hqbytes
  | byte port b =>
    cases port with
    | p =>
      exact wf_of_producerPort s _ hs (by rwa [receiveByte_phase]) (receiveByte_bytes_length s.p b hpbytes)
    | q =>
      exact wf_of_consumerPort s _ hs (by rwa [receiveByte_phase]) (receiveByte_bytes_length s.q b hqbytes)
  | take port =>
    cases port with
    | p => exact wf_of_producerPort s _ hs hp hpbytes
    | q => exact wf_of_consumerPort s _ hs hq hqbytes
  | reset =>
    have hreset := shared_reset_wf s.capacity (capacity_pos s)
    exact (state_wf_iff _).2 ⟨hreset, rfl, rfl, Nat.zero_lt_succ 3, Nat.zero_lt_succ 3⟩

/-! ## The turns -/

@[simp] theorem setProducerInput_wf (s : State) (ws : List Word) : (s.setProducerInput ws).wf = s.wf := rfl

@[simp] theorem setConsumerInput_wf (s : State) (ws : List Word) : (s.setConsumerInput ws).wf = s.wf := rfl

theorem producerTurn_wf (s t : State) (hs : s.wf = true) (h : producerTurn s = .next t) : t.wf = true := by
  obtain ⟨-, hp, -⟩ := (state_wf_iff s).1 hs
  rcases producerTurn_cases s t h with
    rfl | ⟨i, rest, -, -, he⟩ | ⟨e, n, rest, -, hd, rfl⟩ | ⟨left, x, rest, hphase, -, rfl⟩
    | ⟨left, x, rest, hphase, -, rfl⟩
  · exact hs
  · exact exec_wf i _ t (by rwa [setProducerInput_wf]) he
  · obtain ⟨hn, -⟩ := decode_reject_args _ _ _ _ _ hd
    exact rejectProducer_wf _ e n (by rwa [setProducerInput_wf]) hn
  · rw [hphase] at hp
    obtain ⟨-, hleft⟩ := of_decide_eq_true hp
    exact rejectProducer_wf _ _ _ (by rwa [setProducerInput_wf]) (by omega)
  · rw [hphase] at hp
    obtain ⟨-, hleft⟩ := of_decide_eq_true hp
    exact blockSample_wf _ left x (by rwa [setProducerInput_wf]) hleft

theorem consumerTurn_wf (s t : State) (hs : s.wf = true) (h : consumerTurn s = .next t) : t.wf = true := by
  obtain ⟨-, -, hq, -⟩ := (state_wf_iff s).1 hs
  rcases consumerTurn_cases s t h with
    rfl | ⟨i, past, -, he⟩ | ⟨i, rest, -, -, he⟩ | ⟨e, n, rest, -, hd, rfl⟩ | ⟨left, x, rest, hphase, -, rfl⟩
  · exact hs
  · exact exec_wf i s t hs he
  · exact exec_wf i _ t (by rwa [setConsumerInput_wf]) he
  · obtain ⟨-, hn⟩ := decode_reject_args _ _ _ _ _ hd
    exact rejectConsumer_wf _ e n (by rwa [setConsumerInput_wf]) (hn rfl)
  · rw [hphase] at hq
    have hleft : left = 1 := of_decide_eq_true hq
    exact rejectConsumer_wf _ _ _ (by rwa [setConsumerInput_wf]) (by omega)

/-- A query just accepted is one of port Q and remembers no state yet (R43). -/
theorem acceptTurn_wf (s : State) (hs : s.wf = true) : (acceptTurn s).wf = true := by
  rcases acceptTurn_cases s with h | ⟨i, rest, -, hd, h⟩
  · rwa [h]
  · obtain ⟨-, -, -, -, hbytes⟩ := (state_wf_iff s).1 hs
    have hquery : (ConsumerPhase.query i []).wf s.capacity = true :=
      (query_wf_iff _ _ _).2 ⟨decode_command_port _ _ _ _ hd, List.forall_mem_nil _⟩
    rw [h]; exact wf_of_consumerPort s _ hs hquery hbytes

theorem hostTurn_wf (s : State) (hs : s.wf = true) : (hostTurn s).wf = true := by
  rcases hostTurn_cases s with ⟨-, h⟩ | ⟨e, rest, -, h⟩
  · rwa [h]
  · rw [h]; exact hostEvent_wf _ e hs

/-- Choosing the next turn writes no field that a legal state bounds. -/
@[simp] theorem nextTurn_wf (s : State) : (nextTurn s).2.wf = s.wf := by
  obtain ⟨hshared, hp, hq, -⟩ := nextTurn_state s
  simp only [State.wf, nextTurn_capacity, hshared, hp, hq]

/-- Settles O52, turn by turn. -/
theorem stepKeepsLegalState : Obligations.StepKeepsLegalState := by
  intro s t hs h
  rw [← nextTurn_wf] at hs
  rcases step_cases s t h with h | h | rfl | rfl
  · exact producerTurn_wf _ t hs h
  · exact consumerTurn_wf _ t hs h
  · exact acceptTurn_wf _ hs
  · exact hostTurn_wf _ hs

end Sys2Proof.Machine
end

section
/-! Bytes, words and response words between the host and one port (20_memory.md R36, R37, 60_exceptions.md R107). -/

namespace Sys2Proof.Machine

/-! ## One port -/

/-- A byte that does not complete a word is kept. -/
theorem receiveByte_keeps {φ : Type} (port : Port φ) (bs : List Byte) (b : Byte) (h : port.bytes = bs)
    (hlen : bs.length ≠ 3) : port.receiveByte b = { port with bytes := bs ++ [b] } := by
  subst h
  unfold Port.receiveByte
  split
  · next b0 b1 b2 h => exact absurd (by rw [h]; rfl) hlen
  · rfl

/-- The byte that completes a word. -/
theorem receiveByte_completes {φ : Type} (port : Port φ) (b0 b1 b2 b3 : Byte) (h : port.bytes = [b0, b1, b2]) :
    port.receiveByte b3 = { port with bytes := [], input := port.input ++ [wordOfBytes b0 b1 b2 b3] } := by
  simp only [Port.receiveByte, h]

theorem append_toNat {n m : Nat} (x : BitVec n) (y : BitVec m) : (x ++ y).toNat = x.toNat * 2 ^ m + y.toNat := by
  rw [BitVec.toNat_append, ← Nat.shiftLeft_add_eq_or_of_lt y.isLt, Nat.shiftLeft_eq]

/-- The word of four bytes as a number, least significant byte first (R36). -/
theorem wordOfBytes_eq_ofNat (b0 b1 b2 b3 : Byte) :
    wordOfBytes b0 b1 b2 b3
      = BitVec.ofNat 32 (b0.toNat + 2 ^ 8 * b1.toNat + 2 ^ 16 * b2.toNat + 2 ^ 24 * b3.toNat) := by
  have hword : (wordOfBytes b0 b1 b2 b3).toNat
      = b0.toNat + 2 ^ 8 * b1.toNat + 2 ^ 16 * b2.toNat + 2 ^ 24 * b3.toNat := by
    rw [wordOfBytes, append_toNat, append_toNat, append_toNat]
    ring
  rw [← hword, BitVec.ofNat_toNat, BitVec.setWidth_eq]

/-- Four bytes at a port with none pending. -/
theorem receiveByte_four {φ : Type} (port : Port φ) (b0 b1 b2 b3 : Byte) (h : port.bytes = []) :
    port.receiveByte b0 = { port with bytes := [b0] }
    ∧ (port.receiveByte b0).receiveByte b1 = { port with bytes := [b0, b1] }
    ∧ ((port.receiveByte b0).receiveByte b1).receiveByte b2 = { port with bytes := [b0, b1, b2] }
    ∧ (((port.receiveByte b0).receiveByte b1).receiveByte b2).receiveByte b3
      = port.receiveWord (BitVec.ofNat 32
          (b0.toNat + 2 ^ 8 * b1.toNat + 2 ^ 16 * b2.toNat + 2 ^ 24 * b3.toNat)) := by
  have first := receiveByte_keeps port [] b0 h (by decide)
  have second := receiveByte_keeps { port with bytes := [b0] } [b0] b1 rfl (by simp)
  have third := receiveByte_keeps { port with bytes := [b0, b1] } [b0, b1] b2 rfl (by simp)
  have fourth := receiveByte_completes { port with bytes := [b0, b1, b2] } b0 b1 b2 b3 rfl
  simp only [List.nil_append, List.cons_append] at first second third
  rw [first, second, third, fourth, wordOfBytes_eq_ofNat]
  exact ⟨rfl, rfl, rfl, by rw [Port.receiveWord, h]⟩

theorem take_of_cons {φ : Type} (port : Port φ) (w : Word) (rest : List Word) (h : port.output = w :: rest) :
    port.take = { port with output := rest } := by
  rw [Port.take, h, List.tail_cons]

/-- With no response pending there is nothing to accept (R107). -/
theorem take_of_nil {φ : Type} (port : Port φ) (h : port.output = []) : port.take = port := by
  rw [Port.take, h, List.tail_nil, ← h]

/-! ## Both ports -/

/-- Settles O14, by the same four facts of either port. -/
theorem fourBytesDeliverOneWord : Obligations.FourBytesDeliverOneWord := by
  refine ⟨fun s b0 b1 b2 b3 h => ?_, fun s b0 b1 b2 b3 h => ?_, fun s w => ⟨rfl, rfl⟩, fun s w rest =>
    ⟨fun h => ?_, fun h => ?_, fun h => ?_, fun h => ?_⟩⟩
  · obtain ⟨one, two, three, four⟩ := receiveByte_four s.p b0 b1 b2 b3 h
    have write {port port' : Port ProducerPhase} (e : port = port') :
      ({ s with p := port } : State) = { s with p := port' } := by rw [e]
    exact ⟨write one, write two, write three, write four⟩
  · obtain ⟨one, two, three, four⟩ := receiveByte_four s.q b0 b1 b2 b3 h
    have write {port port' : Port ConsumerPhase} (e : port = port') :
      ({ s with q := port } : State) = { s with q := port' } := by rw [e]
    exact ⟨write one, write two, write three, write four⟩
  · rw [State.hostEvent, take_of_cons s.p w rest h]
  · rw [State.hostEvent, take_of_cons s.q w rest h]
  · rw [State.hostEvent, take_of_nil s.p h]
  · rw [State.hostEvent, take_of_nil s.q h]

end Sys2Proof.Machine
end

section
/-! What FEED and a list of pushes do to the histories (10_state.md R22 to R24, 42_ring_buffer.md R74, 43_spectral.md
R79). -/

namespace Sys2Proof.Machine

/-! ## One FEED -/

theorem ring_wf_of_shared (capacity : Nat) (sh : Shared) (h : sh.wf capacity = true) (b : Band) :
    (sh.rings.get b).wf capacity = true := by
  obtain ⟨hraw, hlow, hmid, hhigh, -⟩ := (shared_wf_iff capacity sh).1 h
  cases b with
  | raw => exact hraw
  | low => exact hlow
  | mid => exact hmid
  | high => exact hhigh

/-- A FEED step writes one word of a ring. -/
theorem feedShared_read_other (capacity : Nat) (sh : Shared) (x : Word) (b : Band) (a : Nat) (h : sh.wf capacity = true)
    (ha : a ≠ (sh.rings.get b).cursor) :
    memRead ((feedShared capacity sh x).rings.get b).mem a = memRead (sh.rings.get b).mem a := by
  obtain ⟨y, hy⟩ := feedShared_ring capacity sh x b
  rw [hy]
  exact ringPush_read_other _ _ _ _ (ring_wf_of_shared capacity sh h b) ha

theorem feedShared_cursor (capacity : Nat) (sh : Shared) (x : Word) (b : Band) :
    ((feedShared capacity sh x).rings.get b).cursor = ((sh.rings.get b).cursor + 1) % capacity := by
  obtain ⟨y, hy⟩ := feedShared_ring capacity sh x b
  rw [hy, ringPush_cursor]

theorem exec_feed_shared (s t : State) (x : Word) (h : exec (.feed x) s = .next t) :
    t.shared = feedShared s.capacity s.shared x := by
  rw [exec_feed] at h
  obtain rfl := Host.Outcome.next.inj h
  rw [endProducer_shared, feedStep_shared]

/-- Settles O16: each history gets one push (R74, R79), and a push writes the word at its cursor. -/
theorem feedWritesOneWordOfEachHistory : Obligations.FeedWritesOneWordOfEachHistory := by
  intro s t x hs h
  obtain ⟨hshared, -⟩ := (state_wf_iff s).1 hs
  obtain ⟨hraw, hlow, hmid, hhigh, hwin, -⟩ := (shared_wf_iff _ _).1 hshared
  rw [exec_feed_shared s t x h]
  exact ⟨fun b a ha => feedShared_read_other _ _ x b a hshared ha, feedShared_cursor _ _ x,
    ringPush_read_cursor _ _ _ hraw, ringPush_read_cursor _ _ _ hlow, ringPush_read_cursor _ _ _ hmid,
    ringPush_read_cursor _ _ _ hhigh, fun a ha => ringPush_read_other _ _ _ a hwin ha,
    ringPush_read_cursor _ _ _ hwin, rfl, rfl⟩

/-! ## Any number of pushes -/

/-- Less than a whole turn from a slot leads to another slot. -/
theorem add_mod_ne_self {size i k : Nat} (hi : i < size) (hpos : 0 < k) (hk : k < size) : (i + k) % size ≠ i := by
  rcases Nat.lt_or_ge (i + k) size with hlt | hge
  · rw [Nat.mod_eq_of_lt hlt]; omega
  · rw [Nat.mod_eq_sub_mod hge, Nat.mod_eq_of_lt (by omega)]; omega

/-- Position k of the history after a push is position k + 1 of the one before, with the sample at its end: the last
position is the old cursor, and no other one is. -/
theorem historyOf_ringPush (size : Nat) (r : Ring) (x : Word) (h : r.wf size = true) :
    historyOf size (ringPush size r x) = (historyOf size r ++ [x]).drop 1 := by
  obtain ⟨-, -, hcursor⟩ := (ring_wf_iff size r).1 h
  apply List.ext_getElem
  · simp
  · intro k hk _
    have hk : k < size := by simpa using hk
    have hindex : ((r.cursor + 1) % size + k) % size = (r.cursor + (1 + k)) % size := by
      rw [Nat.mod_add_mod, Nat.add_assoc]
    rw [historyOf_getElem, ringPush_cursor, hindex, List.getElem_drop]
    rcases Nat.lt_or_ge (1 + k) size with hlt | hge
    · rw [List.getElem_append_left (by simpa using hlt), historyOf_getElem]
      exact ringPush_read_other _ _ _ _ h (add_mod_ne_self hcursor (by omega) hlt)
    · have hlast : 1 + k = size := by omega
      rw [List.getElem_append_right (by simpa using hge)]
      simp only [hlast, Nat.add_mod_right, Nat.mod_eq_of_lt hcursor, ringPush_read_cursor size r x h]
      simp

theorem foldl_ringPush_wf (size : Nat) (r : Ring) (xs : List Word) (h : r.wf size = true) :
    (xs.foldl (ringPush size) r).wf size = true := by
  induction xs generalizing r with
  | nil => exact h
  | cons x xs ih => exact ih _ (ringPush_wf size r x h)

theorem historyOf_foldl_ringPush (size : Nat) (r : Ring) (xs : List Word) (h : r.wf size = true) :
    historyOf size (xs.foldl (ringPush size) r) = (historyOf size r ++ xs).drop xs.length := by
  induction xs generalizing r with
  | nil => simp
  | cons x xs ih =>
    calc historyOf size (xs.foldl (ringPush size) (ringPush size r x))
        = ((historyOf size r ++ [x]).drop 1 ++ xs).drop xs.length := by
          rw [ih _ (ringPush_wf size r x h), historyOf_ringPush size r x h]
      _ = ((historyOf size r ++ x :: xs).drop 1).drop xs.length := by
          rw [← List.drop_append_of_le_length (by simp), List.append_assoc, List.singleton_append]
      _ = (historyOf size r ++ x :: xs).drop (x :: xs).length := by
          rw [List.drop_drop, List.length_cons, Nat.add_comm]

/-- Settles O26, by induction on the samples. -/
theorem pushesSlideTheHistory : Obligations.PushesSlideTheHistory := fun size r xs _ h =>
  ⟨historyOf_foldl_ringPush size r xs h, foldl_ringPush_wf size r xs h⟩

end Sys2Proof.Machine
end

section
/-! How a query ends, what its answer depends on (20_memory.md R38, R43, R44), and which producer steps a query in progress
remembers (R42). -/

namespace Sys2Proof.Machine

/-! ## One counted response -/

theorem statusWord_eq_codeWord (st : Status) : statusWord st = codeWord st := by
  cases st <;> rfl

theorem answer_ok_eq_afterQuery (s : State) (results : List Word) : s.answer (.ok results) = s.afterQuery .ok results := rfl

theorem answer_error_eq_afterQuery (s : State) (st : Status) : s.answer (.error st) = s.afterQuery st [] := by
  rw [State.afterQuery, ← statusWord_eq_codeWord]
  rfl

/-- An answer is one counted response, the same words in every state; an error answers no result words (R103). -/
theorem answer_eq_afterQuery (r : Except Status (List Word)) :
    ∃ (st : Status) (results : List Word), (∀ s : State, s.answer r = s.afterQuery st results)
      ∧ (st ≠ .ok → results = []) := by
  cases r with
  | ok results => exact ⟨.ok, results, fun s => answer_ok_eq_afterQuery s results, fun hst => absurd rfl hst⟩
  | error st => exact ⟨st, [], fun s => answer_error_eq_afterQuery s st, fun _ => rfl⟩

/-- Settles O13: every query ends with one answer. -/
theorem queryAppendsOneCountedResponse : Obligations.QueryAppendsOneCountedResponse := by
  intro i s t hi h
  obtain ⟨r, hr⟩ := exec_query_answers i s hi
  obtain ⟨st, results, hanswer, hempty⟩ := answer_eq_afterQuery r
  obtain rfl := Host.Outcome.next.inj (hr.symm.trans h)
  exact ⟨st, results, hanswer s, hempty⟩

/-! ## What an answer depends on -/

/-- Two views from which a query takes the same elements, whatever states they stem from. -/
structure View.ReadsAlike (v w : View) : Prop where
  sample : ∀ e, v.sample e = w.sample e
  capacity : v.capacity = w.capacity

section
variable {v w : View} (h : v.ReadsAlike w)
include h

theorem View.ReadsAlike.rate : v.rate = w.rate := by
  rw [View.rate, View.rate, h.sample]

theorem View.ReadsAlike.recentWindow (b : Band) (r : Nat) : recentWindow v b r = recentWindow w b r := by
  simp only [Machine.recentWindow, View.ringWord, View.cursor, h.sample, h.capacity]

theorem View.ReadsAlike.peakQuery (b : Band) (range : Nat) : peakQuery v b range = peakQuery w b range := by
  rw [Machine.peakQuery, Machine.peakQuery, h.recentWindow, h.capacity]

theorem View.ReadsAlike.rmsQuery (b : Band) (range : Nat) : rmsQuery v b range = rmsQuery w b range := by
  simp only [Machine.rmsQuery, h.recentWindow, h.capacity]

theorem View.ReadsAlike.copyRecent (b : Band) (length : Nat) : copyRecent v b length = copyRecent w b length := by
  simp only [Machine.copyRecent, View.ringWord, View.cursor, h.sample, h.capacity]

theorem View.ReadsAlike.analyze : analyze v = analyze w := by
  simp only [Machine.analyze, chronological, View.windowWord, View.windowCursor, h.sample]

end

/-- The answer of a query depends on what it reads alone. -/
theorem exec_query_of_readsAlike (i : Instr) (s t : State) (hi : i.port = .q) (h : s.view.ReadsAlike t.view) :
    ∃ r, exec i s = .next (s.answer r) ∧ exec i t = .next (t.answer r) := by
  cases i with
  | getSampleRate => exact ⟨.ok [s.view.rate], rfl, by rw [h.rate]; rfl⟩
  | getPeak field duration => exact ⟨_, rfl, by simp only [h.rate, h.peakQuery]; rfl⟩
  | getRms field duration => exact ⟨_, rfl, by simp only [h.rate, h.rmsQuery]; rfl⟩
  | peakN field range => exact ⟨_, rfl, by simp only [h.peakQuery]; rfl⟩
  | rmsN field range => exact ⟨_, rfl, by simp only [h.rmsQuery]; rfl⟩
  | copyWaveform field length => exact ⟨_, rfl, by simp only [h.copyRecent]; rfl⟩
  | getBandAverages mode length => exact ⟨_, rfl, by rw [h.analyze, h.rate]; rfl⟩
  | _ => cases hi

/-- Where nothing has overlapped a query, the number of its draws does not matter (R43 (a)). -/
theorem readsAlike_of_no_past {v w : View} (hv : v.past = []) (hw : w.past = []) (hnow : v.now = w.now)
    (hcapacity : v.capacity = w.capacity) : v.ReadsAlike w :=
  ⟨fun e => by rw [sample_of_no_past v e hv, sample_of_no_past w e hw, hnow], hcapacity⟩

theorem view_past_of_idle (s : State) (h : s.queryIdle) : s.view.past = [] := by
  rw [view_of_idle s h]

/-- Settles O45: the state a query leaves reads like the one it found. -/
theorem queriesAreIdempotent : Obligations.QueriesAreIdempotent := by
  intro i s t u hi hidle hs ht
  obtain ⟨r, hr⟩ := exec_query_answers i s hi
  obtain rfl := Host.Outcome.next.inj (hr.symm.trans hs)
  have hcapacity : s.capacity = (s.answer r).capacity := by rw [State.capacity, State.capacity, answer_ringCapLog2]
  have halike : s.view.ReadsAlike (s.answer r).view :=
    readsAlike_of_no_past (view_past_of_idle s hidle) (view_past_of_idle _ (answer_q_phase s r)) (answer_shared s r).symm
      hcapacity
  obtain ⟨r', hs', ht'⟩ := exec_query_of_readsAlike i s _ hi halike
  obtain ⟨st, results, hanswer, -⟩ := answer_eq_afterQuery r'
  have hfirst := Host.Outcome.next.inj (hr.symm.trans hs')
  have hsecond := Host.Outcome.next.inj (ht.symm.trans ht')
  rw [hsecond, hfirst, hanswer, hanswer]
  exact ⟨_, rfl, rfl⟩

/-! ## Two turns or one -/

/-- A query's answer ends whatever port Q was doing. -/
theorem answer_of_phase (s : State) (phase : ConsumerPhase) (r : Except Status (List Word)) :
    ({ s with q := { s.q with phase := phase } } : State).answer r = s.answer r := by
  cases r <;> rfl

theorem runTurns_consumer (s : State) : runTurns [.consumer] s = consumerTurn s := by
  simp only [runTurns, takeTurn]
  cases consumerTurn s <;> rfl

theorem runTurns_accept_consumer (s : State) : runTurns [.accept, .consumer] s = consumerTurn (acceptTurn s) :=
  runTurns_consumer (acceptTurn s)

theorem consumerTurn_of_query (s : State) (i : Instr) (past : List Shared) (h : s.q.phase = .query i past) :
    consumerTurn s = exec i s := by
  simp only [consumerTurn, h]

theorem consumerTurn_of_command (s : State) (i : Instr) (rest : List Word) (hidle : s.queryIdle)
    (hd : decode .q s.q.input = .command i rest) : consumerTurn s = exec i (s.setConsumerInput rest) := by
  simp only [consumerTurn, show s.q.phase = .command from hidle, hd]

/-- Accepting a query takes its words and opens its interval (R43). -/
theorem acceptTurn_of_command (s : State) (i : Instr) (rest : List Word) (hidle : s.queryIdle)
    (hd : decode .q s.q.input = .command i rest) :
    acceptTurn s = { s with q := { s.q with input := rest, phase := .query i [] } } := by
  simp only [acceptTurn, show s.q.phase = .command from hidle, hd]

/-- Settles O46: a query just accepted reads what one run at once reads, and both end idle. -/
theorem unoverlappedQueryIsExact : Obligations.UnoverlappedQueryIsExact := by
  intro s i rest hidle hd
  have halike : (s.setConsumerInput rest).view.ReadsAlike (acceptTurn s).view := by
    rw [acceptTurn_of_command s i rest hidle hd]
    exact readsAlike_of_no_past (view_past_of_idle _ hidle) rfl rfl rfl
  obtain ⟨r, hone, htwo⟩ := exec_query_of_readsAlike i _ _ (decode_command_port _ _ _ _ hd) halike
  have haccepted : (acceptTurn s).q.phase = .query i [] := by rw [acceptTurn_of_command s i rest hidle hd]
  rw [runTurns_accept_consumer, runTurns_consumer, consumerTurn_of_query _ i [] haccepted,
    consumerTurn_of_command s i rest hidle hd, hone, htwo, acceptTurn_of_command s i rest hidle hd]
  exact congrArg _ (answer_of_phase (s.setConsumerInput rest) (.query i []) r)

/-! ## What a query in progress remembers -/

theorem commit_q_of_query (s : State) (sh : Shared) (i : Instr) (past : List Shared) (h : s.q.phase = .query i past) :
    (s.commit sh).q = { s.q with phase := .query i (past ++ [s.shared]) } := by
  rw [commit_of_query s sh i past h]

theorem blockSample_q (s : State) (left : Nat) (x : Word) : (s.blockSample left x).q = (s.feedStep x).q := by
  rcases blockSample_cases s left x with ⟨-, h⟩ | ⟨-, h⟩
  · rw [h, endProducer_q]
  · rw [h]

theorem producerTurn_of_block (s : State) (left : Nat) (x : Word) (rest : List Word) (hphase : s.p.phase = .block left)
    (hinput : s.p.input = x :: rest) : producerTurn s = .next ((s.setProducerInput rest).blockSample left x) := by
  simp only [producerTurn, hphase, hinput]

/-- Settles O47: each of the three steps commits one shared state, and a commit is what a query remembers. -/
theorem overlappingStepsAreRemembered : Obligations.OverlappingStepsAreRemembered := by
  intro s t query past x rate hquery
  refine ⟨fun h => ?_, fun left rest hphase hinput h => ?_, fun hrate h => ?_⟩
  · rw [exec_feed] at h
    obtain rfl := Host.Outcome.next.inj h
    exact commit_q_of_query s _ query past hquery
  · rw [takeTurn, producerTurn_of_block s left x rest hphase hinput] at h
    obtain rfl := Host.Outcome.next.inj h
    rw [blockSample_q, blockSample_shared]
    exact ⟨commit_q_of_query (s.setProducerInput rest) _ query past hquery, rfl⟩
  · rcases exec_setSampleRate rate s with ⟨hsame, -⟩ | ⟨-, he⟩
    · rw [hsame] at hrate; cases hrate
    · rw [he] at h
      obtain rfl := Host.Outcome.next.inj h
      exact commit_q_of_query s _ query past hquery

end Sys2Proof.Machine
end

section
/-! The windows a query may read (20_memory.md R43): every element is taken from one state of the interval, at the index its
rule computes (42_ring_buffer.md R73 to R77, 43_spectral.md R80), and what the six queries other than GET_BAND_AVERAGES
answer on them. -/

namespace Sys2Proof.Machine

/-! ## The interval -/

theorem interval_eq_view (s : State) : s.interval = s.view.past ++ [s.view.now] := by
  unfold State.interval State.view
  cases s.q.phase <;> rfl

theorem sample_mem_interval (s : State) (e : Nat) : s.view.sample e ∈ s.interval := by
  rw [interval_eq_view]
  exact sample_mem s.view e

theorem interval_of_idle (s : State) (h : s.queryIdle) : s.interval = [s.shared] := by
  rw [interval_eq_view, view_of_idle s h, List.nil_append]

/-! ## Windows of a ring -/

@[simp] theorem recentWindow_length (v : View) (b : Band) (r : Nat) : (recentWindow v b r).length = r := by
  simp [recentWindow]

@[simp] theorem copyRecent_length (v : View) (b : Band) (n : Nat) : (copyRecent v b n).length = min n v.capacity := by
  simp [copyRecent]

theorem recentWindow_getElem? (v : View) (b : Band) (r k : Nat) (h : k < r) :
    (recentWindow v b r)[k]? = some (v.ringWord b k (slot v.capacity (v.cursor b) k)) := by
  rw [recentWindow, List.getElem?_map, List.getElem?_range h, Option.map_some]

theorem copyRecent_getElem? (v : View) (b : Band) (n k : Nat) (h : k < min n v.capacity) :
    (copyRecent v b n)[k]?
      = some (v.ringWord b k ((v.cursor b + (v.capacity - min n v.capacity) + k) % v.capacity)) := by
  rw [copyRecent, List.getElem?_map, List.getElem?_range h, Option.map_some]

/-- The index of the k-th of the n most recent samples, oldest first, is (i0 - n + k) mod the size, as integers (R77). -/
theorem oldest_slot_eq_emod (size i0 n k : Nat) (h : n ≤ size) :
    (i0 + (size - n) + k) % size = (((i0 : Int) - n + k) % (size : Int)).toNat := by
  rw [show (i0 : Int) - n + k = ((i0 + (size - n) + k : Nat) : Int) - size by omega, Int.sub_emod_right,
    ← Int.natCast_emod, Int.toNat_natCast]

theorem recentWindow_readsNewestFirst (s : State) (b : Band) (r : Nat) (h : r ≤ s.capacity) :
    s.readsNewestFirst b r (recentWindow s.view b r) := by
  refine ⟨recentWindow_length _ _ _, s.view.sample 1, sample_mem_interval s 1, fun k hk =>
    ⟨s.view.sample (2 + k), sample_mem_interval s (2 + k), ?_⟩⟩
  rw [recentWindow_getElem? _ _ _ _ hk, view_capacity, slot_eq_emod _ _ _ (lt_of_lt_of_le hk h)]
  rfl

theorem copyRecent_readsOldestFirst (s : State) (b : Band) (n : Nat) :
    s.readsOldestFirst b (min n s.capacity) (copyRecent s.view b n) := by
  refine ⟨copyRecent_length _ _ _, s.view.sample 1, sample_mem_interval s 1, fun k hk =>
    ⟨s.view.sample (2 + k), sample_mem_interval s (2 + k), ?_⟩⟩
  rw [copyRecent_getElem? _ _ _ _ hk, view_capacity, oldest_slot_eq_emod _ _ _ _ (min_le_right _ _)]
  rfl

/-! ## The six queries -/

theorem bandOperand_of_field (field : BitVec 4) (b : Band) (h : bandOfField field = some b) :
    bandOperand field = .ok b := by
  rw [bandOperand, h]

/-- The peak over a window the query may read (R75). -/
theorem peakQuery_reads (s : State) (b : Band) (range : Nat) :
    ∃ window, s.readsNewestFirst b (min (max range 1) s.capacity) window ∧ peakQuery s.view b range = peakOf window :=
  ⟨_, recentWindow_readsNewestFirst s b _ (min_le_right _ _), rfl⟩

/-- The root mean square over a window the query may read (R76). -/
theorem rmsQuery_reads (s : State) (b : Band) (range : Nat) (h : range ≠ 0) :
    ∃ window, s.readsNewestFirst b (min range s.capacity) window
      ∧ rmsQuery s.view b range = .ok (rmsOf window.length window) := by
  have hpos : min range s.capacity ≠ 0 := by have := capacity_pos s; omega
  refine ⟨_, recentWindow_readsNewestFirst s b _ (min_le_right _ _), ?_⟩
  rw [rmsQuery, view_capacity, if_neg hpos, recentWindow_length]

theorem rmsQuery_zero (v : View) (b : Band) : rmsQuery v b 0 = .error .errRange := by
  rw [rmsQuery, Nat.zero_min, if_pos rfl]

section
variable (s : State) (field : BitVec 4) (b : Band) (arg : Word) (hb : bandOfField field = some b)
include hb

theorem exec_copyWaveform_of_band :
    exec (.copyWaveform field arg) s = .next (s.afterQuery .ok (copyRecent s.view b arg.toNat)) := by
  simp only [exec, execCopyWaveform, bandOperand_of_field field b hb]
  rfl

theorem exec_peakN_of_band :
    exec (.peakN field arg) s = .next (s.afterQuery .ok [peakQuery s.view b arg.toNat]) := by
  simp only [exec, execPeakN, bandOperand_of_field field b hb]
  rfl

theorem exec_rmsN_of_band :
    exec (.rmsN field arg) s = .next (s.answer ((rmsQuery s.view b arg.toNat).bind fun v => .ok [v])) := by
  simp only [exec, execRmsN, bandOperand_of_field field b hb]
  rfl

theorem exec_getPeak_of_count (n : Nat) (hn : sampleCount arg s.view.rate = .ok n) :
    exec (.getPeak field arg) s = .next (s.afterQuery .ok [peakQuery s.view b n]) := by
  simp only [exec, execGetPeak, bandOperand_of_field field b hb, hn]
  rfl

theorem exec_getRms_of_count (n : Nat) (hn : sampleCount arg s.view.rate = .ok n) :
    exec (.getRms field arg) s = .next (s.answer ((rmsQuery s.view b n).bind fun v => .ok [v])) := by
  simp only [exec, execGetRms, bandOperand_of_field field b hb, hn]
  rfl

/-- A duration without a count ends both duration queries with ERR_ARG (R93). -/
theorem exec_duration_of_error (st : Status) (hst : sampleCount arg s.view.rate = .error st) :
    exec (.getPeak field arg) s = .next (s.afterQuery .errArg [])
      ∧ exec (.getRms field arg) s = .next (s.afterQuery .errArg []) := by
  have herror : sampleCount arg s.view.rate = .error .errArg := by
    rcases sampleCount_cases arg s.view.rate with ⟨n, hn, -⟩ | h
    · rw [hn] at hst; cases hst
    · exact h
  simp only [exec, execGetPeak, execGetRms, bandOperand_of_field field b hb, herror]
  exact ⟨rfl, rfl⟩

end

/-- Settles O48: each query answers its rule's result on a window read from the interval. -/
theorem tornWordsComeFromTheInterval : Obligations.TornWordsComeFromTheInterval := by
  refine ⟨interval_of_idle, fun s => ⟨s.view.sample 0, sample_mem_interval s 0, rfl⟩, ?_⟩
  intro s field b arg hb
  refine ⟨?copy, ?peakN, fun harg => ?rmsN, fun harg => ?rmsNZero,
    ⟨s.view.sample 0, sample_mem_interval s 0, fun n hn => ?getPeak, fun st hst => ?getPeakError⟩,
    ⟨s.view.sample 0, sample_mem_interval s 0, fun n hn hne => ?getRms, fun hzero => ?getRmsZero,
      fun st hst => ?getRmsError⟩⟩
  case copy =>
    exact ⟨_, copyRecent_readsOldestFirst s b arg.toNat, exec_copyWaveform_of_band s field b arg hb⟩
  case peakN =>
    obtain ⟨window, hreads, hpeak⟩ := peakQuery_reads s b arg.toNat
    refine ⟨window, hreads, ?_⟩
    rw [exec_peakN_of_band s field b arg hb, hpeak]
    rfl
  case rmsN =>
    have hne : arg.toNat ≠ 0 := fun h => harg (BitVec.eq_of_toNat_eq h)
    obtain ⟨window, hreads, hrms⟩ := rmsQuery_reads s b arg.toNat hne
    refine ⟨window, hreads, ?_⟩
    rw [exec_rmsN_of_band s field b arg hb, hrms]
    rfl
  case rmsNZero =>
    rw [exec_rmsN_of_band s field b arg hb, harg, BitVec.toNat_zero, rmsQuery_zero]
    rfl
  case getPeak =>
    obtain ⟨window, hreads, hpeak⟩ := peakQuery_reads s b n
    refine ⟨window, hreads, ?_⟩
    rw [exec_getPeak_of_count s field b arg hb n hn, hpeak]
    rfl
  case getPeakError =>
    obtain ⟨hpeak, -⟩ := exec_duration_of_error s field b arg hb st hst
    exact hpeak
  case getRms =>
    obtain ⟨window, hreads, hrms⟩ := rmsQuery_reads s b n hne
    refine ⟨window, hreads, ?_⟩
    rw [exec_getRms_of_count s field b arg hb n hn, hrms]
    rfl
  case getRmsZero =>
    rw [exec_getRms_of_count s field b arg hb 0 hzero, rmsQuery_zero]
    rfl
  case getRmsError =>
    obtain ⟨-, hrms⟩ := exec_duration_of_error s field b arg hb st hst
    exact hrms

end Sys2Proof.Machine
end

section
/-! What GET_BAND_AVERAGES answers in both modes (43_spectral.md R80 to R87, 44_commands.md R99), on a spectral window read
from the query's interval (20_memory.md R43). -/

namespace Sys2Proof.Machine

/-! ## The magnitudes of a window -/

theorem chronological_getElem? (v : View) (i : Nat) (h : i < 128) :
    (chronological v)[i]? = some (v.windowWord i ((v.windowCursor + i) % 128)) := by
  rw [chronological, fftN_eq, List.getElem?_map, List.getElem?_range h, Option.map_some]

theorem chronological_reads (s : State) : s.readsSpectralWindow (chronological s.view) := by
  refine ⟨chronological_length _, s.view.sample 1, sample_mem_interval s 1, fun i hi =>
    ⟨s.view.sample (2 + i), sample_mem_interval s (2 + i), ?_⟩⟩
  rw [chronological_getElem? _ _ hi]
  rfl

/-- The weighted window, with hann[i] on the i-th oldest sample (R82). -/
theorem windowed_eq_map_range (xs : List Word) (h : xs.length = 128) :
    windowed xs = (List.range 128).map fun i => mul32 (xs.getD i 0#32) (hann32 i 128) := by
  apply List.ext_getElem?
  intro i
  rw [windowed_getElem?, List.getElem?_map]
  rcases Nat.lt_or_ge i 128 with hi | hi
  · rw [List.getElem?_range hi, List.getElem?_eq_getElem (h ▸ hi), Option.map_some, Option.map_some,
      List.getD_eq_getElem _ _ (h ▸ hi)]
  · rw [List.getElem?_eq_none (h ▸ hi), List.getElem?_eq_none (by simpa using hi)]
    rfl

theorem magnitudes_windowed_getElem? (xs : List Word) (h : xs.length = 128) (j : Nat) (hj : j < 64) :
    (magnitudes (windowed xs))[j]? = some (binMagnitude xs (j + 1)) := by
  rw [magnitudes_getElem? _ _ hj, windowed_eq_map_range xs h]
  rfl

/-- The magnitudes a mean adds up, in ascending order (R83). -/
theorem magnitudes_drop_take (xs : List Word) (h : xs.length = 128) (a e : Nat) (he : e ≤ 64) :
    ((magnitudes (windowed xs)).drop a).take (e - a) = (List.range (e - a)).map fun k => binMagnitude xs (a + k + 1) := by
  apply List.ext_getElem?
  intro k
  rw [List.getElem?_take, List.getElem?_drop, List.getElem?_map]
  rcases Nat.lt_or_ge k (e - a) with hk | hk
  · rw [if_pos hk, magnitudes_windowed_getElem? xs h _ (by omega), List.getElem?_range hk, Option.map_some]
  · rw [if_neg (by omega), List.getElem?_eq_none (by simpa using hk), Option.map_none]

theorem mean_eq_binMean (xs : List Word) (h : xs.length = 128) (a e : Nat) (he : e ≤ 64) :
    mean (magnitudes (windowed xs)) a e = binMean xs a e := by
  rw [mean, magnitudes_drop_take xs h a e he, List.foldl_map]
  rfl

/-! ## Linear mode -/

theorem exec_linear_averages (s : State) (length : Word) :
    exec (.getBandAverages 0#4 length) s = .next (s.answer (reduceLinear (analyze s.view) length.toNat)) := rfl

/-- Settles O38: every group of the linear reduction ends within the 64 magnitudes. -/
theorem linearBandAveragesResult : Obligations.LinearBandAveragesResult := by
  intro s length
  rw [exec_linear_averages]
  rcases reduceLinear_cases (analyze s.view) length.toNat with ⟨hpos, hle, hr⟩ | ⟨hrange, hr⟩
  · refine ⟨fun _ => ⟨chronological s.view, chronological_reads s, ?_⟩, fun hrefused => by omega⟩
    rw [hr, answer_ok_eq_afterQuery]
    have hgroups : ∀ i ∈ List.range length.toNat,
        mean (analyze s.view) (i * (64 / length.toNat)) ((i + 1) * (64 / length.toNat))
          = binMean (chronological s.view) (i * (64 / length.toNat)) ((i + 1) * (64 / length.toNat)) := by
      intro i hi
      have hend : (i + 1) * (64 / length.toNat) ≤ 64 :=
        calc (i + 1) * (64 / length.toNat)
            ≤ length.toNat * (64 / length.toNat) := Nat.mul_le_mul_right _ (List.mem_range.1 hi)
          _ ≤ 64 := Nat.mul_div_le _ _
      exact mean_eq_binMean _ (chronological_length _) _ _ hend
    rw [List.map_congr_left hgroups]
  · refine ⟨fun haccepted => by omega, fun _ => ?_⟩
    rw [hr, answer_error_eq_afterQuery]

/-! ## Logarithmic mode -/

theorem exec_log_averages (s : State) (length : Word) :
    exec (.getBandAverages 1#4 length) s
      = .next (s.answer (reduceLog (analyze s.view) s.view.rate length.toNat)) := rfl

theorem not_isFinite_iff (w : Word) : isFinite w = false ↔ isNaN w = true ∨ isInf w = true := by
  rw [← Bool.not_eq_true, isFinite_iff, isNaN_iff, isInf_iff]
  omega

theorem logRejected_iff (rate : Word) (l : Nat) :
    logRejected rate l ↔ isFinite rate = false ∨ lt32 0#32 rate = false ∨ l = 2 ^ 32 - 1 ∨ octaves rate = 0
      ∨ l + 1 < octaves rate := by
  have hrate : (isNaN rate || isInf rate || !lt32 0#32 rate) = true ↔ isFinite rate = false ∨ lt32 0#32 rate = false := by
    rw [not_isFinite_iff]
    simp
  rw [logRejected, hrate, Nat.div_eq_zero_iff]
  tauto

/-- The index of a frequency, written out (R84). -/
theorem binIndex_eq_frequencyIndex (rate f : Word) : binIndex rate f = frequencyIndex rate f := by
  simp only [binIndex, frequencyIndex, toIndex, fftN_eq, fftH_eq]
  generalize div32 (mul32 (u2f 128) f) rate = v
  cases hnan : isNaN v with
  | true => rfl
  | false =>
    cases hinf : isInf v with
    | true =>
      rw [eq_of_isInf v hinf]
      cases signBit v <;> rfl
    | false =>
      have hpos : v ≠ 0x7F800000#32 := by rintro rfl; cases hinf
      have hneg : v ≠ 0xFF800000#32 := by rintro rfl; cases hinf
      simp only [Bool.false_eq_true, if_false, hpos, hneg, floorZ]
      omega

/-- The edge after `f`: one step on, held at the octave's end (R87, C8 of 90_conflicts.md). -/
def nextEdge (step hi f : Word) : Word := min32 (add32 f step) hi

/-- The j-th sub-band from the edge `f` lies between the j-th edge and the next one (R87). -/
theorem subBands_getElem? (mag : List Word) (rate step hi : Word) (n j : Nat) (f : Word) (h : j < n) :
    (subBands mag rate step hi n f)[j]? = some (mean mag (binIndex rate ((nextEdge step hi)^[j] f))
      (max (binIndex rate ((nextEdge step hi)^[j + 1] f)) (binIndex rate ((nextEdge step hi)^[j] f) + 1))) := by
  induction n generalizing f j with
  | zero => exact absurd h (Nat.not_lt_zero j)
  | succ n ih =>
    cases j with
    | zero => rfl
    | succ j =>
      rw [subBands, List.getElem?_cons_succ, ih j _ (Nat.lt_of_succ_lt_succ h)]
      rfl

/-- Entry i·m + j of groups of m entries each is entry j of group i. -/
theorem getElem?_flatMap_range {α : Type} (f : Nat → List α) (o m i j : Nat) (hlen : ∀ k, (f k).length = m) (hi : i < o)
    (hj : j < m) : ((List.range o).flatMap f)[i * m + j]? = (f i)[j]? := by
  induction o with
  | zero => exact absurd hi (Nat.not_lt_zero i)
  | succ o ih =>
    have hlength : ((List.range o).flatMap f).length = o * m := by simp [List.length_flatMap, hlen]
    rw [List.range_succ, List.flatMap_append, List.flatMap_singleton]
    rcases Nat.lt_succ_iff_lt_or_eq.1 hi with hlt | rfl
    · have hin : i * m + j < o * m :=
        calc i * m + j < (i + 1) * m := by rw [Nat.succ_mul]; omega
          _ ≤ o * m := Nat.mul_le_mul_right _ hlt
      rw [List.getElem?_append_left (hlength ▸ hin), ih hlt]
    · rw [List.getElem?_append_right (by omega), hlength, Nat.add_sub_cancel_left]

/-- The words of an accepted logarithmic request (R87). -/
def logBands (mag : List Word) (rate : Word) (l : Nat) : List Word :=
  (List.range (octaves rate)).flatMap (octaveBands mag rate (octaves rate) ((l + 1) / octaves rate))
    ++ List.replicate (l + 1 - octaves rate * ((l + 1) / octaves rate)) 0#32

theorem octaveBands_flatMap_length (mag : List Word) (rate : Word) (o bpo : Nat) :
    ((List.range o).flatMap (octaveBands mag rate o bpo)).length = o * bpo := by
  simp [List.length_flatMap]

theorem logBands_length (mag : List Word) (rate : Word) (l : Nat) : (logBands mag rate l).length = l + 1 := by
  have hfit : octaves rate * ((l + 1) / octaves rate) ≤ l + 1 := Nat.mul_div_le _ _
  rw [logBands, List.length_append, octaveBands_flatMap_length, List.length_replicate]
  omega

/-- The slots after the last octave (R87). -/
theorem logBands_spare (mag : List Word) (rate : Word) (l k : Nat) (h₁ : octaves rate * ((l + 1) / octaves rate) ≤ k)
    (h₂ : k ≤ l) : (logBands mag rate l)[k]? = some 0#32 := by
  rw [logBands, List.getElem?_append_right (by rwa [octaveBands_flatMap_length]), octaveBands_flatMap_length,
    List.getElem?_replicate, if_pos (by omega)]

/-- The slot of the j-th sub-band of octave i (R87). -/
theorem logBands_octave (mag : List Word) (rate : Word) (l i j : Nat) (hi : i < octaves rate)
    (hj : j < (l + 1) / octaves rate) :
    (logBands mag rate l)[i * ((l + 1) / octaves rate) + j]?
      = (octaveBands mag rate (octaves rate) ((l + 1) / octaves rate) i)[j]? := by
  have hgroup := getElem?_flatMap_range (octaveBands mag rate (octaves rate) ((l + 1) / octaves rate)) _ _ i j
    (octaveBands_length _ _ _ _) hi hj
  have hsome : j < (octaveBands mag rate (octaves rate) ((l + 1) / octaves rate) i).length := by
    rwa [octaveBands_length]
  rw [List.getElem?_eq_getElem hsome] at hgroup ⊢
  obtain ⟨hlt, -⟩ := List.getElem?_eq_some_iff.1 hgroup
  rw [logBands, List.getElem?_append_left hlt, hgroup]

/-- The magnitude index of edge j of octave i: the edges go from the octave's lower end upward by its step (R84, R87). -/
def edgeIndex (rate : Word) (o bpo i j : Nat) : Nat :=
  let lo := octaveLo (nyquist rate) o i
  let hi := octaveHi (nyquist rate) o i
  frequencyIndex rate ((nextEdge (div32 (sub32 hi lo) (u2f bpo)) hi)^[j] lo)

theorem edgeIndex_lt (rate : Word) (o bpo i j : Nat) : edgeIndex rate o bpo i j < 64 := by
  rw [edgeIndex, ← binIndex_eq_frequencyIndex]
  exact binIndex_lt _ _

/-- Sub-band j of octave i, one bin at least; it ends within the 64 magnitudes (R84, R87). -/
theorem octaveBands_getElem? (xs : List Word) (h : xs.length = 128) (rate : Word) (o bpo i j : Nat) (hj : j < bpo) :
    (octaveBands (magnitudes (windowed xs)) rate o bpo i)[j]? = some (binMean xs (edgeIndex rate o bpo i j)
      (max (edgeIndex rate o bpo i (j + 1)) (edgeIndex rate o bpo i j + 1))) := by
  rw [octaveBands, subBands_getElem? _ _ _ _ _ _ _ hj, binIndex_eq_frequencyIndex, binIndex_eq_frequencyIndex]
  exact congrArg some
    (mean_eq_binMean xs h _ _ (max_le (edgeIndex_lt rate o bpo i _).le (edgeIndex_lt rate o bpo i j)))

/-- Settles O39: the accepted request slot by slot, the refused one by what the reducer rejects. -/
theorem logBandAveragesResult : Obligations.LogBandAveragesResult := by
  intro s length
  refine ⟨s.view.sample 0, sample_mem_interval s 0, ?_⟩
  intro rate ny bpo lo hi step next index
  rw [exec_log_averages]
  rcases reduceLog_cases (analyze s.view) s.view.rate length.toNat with ⟨haccepted, hr⟩ | ⟨hrejected, hr⟩
  · refine ⟨fun _ => ⟨chronological s.view, logBands (analyze s.view) rate length.toNat, chronological_reads s, ?_,
      logBands_length _ _ _, fun i j hi hj => ?_, logBands_spare _ _ _⟩,
      fun hrefused => absurd ((logRejected_iff _ _).2 hrefused) haccepted⟩
    · rw [hr, answer_ok_eq_afterQuery]
      rfl
    · rw [logBands_octave _ _ _ _ _ hi hj]
      exact octaveBands_getElem? _ (chronological_length _) rate _ _ i j hj
  · refine ⟨fun ⟨hfinite, hpos, hlength, hone, hoctaves⟩ => ?_, fun _ => ?_⟩
    · rcases (logRejected_iff _ _).1 hrejected with h | h | h | h | h
      · cases hfinite.symm.trans h
      · cases hpos.symm.trans h
      · omega
      · exact absurd h (Nat.pos_iff_ne_zero.1 hone)
      · exact absurd h (Nat.not_lt.2 hoctaves)
    · rw [hr, answer_error_eq_afterQuery]

end Sys2Proof.Machine
end

section
/-! The decoder as the inverse of the encoder, and what it turns away (30_encoding.md R51 to R57). -/

namespace Sys2Proof

open Sys2Proof.Machine Sys2Proof.Laws.CommandWord

/-! ## The bits a command does not use (R52, R55) -/

/-- The word with ones at exactly the `len` bits from bit `start` up. -/
def fieldMask (start len : Nat) : Word := (BitVec.allOnes len).setWidth 32 <<< start

theorem getLsbD_fieldMask (start len i : Nat) :
    (fieldMask start len).getLsbD i = decide (i < 32 ∧ start ≤ i ∧ i < start + len) := by
  rw [fieldMask, BitVec.getLsbD_shiftLeft, BitVec.getLsbD_setWidth, BitVec.getLsbD_allOnes, Bool.eq_iff_iff]
  simp only [Bool.and_eq_true, Bool.not_eq_true', decide_eq_true_eq, decide_eq_false_iff_not]
  omega

/-- A field is zero exactly when the word has no bit under the field's mask. -/
theorem field_eq_zero_iff (w : Word) (start len : Nat) :
    w.extractLsb' start len = 0#len ↔ w &&& fieldMask start len = 0#32 := by
  simp only [BitVec.eq_of_getLsbD_eq_iff, BitVec.getLsbD_extractLsb', BitVec.getLsbD_and, BitVec.getLsbD_zero,
    getLsbD_fieldMask]
  constructor
  · intro h i hi
    by_cases hin : start ≤ i ∧ i < start + len
    · have hbit := h (i - start) (by omega)
      rw [Nat.add_sub_cancel' hin.1, decide_eq_true (by omega), Bool.true_and] at hbit
      rw [hbit, Bool.false_and]
    · rw [decide_eq_false (by omega), Bool.and_false]
  · intro h j hj
    by_cases hlt : start + j < 32
    · have hbit := h (start + j) hlt
      rw [decide_eq_true (by omega), Bool.and_true] at hbit
      rw [hbit, Bool.and_false]
    · rw [BitVec.getLsbD_of_ge w _ (Nat.le_of_not_lt hlt), Bool.and_false]

/-- MODE lies between the two fields that GET_BAND_AVERAGES does not use. -/
theorem reservedBits_getBandAverages_eq_zero_iff (w : Word) :
    reservedBits .getBandAverages w = 0 ↔ (w.extractLsb' 16 16).toNat = 0 ∧ (w.extractLsb' 8 4).toNat = 0 := by
  rw [reservedBits, append_toNat]
  omega

/-- RESERVED is zero exactly when no bit under the mnemonic's mask of unused bits is set. -/
theorem reservedBits_eq_zero_iff (op : Opcode) (w : Word) : reservedBits op w = 0 ↔ w &&& unusedMask op = 0#32 := by
  have field {start len : Nat} : (w.extractLsb' start len).toNat = 0 ↔ w &&& fieldMask start len = 0#32 := by
    rw [← field_eq_zero_iff, ← BitVec.toNat_inj, BitVec.toNat_ofNat, Nat.zero_mod]
  cases op with
  | feed | feedBlock | setSampleRate | getSampleRate | getPeak | getRms | peakN | rmsN | copyWaveform => exact field
  | getBandAverages =>
    calc reservedBits .getBandAverages w = 0
      _ ↔ (w.extractLsb' 16 16).toNat = 0 ∧ (w.extractLsb' 8 4).toNat = 0 :=
        reservedBits_getBandAverages_eq_zero_iff w
      _ ↔ w &&& fieldMask 16 16 = 0#32 ∧ w &&& fieldMask 8 4 = 0#32 := and_congr field field
      _ ↔ w &&& (fieldMask 16 16 ||| fieldMask 8 4) = 0#32 := by
        rw [BitVec.and_or_distrib_left, BitVec.or_eq_zero_iff]

/-! ## Operand assembly is the inverse of encoding (R53, R54) -/

/-! An accepted command word is put together from the fields its command uses; the other fields are zero. -/

theorem commandWord_of_opc (w : Word) (h : reservedBits .feed w = 0) :
    commandWord 0#16 0#4 0#4 (opcField w) = w := by
  apply BitVec.eq_of_toNat_eq
  rw [reservedBits, field_toNat] at h
  rw [commandWord_toNat, opcField, field_toNat]
  have := w.isLt
  simp only [BitVec.toNat_ofNat]
  omega

theorem commandWord_of_cnt (w : Word) (h : reservedBits .feedBlock w = 0) :
    commandWord (cntField w) 0#4 0#4 (opcField w) = w := by
  apply BitVec.eq_of_toNat_eq
  rw [reservedBits, field_toNat] at h
  rw [commandWord_toNat, opcField, cntField, field_toNat, field_toNat]
  have := w.isLt
  simp only [BitVec.toNat_ofNat]
  omega

theorem commandWord_of_band (w : Word) (h : reservedBits .peakN w = 0) :
    commandWord 0#16 0#4 (bandField w) (opcField w) = w := by
  apply BitVec.eq_of_toNat_eq
  rw [reservedBits, field_toNat] at h
  rw [commandWord_toNat, opcField, bandField, field_toNat, field_toNat]
  have := w.isLt
  simp only [BitVec.toNat_ofNat]
  omega

theorem commandWord_of_mode (w : Word) (h : reservedBits .getBandAverages w = 0) :
    commandWord 0#16 (modeField w) 0#4 (opcField w) = w := by
  apply BitVec.eq_of_toNat_eq
  rw [reservedBits_getBandAverages_eq_zero_iff, field_toNat, field_toNat] at h
  rw [commandWord_toNat, opcField, modeField, field_toNat, field_toNat]
  have := w.isLt
  simp only [BitVec.toNat_ofNat]
  omega

/-- The argument words the decoder takes together with a command word. -/
def operandWords (op : Opcode) (arg : Word) : List Word := if takesArg op then [arg] else []

/-- Encoding the command assembled from an accepted command word gives that word and its argument back. -/
theorem encode_assemble (op : Opcode) (w arg : Word) (hop : opcodeCode op = opcField w) (hres : reservedBits op w = 0) :
    encode (assemble op w arg) = w :: operandWords op arg := by
  cases op with
  | feed | setSampleRate | getSampleRate =>
    simp only [encode, assemble, hop, commandWord_of_opc w hres]; rfl
  | feedBlock => simp only [encode, assemble, hop, commandWord_of_cnt w hres]; rfl
  | getPeak | getRms | peakN | rmsN | copyWaveform =>
    simp only [encode, assemble, hop, commandWord_of_band w hres]; rfl
  | getBandAverages => simp only [encode, assemble, hop, commandWord_of_mode w hres]; rfl

/-- Every command is assembled from a command word with its unused bits zero. -/
theorem exists_assemble (i : Instr) :
    ∃ op cnt mode band arg, reservedBits op (commandWord cnt mode band (opcodeCode op)) = 0
      ∧ i = assemble op (commandWord cnt mode band (opcodeCode op)) arg := by
  cases i with
  | feed x => exact ⟨.feed, 0#16, 0#4, 0#4, x, upper_word _, rfl⟩
  | feedBlock cnt =>
    exact ⟨.feedBlock, cnt, 0#4, 0#4, 0#32, upper_blockWord cnt _, by rw [assemble, cntField_commandWord]⟩
  | setSampleRate rate => exact ⟨.setSampleRate, 0#16, 0#4, 0#4, rate, upper_word _, rfl⟩
  | getSampleRate => exact ⟨.getSampleRate, 0#16, 0#4, 0#4, 0#32, upper_word _, rfl⟩
  | getPeak band d =>
    exact ⟨.getPeak, 0#16, 0#4, band, d, upper_bandWord band _, by rw [assemble, bandField_commandWord]⟩
  | getRms band d =>
    exact ⟨.getRms, 0#16, 0#4, band, d, upper_bandWord band _, by rw [assemble, bandField_commandWord]⟩
  | peakN band r =>
    exact ⟨.peakN, 0#16, 0#4, band, r, upper_bandWord band _, by rw [assemble, bandField_commandWord]⟩
  | rmsN band r =>
    exact ⟨.rmsN, 0#16, 0#4, band, r, upper_bandWord band _, by rw [assemble, bandField_commandWord]⟩
  | copyWaveform band l =>
    exact ⟨.copyWaveform, 0#16, 0#4, band, l, upper_bandWord band _, by rw [assemble, bandField_commandWord]⟩
  | getBandAverages mode l =>
    exact ⟨.getBandAverages, 0#16, mode, 0#4, l, unused_modeWord mode _, by rw [assemble, modeField_commandWord]⟩

/-! ## What decode answers (R55) -/

theorem opcodeOn_eq_none_iff (port : PortId) (b : BitVec 8) :
    opcodeOn port b = none ↔ ∀ op, opcodeCode op = b → opcodePort op ≠ port := by
  simp only [Option.eq_none_iff_forall_ne_some, ne_eq, opcodeOn_iff, not_and]

theorem decode_of_unassigned (port : PortId) (w : Word) (rest : List Word) (h : opcodeOn port (opcField w) = none) :
    decode port (w :: rest) = .reject .unassignedOpcode 0 rest := by
  simp only [decode, h]

theorem decode_of_reserved (port : PortId) (op : Opcode) (w : Word) (rest : List Word)
    (hop : opcodeOn port (opcField w) = some op) (hres : reservedBits op w ≠ 0) :
    decode port (w :: rest) = .reject .reservedField (argCount op w) rest := by
  simp only [decode, hop, if_pos hres]

/-- Operand assembly reads no argument word where the decoder takes none. -/
theorem assemble_of_not_takesArg (op : Opcode) (w arg : Word) (h : takesArg op = false) :
    assemble op w arg = assemble op w 0#32 := by
  cases op with
  | feedBlock | getSampleRate => rfl
  | _ => cases h

/-- A command is decoded exactly from an accepted command word of the port, followed by its argument. -/
theorem decode_eq_command_iff (port : PortId) (ws rest : List Word) (i : Instr) :
    decode port ws = .command i rest
      ↔ ∃ op w arg, opcodeOn port (opcField w) = some op ∧ reservedBits op w = 0 ∧ i = assemble op w arg
        ∧ ws = w :: operandWords op arg ++ rest := by
  constructor
  · intro h
    cases ws with
    | nil => cases h
    | cons w tail =>
      simp only [decode] at h
      cases hop : opcodeOn port (opcField w) with
      | none => simp [hop] at h
      | some op =>
        simp only [hop] at h
        split at h
        · cases h
        · next hres =>
          split at h
          · next htakes =>
            cases tail with
            | nil => cases h
            | cons arg tail =>
              cases h
              exact ⟨op, w, arg, hop, not_not.1 hres, rfl, by rw [operandWords, if_pos htakes]; rfl⟩
          · next htakes =>
            cases h
            exact ⟨op, w, 0#32, hop, not_not.1 hres, rfl, by rw [operandWords, if_neg htakes]; rfl⟩
  · rintro ⟨op, w, arg, hop, hres, rfl, rfl⟩
    cases htakes : takesArg op with
    | true => simp [decode, operandWords, hop, hres, htakes]
    | false => simp [decode, operandWords, hop, hres, htakes, assemble_of_not_takesArg op w arg htakes]

/-! ## The statements -/

/-- Settles O1: every command is assembled from a word that the decoder accepts. -/
theorem decodeOfEncodeIsTheCommand : Obligations.DecodeOfEncodeIsTheCommand := by
  intro i rest
  obtain ⟨op, cnt, mode, band, arg, hres, rfl⟩ := exists_assemble i
  have hcode : opcodeCode op = opcField (commandWord cnt mode band (opcodeCode op)) := (opcField_commandWord ..).symm
  rw [decode_eq_command_iff, encode_assemble op _ arg hcode hres]
  exact ⟨op, _, arg, (opcodeOn_iff _ _ _).2 ⟨hcode, (assemble_port ..).symm⟩, hres, rfl, rfl⟩

/-- Settles O2, by inverting the decoder. -/
theorem decodedWordsAreTheEncoding : Obligations.DecodedWordsAreTheEncoding := by
  intro port ws rest i h
  obtain ⟨op, w, arg, hop, hres, rfl, rfl⟩ := (decode_eq_command_iff port ws rest i).1 h
  obtain ⟨hcode, hport⟩ := (opcodeOn_iff _ _ _).1 hop
  exact ⟨by rw [encode_assemble op w arg hcode hres], by rw [assemble_port, hport]⟩

/-- Settles O3: the opcode map has no mnemonic to answer. -/
theorem unassignedOpcodesAreRejected : Obligations.UnassignedOpcodesAreRejected := by
  intro port w rest h
  exact decode_of_unassigned port w rest ((opcodeOn_eq_none_iff _ _).2 h)

/-- Settles O4: the decoder's reserved fields are the mask's bits. -/
theorem reservedBitsAreRejected : Obligations.ReservedBitsAreRejected := by
  intro op w rest hcode hmask
  have hres : reservedBits op w ≠ 0 := mt (reservedBits_eq_zero_iff op w).1 hmask
  exact decode_of_reserved _ op w rest ((opcodeOn_iff _ _ _).2 ⟨hcode, rfl⟩) hres

end Sys2Proof
end

section
/-! A turn of each port with a command at the head of its stream: it runs the command, or turns it away and consumes its
arguments (30_encoding.md R55, R57, 60_exceptions.md R103). -/

namespace Sys2Proof.Machine

/-! ## Running the command decoded -/

theorem producerTurn_of_command (s : State) (i : Instr) (rest : List Word) (hphase : s.p.phase = .command)
    (hd : decode .p s.p.input = .command i rest) : producerTurn s = exec i (s.setProducerInput rest) := by
  simp only [producerTurn, hphase, hd]

theorem step_of_turn (s : State) (turn : Turn) (h : (nextTurn s).1 = turn) : step s = takeTurn turn (nextTurn s).2 := by
  rw [step, h]

/-- Settles O7: choosing the turn leaves port P as it was. -/
theorem producerStepRunsTheCommand : Obligations.ProducerStepRunsTheCommand := by
  intro s i rest hturn hphase hd
  obtain ⟨-, hp, -⟩ := nextTurn_state s
  rw [← hp] at hphase hd
  exact (step_of_turn s .producer hturn).trans (producerTurn_of_command _ i rest hphase hd)

/-- Settles O8: choosing the turn leaves port Q as it was. -/
theorem consumerStepRunsTheQuery : Obligations.ConsumerStepRunsTheQuery := by
  intro s i hturn
  obtain ⟨-, -, hq, -⟩ := nextTurn_state s
  rw [← hq, step_of_turn s .consumer hturn]
  exact ⟨fun rest hphase hd => consumerTurn_of_command _ i rest hphase hd,
    fun past hphase => consumerTurn_of_query _ i past hphase⟩

/-! ## Turning a command away -/

theorem producerTurn_of_reject (s : State) (e : DecodeError) (n : Nat) (rest : List Word) (hphase : s.p.phase = .command)
    (hd : decode .p s.p.input = .reject e n rest) :
    producerTurn s = .next ((s.setProducerInput rest).rejectProducer e n) := by
  simp only [producerTurn, hphase, hd]

theorem consumerTurn_of_reject (s : State) (e : DecodeError) (n : Nat) (rest : List Word) (hphase : s.q.phase = .command)
    (hd : decode .q s.q.input = .reject e n rest) :
    consumerTurn s = .next ((s.setConsumerInput rest).rejectConsumer e n) := by
  simp only [consumerTurn, hphase, hd]

/-- Once no argument is left to consume the command is answered; a port that was between commands is so again. -/
theorem rejectProducer_zero (s : State) (e : DecodeError) (rest : List Word) (hphase : s.p.phase = .command) :
    (s.setProducerInput rest).rejectProducer e 0
      = { s with p := { s.p with input := rest, output := s.p.output ++ [codeWord (errorStatus e), 0#32] } } := by
  simp only [← statusWord_eq_codeWord, hphase]
  rfl

theorem rejectConsumer_zero (s : State) (e : DecodeError) (rest : List Word) (hphase : s.q.phase = .command) :
    (s.setConsumerInput rest).rejectConsumer e 0
      = { s with q := { s.q with input := rest, output := s.q.output ++ [codeWord (errorStatus e), 0#32] } } := by
  simp only [← statusWord_eq_codeWord, hphase]
  rfl

/-- Settles O11: the decoder leaves no argument to consume. -/
theorem unassignedOpcodeAnswersErrOpcode : Obligations.UnassignedOpcodeAnswersErrOpcode := by
  intro s w rest
  constructor
  · intro hphase hinput hop
    have hd : decode .p s.p.input = .reject .unassignedOpcode 0 rest := by
      rw [hinput]; exact unassignedOpcodesAreRejected .p w rest hop
    rw [takeTurn, producerTurn_of_reject s _ 0 rest hphase hd, rejectProducer_zero s _ rest hphase]
    rfl
  · intro hphase hinput hop
    have hd : decode .q s.q.input = .reject .unassignedOpcode 0 rest := by
      rw [hinput]; exact unassignedOpcodesAreRejected .q w rest hop
    rw [takeTurn, consumerTurn_of_reject s _ 0 rest hphase hd, rejectConsumer_zero s _ rest hphase]
    rfl

/-! ## Consuming the arguments of a rejected command (R55, log 11) -/

/-- A run whose first turn is known. -/
theorem runTurns_cons (turn : Turn) (turns : List Turn) (s t : State) (h : takeTurn turn s = .next t) :
    runTurns (turn :: turns) s = runTurns turns t := by
  rw [runTurns, h]

/-- While arguments are awaited, a turn takes one of them. -/
theorem takeTurn_rejectProducer_succ (s : State) (n : Nat) (x : Word) (rest : List Word) :
    takeTurn .producer ((s.setProducerInput (x :: rest)).rejectProducer .reservedField (n + 1))
      = .next ((s.setProducerInput rest).rejectProducer .reservedField n) := by
  cases n <;> rfl

theorem takeTurn_rejectConsumer_succ (s : State) (n : Nat) (x : Word) (rest : List Word) :
    takeTurn .consumer ((s.setConsumerInput (x :: rest)).rejectConsumer .reservedField (n + 1))
      = .next ((s.setConsumerInput rest).rejectConsumer .reservedField n) := by
  cases n <;> rfl

/-- One turn for each argument consumes them all and answers. -/
theorem runTurns_rejectProducer (s : State) (args rest : List Word) :
    runTurns (List.replicate args.length .producer)
        ((s.setProducerInput (args ++ rest)).rejectProducer .reservedField args.length)
      = .next ((s.setProducerInput rest).rejectProducer .reservedField 0) := by
  induction args with
  | nil => rfl
  | cons x args ih =>
    rw [List.length_cons, List.replicate_succ, List.cons_append,
      runTurns_cons _ _ _ _ (takeTurn_rejectProducer_succ s args.length x (args ++ rest)), ih]

theorem runTurns_rejectConsumer (s : State) (args rest : List Word) :
    runTurns (List.replicate args.length .consumer)
        ((s.setConsumerInput (args ++ rest)).rejectConsumer .reservedField args.length)
      = .next ((s.setConsumerInput rest).rejectConsumer .reservedField 0) := by
  induction args with
  | nil => rfl
  | cons x args ih =>
    rw [List.length_cons, List.replicate_succ, List.cons_append,
      runTurns_cons _ _ _ _ (takeTurn_rejectConsumer_succ s args.length x (args ++ rest)), ih]

/-- Settles O12: the first turn rejects the command word, and each turn after it takes one argument. -/
theorem reservedCommandConsumesItsArguments : Obligations.ReservedCommandConsumesItsArguments := by
  intro s op w args rest hcode hmask hlen
  have hreject : decode (opcodePort op) (w :: args ++ rest) = .reject .reservedField args.length (args ++ rest) := by
    rw [hlen]; exact reservedBitsAreRejected op w (args ++ rest) hcode hmask
  rw [Nat.add_comm, List.replicate_succ, List.replicate_succ]
  constructor
  · intro hport hphase hinput
    rw [hport, ← hinput] at hreject
    have hturn : takeTurn .producer s = _ := producerTurn_of_reject s _ _ _ hphase hreject
    rw [runTurns_cons _ _ _ _ hturn, runTurns_rejectProducer,
      rejectProducer_zero s _ rest hphase]
    rfl
  · intro hport hphase hinput
    rw [hport, ← hinput] at hreject
    have hturn : takeTurn .consumer s = _ := consumerTurn_of_reject s _ _ _ hphase hreject
    rw [runTurns_cons _ _ _ _ hturn, runTurns_rejectConsumer,
      rejectConsumer_zero s _ rest hphase]
    rfl

end Sys2Proof.Machine
end

section
/-! The assembler forms: the pseudo-instructions and the encoding examples (30_encoding.md R58 to R60). -/

namespace Sys2Proof.Machine

/-! ## feed.zeros (R59) -/

/-- Up to 65535 samples fit one block. -/
theorem feedZerosWords_of_le (n : Nat) (h : n ≤ 65535) : feedZerosWords n = encodeBlock (List.replicate n 0#32) := by
  simp only [feedZerosWords, if_pos h, Nat.mul_zero, Nat.sub_zero, List.replicate_zero, List.flatten_nil, ne_eq,
    not_true_eq_false, false_and, if_false, List.nil_append]

/-- Beyond that, the full blocks come first, and a remainder is one block more. -/
theorem feedZerosWords_of_gt (n : Nat) (h : 65535 < n) :
    feedZerosWords n = (List.replicate (n / 65535) (encodeBlock (List.replicate 65535 0#32))).flatten
      ++ if n % 65535 = 0 then [] else encodeBlock (List.replicate (n % 65535) 0#32) := by
  have hfull : n / 65535 ≠ 0 := by omega
  have hlast : n - 65535 * (n / 65535) = n % 65535 := by omega
  simp only [feedZerosWords, if_neg (Nat.not_le.2 h), hlast, ne_eq, hfull, not_false_eq_true, true_and]

/-- Full blocks and one of a remainder in 1..65535; a remainder of 65535 is itself a full block. -/
theorem feedZerosWords_blocks (q r : Nat) (hpos : 1 ≤ r) (hle : r ≤ 65535) :
    feedZerosWords (65535 * q + r) = (List.replicate q (encodeBlock (List.replicate 65535 0#32))).flatten
      ++ encodeBlock (List.replicate r 0#32) := by
  by_cases hn : 65535 * q + r ≤ 65535
  · obtain rfl : q = 0 := by omega
    rw [feedZerosWords_of_le _ hn, Nat.mul_zero, Nat.zero_add, List.replicate_zero, List.flatten_nil, List.nil_append]
  · rw [feedZerosWords_of_gt _ (Nat.not_le.1 hn)]
    by_cases hr : r = 65535
    · rw [hr, show (65535 * q + 65535) / 65535 = q + 1 by omega, if_pos (by omega), List.append_nil, List.replicate_succ',
        List.flatten_append, List.flatten_singleton]
    · rw [show (65535 * q + r) / 65535 = q by omega, show (65535 * q + r) % 65535 = r by omega, if_neg (by omega)]

/-- Settles O6: the count of blocks is arithmetic, the blocks themselves are `feedZerosWords_blocks`. -/
theorem feedZerosExpansion : Obligations.FeedZerosExpansion := by
  refine ⟨fun _ => rfl, fun n hn => ?_, fun q r hpos hle => ⟨?_, by omega⟩⟩
  · have hlen : (List.replicate n 0#32).length ≤ 65535 := by rwa [List.length_replicate]
    rw [asmWords, asmWords, if_pos hlen, feedZerosWords_of_le n hn]
  · rw [asmWords, feedZerosWords_blocks q r hpos hle]

/-! ## The examples (R60) -/

/-- Settles O5: each line's words are evaluated; a line that stands for a command decodes by O1, the `.word` lines by the
rules of what the decoder turns away. -/
theorem encodingExamplesDecode : Obligations.EncodingExamplesDecode := by
  unfold Obligations.EncodingExamplesDecode
  have line (i : Instr) (rest : List Word) := decodeOfEncodeIsTheCommand i rest
  refine ⟨⟨rfl, rfl, rfl, rfl⟩, ⟨rfl, line (.feed 0x3F800000#32) []⟩,
    ⟨rfl, line (.feedBlock 2#16) [0x3F800000#32, 0x40000000#32]⟩, ⟨rfl, line (.setSampleRate 0x473B8000#32) []⟩,
    ⟨rfl, line .getSampleRate []⟩, ⟨rfl, line (.getPeak 0#4 0x3A83126F#32) []⟩,
    ⟨rfl, line (.getRms 3#4 0x3F800000#32) []⟩, ⟨rfl, line (.peakN 3#4 4#32) []⟩, ⟨rfl, line (.rmsN 1#4 0#32) []⟩,
    ⟨rfl, line (.copyWaveform 2#4 4#32) []⟩, ⟨rfl, line (.getBandAverages 1#4 8#32) []⟩,
    ⟨rfl, decode_of_reserved .p .feed _ _ rfl (by decide), rfl⟩,
    ⟨rfl, decode_of_unassigned .p _ _ rfl, decode_of_unassigned .p _ _ rfl, rfl⟩⟩

end Sys2Proof.Machine
end

section
/-! What stays in a filter section (40_filter_section.md R67, 70_reset_and_hazards.md R113, R119): one update of every
section, and the classes of words that it keeps in the filter registers. -/

namespace Sys2Proof.Machine

/-! ## One FEED -/

/-- Settles O17: the bank a FEED leaves is `processBank` of the old one, read section by section. -/
theorem feedUpdatesEverySection : Obligations.FeedUpdatesEverySection := by
  intro s t x h
  rw [exec_feed_shared s t x h, feedShared_bank]
  refine ⟨fun id => ?_, fun first second hmem => ?_⟩
  · obtain ⟨y, hy⟩ := processBank_get s.shared.bank x id
    rw [hy, feedSection_coeffs]
  · simp only [List.mem_cons, Prod.mk.injEq, List.not_mem_nil, or_false] at hmem
    rcases hmem with ⟨rfl, rfl⟩ | ⟨rfl, rfl⟩ | ⟨rfl, rfl⟩ <;> exact ⟨rfl, rfl, rfl, rfl⟩

/-! ## Classes of words that arithmetic does not leave -/

/-- A class of words that a sum, a product and a negation stay in once an operand is in it. -/
structure Absorbing (p : Word → Prop) : Prop where
  add : ∀ a b, p a ∨ p b → p (add32 a b)
  mul : ∀ a b, p a ∨ p b → p (mul32 a b)
  neg : ∀ a, p a → p (neg32 a)

theorem Absorbing.sub {p : Word → Prop} (hp : Absorbing p) (a b : Word) (h : p a ∨ p b) : p (sub32 a b) :=
  hp.add a (neg32 b) (h.imp_right (hp.neg b))

/-- The NaNs (R12, R13). -/
theorem absorbing_isNaN : Absorbing fun w => isNaN w = true where
  add a b h := by rw [add32_of_nan a b h]; rfl
  mul a b h := by rw [mul32_of_nan a b h]; rfl
  neg a h := by rwa [neg32_isNaN]

theorem not_isFinite_pack_infinity (neg : Bool) : isFinite (pack neg 0x7F800000) = false := by
  cases neg <;> rfl

/-- An infinity meets any word in an infinity or a NaN: only an infinity of the other sign cancels it. -/
theorem add32_inf_not_isFinite (a b : Word) (ha : isInf a = true) :
    isFinite (add32 a b) = false ∧ isFinite (add32 b a) = false := by
  have hself : isFinite a = false := (not_isFinite_iff a).2 (.inr ha)
  cases nb : isNaN b with
  | true =>
    rw [add32_of_nan a b (.inr nb), add32_of_nan b a (.inl nb)]
    exact ⟨rfl, rfl⟩
  | false =>
    by_cases hcancel : isInf b = true ∧ signBit a ≠ signBit b
    · obtain ⟨ib, hs⟩ := hcancel
      rw [add32_of_infs a b ha ib hs, add32_of_infs b a ib ha hs.symm]
      exact ⟨rfl, rfl⟩
    · obtain ⟨hab, hba⟩ := add32_of_inf a b ha nb (by
        rw [← Bool.not_eq_true]
        exact or_iff_not_imp_left.2 fun ib => by_contra fun hs => hcancel ⟨not_not.1 ib, hs⟩)
      rw [hab, hba]
      exact ⟨hself, hself⟩

/-- The product of an infinity is an infinity, or a NaN for a factor of zero or NaN. -/
theorem mul32_inf_not_isFinite (a b : Word) (ha : isInf a = true) : isFinite (mul32 a b) = false := by
  cases nb : isNaN b with
  | true => rw [mul32_of_nan a b (.inr nb)]; rfl
  | false =>
    rw [mul32_of_inf a b ha nb]
    split
    · rfl
    · exact not_isFinite_pack_infinity _

/-- The NaNs and the infinities together (R12). -/
theorem absorbing_not_isFinite : Absorbing fun w => isFinite w = false where
  add a b h := by
    rw [not_isFinite_iff, not_isFinite_iff] at h
    rcases h with (na | ia) | (nb | ib)
    · rw [add32_of_nan a b (.inl na)]; rfl
    · exact (add32_inf_not_isFinite a b ia).1
    · rw [add32_of_nan a b (.inr nb)]; rfl
    · exact (add32_inf_not_isFinite b a ib).2
  mul a b h := by
    rw [not_isFinite_iff, not_isFinite_iff] at h
    rcases h with (na | ia) | (nb | ib)
    · rw [mul32_of_nan a b (.inl na)]; rfl
    · exact mul32_inf_not_isFinite a b ia
    · rw [mul32_of_nan a b (.inr nb)]; rfl
    · rw [mul32_comm]; exact mul32_inf_not_isFinite b a ib
  neg a h := by rwa [neg32_isFinite]

/-! ## A section and the bank -/

/-- One of the section's two filter registers is in the class. -/
def Section.HasRegister (p : Word → Prop) (x : Section) : Prop := p x.z1 ∨ p x.z2

section
variable {p : Word → Prop}

theorem Absorbing.feedOutput_of_input_or_z1 (hp : Absorbing p) (s : Section) (x : Word) (h : p x ∨ p s.z1) :
    p (feedOutput s x) :=
  hp.add _ _ (h.imp_left fun hx => hp.mul _ _ (.inl hx))

/-- A fed sample of the class reaches both registers. -/
theorem Absorbing.feedSection_of_input (hp : Absorbing p) (s : Section) (x : Word) (h : p x) :
    p (feedSection s x).z1 ∧ p (feedSection s x).z2 :=
  have hprod (c : Word) : p (mul32 x c) := hp.mul x c (.inl h)
  ⟨hp.sub _ _ (.inl (hp.add _ _ (.inl (hprod _)))), hp.sub _ _ (.inl (hprod _))⟩

/-- The new z1 is in the class: the old z1 reaches it through the output, the old z2 as a summand. -/
theorem Absorbing.feedSection_z1 (hp : Absorbing p) (s : Section) (x : Word) (h : s.HasRegister p) :
    p (feedSection s x).z1 := by
  rcases h with hz1 | hz2
  · exact hp.sub _ _ (.inr (hp.mul _ _ (.inr (hp.feedOutput_of_input_or_z1 s x (.inr hz1)))))
  · exact hp.sub _ _ (.inl (hp.add _ _ (.inr hz2)))

/-- A sample of the class reaches all twelve registers: the second section of a cascade is fed the first one's output. -/
theorem Absorbing.processBank_of_input (hp : Absorbing p) (b : Bank) (x : Word) (h : p x) (id : SectionId) :
    p ((processBank b x).get id).z1 ∧ p ((processBank b x).get id).z2 := by
  have hout (s : Section) : p (feedOutput s x) := hp.feedOutput_of_input_or_z1 s x (.inl h)
  cases id with
  | low1 => exact hp.feedSection_of_input b.low1 x h
  | low2 => exact hp.feedSection_of_input b.low2 _ (hout b.low1)
  | band1 => exact hp.feedSection_of_input b.band1 x h
  | band2 => exact hp.feedSection_of_input b.band2 _ (hout b.band1)
  | high1 => exact hp.feedSection_of_input b.high1 x h
  | high2 => exact hp.feedSection_of_input b.high2 _ (hout b.high1)

theorem Absorbing.processBank_hasRegister (hp : Absorbing p) (b : Bank) (x : Word) (id : SectionId)
    (h : (b.get id).HasRegister p) : ((processBank b x).get id).HasRegister p := by
  obtain ⟨y, hy⟩ := processBank_get b x id
  rw [hy]
  exact .inl (hp.feedSection_z1 _ y h)

/-- A reconfiguration writes no filter register, so the class of one stays (R117). -/
theorem rateShared_hasRegister (draw : Nat) (sh : Shared) (rate : Word) (id : SectionId)
    (h : (sh.bank.get id).HasRegister p) : ((rateShared draw sh rate).bank.get id).HasRegister p := by
  obtain ⟨hz1, hz2⟩ := configure_registers draw sh.bank rate Config.crossoverHz Config.qFactor id
  rwa [rateShared_bank, Section.HasRegister, hz1, hz2]

end

/-! ## A step without a reset -/

/-- What a step that is no reset can make of the shared state. `SharedMove` allows the reset in every turn, and a reset is
the one write that clears the filter registers (R113), so here it has to be told apart. -/
inductive PortMove (capacity : Nat) (sh : Shared) : Shared → Prop where
  | keep : PortMove capacity sh sh
  | feed (x : Word) : PortMove capacity sh (feedShared capacity sh x)
  | setRate (draw : Nat) (rate : Word) : PortMove capacity sh (rateShared draw sh rate)

theorem PortMove.of_eq {capacity : Nat} {sh sh' : Shared} (h : sh' = sh) : PortMove capacity sh sh' := h ▸ .keep

theorem exec_portMove (i : Instr) (s t : State) (h : exec i s = .next t) : PortMove s.capacity s.shared t.shared := by
  rcases exec_cases i s t h with ⟨r, rfl⟩ | rfl | ⟨x, rfl⟩ | ⟨cnt, -, rfl⟩ | ⟨rate, rfl⟩
  · exact .of_eq (answer_shared s r)
  · exact .keep
  · rw [endProducer_shared, feedStep_shared]; exact .feed x
  · exact .keep
  · rw [endProducer_shared, commit_shared]; exact .setRate s.draws rate

theorem producerTurn_portMove (s t : State) (h : producerTurn s = .next t) :
    PortMove s.capacity s.shared t.shared := by
  rcases producerTurn_cases s t h with
    rfl | ⟨i, rest, -, -, he⟩ | ⟨e, n, rest, -, -, rfl⟩ | ⟨left, x, rest, -, -, rfl⟩ | ⟨left, x, rest, -, -, rfl⟩
  · exact .keep
  · exact exec_portMove i (s.setProducerInput rest) t he
  · exact .of_eq (rejectProducer_shared _ e n)
  · exact .of_eq (rejectProducer_shared _ _ _)
  · rw [blockSample_shared]; exact .feed x

theorem consumerTurn_portMove (s t : State) (h : consumerTurn s = .next t) :
    PortMove s.capacity s.shared t.shared := by
  rcases consumerTurn_cases s t h with
    rfl | ⟨i, past, -, he⟩ | ⟨i, rest, -, -, he⟩ | ⟨e, n, rest, -, -, rfl⟩ | ⟨left, x, rest, -, -, rfl⟩
  · exact .keep
  · exact exec_portMove i s t he
  · exact exec_portMove i (s.setConsumerInput rest) t he
  · exact .of_eq (rejectConsumer_shared _ e n)
  · exact .of_eq (rejectConsumer_shared _ _ _)

theorem step_portMove_or_reset (s t : State) (h : step s = .next t) :
    PortMove s.capacity s.shared t.shared ∨ ((nextTurn s).1 = .host ∧ s.host.head? = some .reset) := by
  obtain ⟨hshared, -, -, -, hhost⟩ := nextTurn_state s
  rw [← hshared, ← hhost, ← nextTurn_capacity s]
  unfold step at h
  cases hturn : (nextTurn s).1 with
  | producer => rw [hturn] at h; exact .inl (producerTurn_portMove _ t h)
  | consumer => rw [hturn] at h; exact .inl (consumerTurn_portMove _ t h)
  | accept =>
    rw [hturn] at h
    obtain rfl := Host.Outcome.next.inj h
    exact .inl (.of_eq (acceptTurn_shared _))
  | host =>
    rw [hturn] at h
    obtain rfl := Host.Outcome.next.inj h
    by_cases hreset : (nextTurn s).2.host.head? = some .reset
    · exact .inr ⟨rfl, hreset⟩
    · exact .inl (.of_eq (hostTurn_shared _ hreset))

theorem PortMove.hasRegister {p : Word → Prop} (hp : Absorbing p) {capacity : Nat} {sh sh' : Shared}
    (h : PortMove capacity sh sh') (id : SectionId) (hsh : (sh.bank.get id).HasRegister p) :
    (sh'.bank.get id).HasRegister p := by
  cases h with
  | keep => exact hsh
  | feed x => exact hp.processBank_hasRegister sh.bank x id hsh
  | setRate draw rate => exact rateShared_hasRegister draw sh rate id hsh

theorem poisoned_iff (x : Section) : x.poisoned = true ↔ x.HasRegister fun w => isNaN w = true :=
  iff_of_eq (Bool.or_eq_true _ _)

/-- Settles O54, for the NaNs and for all words that are not finite alike: both are classes no arithmetic leaves. -/
theorem poisonedSectionStaysPoisoned : Obligations.PoisonedSectionStaysPoisoned := by
  refine ⟨fun s t x id hx h => ?_, fun s t id h => ?_⟩
  · rw [exec_feed_shared s t x h, feedShared_bank]
    obtain ⟨hz1, hz2⟩ := absorbing_not_isFinite.processBank_of_input s.shared.bank x hx id
    exact ⟨hz1, hz2, fun hnan => absorbing_isNaN.processBank_of_input s.shared.bank x hnan id⟩
  · rw [poisoned_iff, poisoned_iff]
    have hmove := step_portMove_or_reset s t h
    exact ⟨fun hs => hmove.imp_left fun m => m.hasRegister absorbing_isNaN id hs,
      fun hs => hmove.imp_left fun m => m.hasRegister absorbing_not_isFinite id hs⟩

end Sys2Proof.Machine
end

section
/-! For which sample rates the cutoff 960 / rate is valid (40_filter_section.md R66, 41_filter_bank.md R70): the quotient is
rounded, so the boundary is where it begins to round to 0.5. -/

namespace Sys2Proof.Machine

/-- A quotient rounds to the word `k` or a greater one from the midpoint of k - 1 and k on, the midpoint itself where k is
even. -/
theorem le_roundUnits_iff (n d k : Nat) (hd : 0 < d) (hpos : 0 < k) (hk : k ≤ 0x7F800000) :
    k ≤ roundUnits n d
      ↔ (magOf (k - 1) + magOf k) * d < 2 * n ∨ ((magOf (k - 1) + magOf k) * d = 2 * n ∧ k % 2 = 0) := by
  obtain ⟨m, heq, hm⟩ := roundUnits_isRounding n d hd
  rw [← reaches_div_iff n d k hd, ← hm.le_iff hpos]
  omega

/-! ## Valid cutoffs -/

theorem orderKey_pack (neg : Bool) (m : Nat) (h : m < 2 ^ 31) :
    orderKey (pack neg m) = if neg then -(m : Int) else m := by
  rw [orderKey, pack_signBit neg m h, pack_low neg m h]

theorem lt32_iff_orderKey (a b : Word) (ha : isNaN a = false) (hb : isNaN b = false) :
    lt32 a b = true ↔ orderKey a < orderKey b := by
  simp [lt32, ha, hb]

/-- A cutoff given by its sign and its low 31 bits is valid between +0.0 and 0.5, both excluded (R66). -/
theorem validFc_pack (neg : Bool) (m : Nat) (h : m ≤ 0x7F800000) :
    validFc (pack neg m) Config.qFactor = true ↔ neg = false ∧ 0 < m ∧ m < 0x3F000000 := by
  have hlt : m < 2 ^ 31 := by omega
  have hnan : isNaN (pack neg m) = false := by
    rw [← Bool.not_eq_true, isNaN_iff, pack_low neg m hlt, not_lt]
    exact h
  have hq : lt32 0#32 Config.qFactor = true := by decide
  rw [validFc, hq, Bool.and_true, Bool.and_eq_true, lt32_iff_orderKey _ _ rfl hnan, lt32_iff_orderKey _ _ hnan rfl,
    orderKey_pack neg m hlt, show orderKey 0#32 = 0 by decide, show orderKey half32 = 0x3F000000 by decide]
  cases neg with
  | false => simp
  | true => simp

theorem validFc_qNaN : validFc qNaN Config.qFactor = false := by decide

/-! ## The quotient 960 / rate -/

theorem magnitude_crossoverHz : magnitude Config.crossoverHz = 960 * 2 ^ 149 := by decide +kernel

/-- The low 31 bits of 1920.0. -/
theorem magOf_1920 : magOf 0x44F00000 = 1920 * 2 ^ 149 := by decide +kernel

/-- The quotient of 960 by a finite divisor never rounds to zero. -/
theorem crossover_quotient_pos (m : Nat) (hpos : 0 < magOf m) (hm : m < 0x7F800000) :
    0 < roundUnits (960 * 2 ^ 149 * 2 ^ 149) (magOf m) := by
  refine (le_roundUnits_iff _ _ 1 hpos Nat.one_pos (by decide)).2 (.inl ?_)
  have hfin : magOf m < magOf 0x7F800000 := magOf_strictMono hm
  have hbound : magOf 0x7F800000 < 2 * (960 * 2 ^ 149 * 2 ^ 149) := by decide +kernel
  rw [show magOf (1 - 1) + magOf 1 = 1 by decide, Nat.one_mul]
  exact hfin.trans hbound

/-- The quotient of 960 by the words up to 1920.0 rounds to 0.5 or more: the word after 1920.0 is the first whose quotient
is below the midpoint of 0.5 and the word before it. -/
theorem crossover_quotient_lt_half_iff (m : Nat) (hpos : 0 < magOf m) :
    roundUnits (960 * 2 ^ 149 * 2 ^ 149) (magOf m) < 0x3F000000 ↔ 0x44F00000 < m := by
  have hhalf := le_roundUnits_iff (960 * 2 ^ 149 * 2 ^ 149) (magOf m) 0x3F000000 hpos (by decide) (by decide)
  have hat : (magOf (0x3F000000 - 1) + magOf 0x3F000000) * magOf 0x44F00000 < 2 * (960 * 2 ^ 149 * 2 ^ 149) := by
    decide +kernel
  have hnext : 2 * (960 * 2 ^ 149 * 2 ^ 149) < (magOf (0x3F000000 - 1) + magOf 0x3F000000) * magOf 0x44F00001 := by
    decide +kernel
  rw [← not_le, hhalf, ← not_iff_not, not_not, not_lt]
  constructor
  · intro hreach
    by_contra hm
    have hmono := Nat.mul_le_mul_left (magOf (0x3F000000 - 1) + magOf 0x3F000000)
      (magOf_strictMono.monotone (show 0x44F00001 ≤ m by omega))
    rcases hreach with hlt | ⟨heq, -⟩
    · exact absurd (hnext.trans_le hmono) hlt.not_gt
    · exact absurd (hnext.trans_le hmono) heq.not_gt
  · intro hm
    exact .inl ((Nat.mul_le_mul_left _ (magOf_strictMono.monotone hm)).trans_lt hat)

/-! ## Rates -/

/-- A value above 1920 is a positive word after 1920.0. -/
theorem units_gt_1920_iff (rate : Word) :
    1920 * 2 ^ 149 < units rate ↔ signBit rate = false ∧ 0x44F00000 < rate.toNat % 2 ^ 31 := by
  have hord : magOf 0x44F00000 < magOf (rate.toNat % 2 ^ 31) ↔ 0x44F00000 < rate.toNat % 2 ^ 31 :=
    magOf_strictMono.lt_iff_lt
  rw [← hord, magOf_1920, units, magnitude_eq]
  generalize magOf (rate.toNat % 2 ^ 31) = v
  cases signBit rate with
  | false => simp only [Bool.false_eq_true, if_false, true_and]; omega
  | true => simp only [if_true, Bool.true_eq_false, false_and, iff_false]; omega

theorem signBit_crossoverHz : signBit Config.crossoverHz = false := by decide

/-- The cutoff of a rate that is not finite is a NaN or a zero. -/
theorem cutoffOf_invalid_of_not_finite (rate : Word) (h : isFinite rate = false) :
    validFc (cutoffOf rate) Config.qFactor = false := by
  rw [cutoffOf]
  rcases (not_isFinite_iff rate).1 h with hn | hi
  · rw [div32_of_nan _ _ (.inr hn), validFc_qNaN]
  · rw [div32_of_inf_right _ _ rfl rfl hi, ← Bool.not_eq_true, validFc_pack _ _ (by decide)]
    exact fun ⟨_, hpos, _⟩ => absurd hpos (lt_irrefl 0)

/-- The cutoff of a zero rate is an infinity. -/
theorem cutoffOf_invalid_of_zero (rate : Word) (hf : isFinite rate = true) (hz : isZero rate = true) :
    validFc (cutoffOf rate) Config.qFactor = false := by
  rw [cutoffOf, div32_of_finite _ _ rfl hf, hz, if_pos rfl, if_neg (by decide), ← Bool.not_eq_true,
    validFc_pack _ _ le_rfl]
  exact fun ⟨_, _, hhalf⟩ => absurd hhalf (by decide)

theorem cutoffOf_valid_iff_of_finite (rate : Word) (hf : isFinite rate = true) :
    validFc (cutoffOf rate) Config.qFactor = true ↔ signBit rate = false ∧ 0x44F00000 < rate.toNat % 2 ^ 31 := by
  cases hz : isZero rate with
  | true =>
    rw [cutoffOf_invalid_of_zero rate hf hz, (isZero_iff rate).1 hz]
    simp
  | false =>
    have hpos := magnitude_pos_of_not_isZero rate hz
    rw [magnitude_eq] at hpos
    rw [cutoffOf, div32_of_finite _ _ rfl hf, hz, if_neg Bool.false_ne_true, signBit_crossoverHz, Bool.false_bne,
      magnitude_crossoverHz, magnitude_eq, validFc_pack _ _ (roundUnits_le _ _), crossover_quotient_lt_half_iff _ hpos]
    exact and_congr_right' (and_iff_right (crossover_quotient_pos _ hpos ((isFinite_iff rate).1 hf)))

/-- Settles O24: no cutoff of a rate that is not finite is valid, and for a finite one the boundary is that of the rounded
quotient. -/
theorem cutoffValidExactlyAbove1920Hz : Obligations.CutoffValidExactlyAbove1920Hz := by
  intro rate
  cases hf : isFinite rate with
  | false => rw [cutoffOf_invalid_of_not_finite rate hf]; simp
  | true => rw [cutoffOf_valid_iff_of_finite rate hf, units_gt_1920_iff]; simp

end Sys2Proof.Machine
end

section
/-! The order of binary32 words (00_scope.md R12), and the peak and the root mean square of a window of words
(42_ring_buffer.md R75, R76). -/

namespace Sys2Proof.Machine

/-! ## Words in order -/

/-- The order key tells all words apart but the two zeros. -/
theorem eq_of_orderKey_eq (a b : Word) (h : orderKey a = orderKey b) (hz : orderKey a ≠ 0) : a = b := by
  apply BitVec.eq_of_toNat_eq
  have ha := a.isLt
  have hb := b.isLt
  simp only [orderKey, signBit_iff] at h hz
  split_ifs at h hz <;> omega

/-- Every word but a NaN stands between the infinities. -/
theorem orderKey_bounds (a : Word) (h : isNaN a = false) : -0x7F800000 ≤ orderKey a ∧ orderKey a ≤ 0x7F800000 := by
  rw [← Bool.not_eq_true, isNaN_iff] at h
  unfold orderKey
  split <;> omega

theorem orderKey_posInf : orderKey 0x7F800000#32 = 0x7F800000 := by decide

theorem orderKey_negInf : orderKey 0xFF800000#32 = -0x7F800000 := by decide

/-- Only words that are not NaN compare. -/
theorem lt32_true_iff (a b : Word) :
    lt32 a b = true ↔ isNaN a = false ∧ isNaN b = false ∧ orderKey a < orderKey b := by
  simp [lt32, and_assoc]

theorem lt32_of_nan (a b : Word) (h : isNaN a = true ∨ isNaN b = true) : lt32 a b = false := by
  rcases h with h | h <;> simp [lt32, h]

theorem not_lt32_iff (a b : Word) (ha : isNaN a = false) :
    lt32 a b = false ↔ isNaN b = true ∨ orderKey b ≤ orderKey a := by
  simp [lt32, ha, imp_iff_not_or]

theorem lt32_posInf (a : Word) (h : isNaN a = false) :
    (lt32 a 0x7F800000#32 = true ↔ a ≠ 0x7F800000#32) ∧ lt32 0x7F800000#32 a = false := by
  obtain ⟨-, hle⟩ := orderKey_bounds a h
  rw [lt32_iff_orderKey a _ h rfl, not_lt32_iff _ a rfl, orderKey_posInf]
  refine ⟨⟨?_, fun hne => lt_of_le_of_ne hle fun he => hne ?_⟩, .inr hle⟩
  · rintro hlt rfl
    exact absurd hlt (by decide)
  · exact eq_of_orderKey_eq a _ (he.trans orderKey_posInf.symm) (by omega)

theorem lt32_negInf (a : Word) (h : isNaN a = false) :
    (lt32 0xFF800000#32 a = true ↔ a ≠ 0xFF800000#32) ∧ lt32 a 0xFF800000#32 = false := by
  obtain ⟨hge, -⟩ := orderKey_bounds a h
  rw [lt32_iff_orderKey _ a rfl h, not_lt32_iff a _ h, orderKey_negInf]
  refine ⟨⟨?_, fun hne => lt_of_le_of_ne hge fun he => hne ?_⟩, .inr hge⟩
  · rintro hlt rfl
    exact absurd hlt (by decide)
  · exact eq_of_orderKey_eq a _ (he.symm.trans orderKey_negInf.symm) (by omega)

/-- abs32 clears the sign and keeps the low 31 bits (R12). -/
theorem abs32_eq_pack (a : Word) : abs32 a = pack false (a.toNat % 2 ^ 31) := by
  have hsign : signBit (abs32 a) = false := by
    simp [signBit, abs32, BitVec.msb_and, show BitVec.msb 0x7FFFFFFF#32 = false by decide]
  rw [← pack_of_word (abs32 a), hsign, abs32_low]

theorem orderKey_abs32 (a : Word) : orderKey (abs32 a) = (a.toNat % 2 ^ 31 : Nat) := by
  rw [abs32_eq_pack, orderKey_pack _ _ (Nat.mod_lt _ (by decide)), if_neg Bool.false_ne_true]

/-! ## One step of the running maximum -/

/-- A step takes the magnitude where it is greater and keeps the maximum where it is not. -/
theorem peakStep_cases (m x : Word) :
    (lt32 m (abs32 x) = true ∧ peakStep m x = abs32 x) ∨ (lt32 m (abs32 x) = false ∧ peakStep m x = m) := by
  unfold peakStep
  split
  · next h => exact .inl ⟨h, rfl⟩
  · next h => exact .inr ⟨Bool.eq_false_iff.2 h, rfl⟩

theorem peakStep_not_isNaN (m x : Word) (hm : isNaN m = false) : isNaN (peakStep m x) = false := by
  rcases peakStep_cases m x with ⟨hlt, he⟩ | ⟨-, he⟩
  · obtain ⟨-, hx, -⟩ := (lt32_true_iff _ _).1 hlt
    rw [he, hx]
  · rw [he, hm]

/-- The running maximum never falls. -/
theorem orderKey_le_peakStep (m x : Word) : orderKey m ≤ orderKey (peakStep m x) := by
  rcases peakStep_cases m x with ⟨hlt, he⟩ | ⟨-, he⟩
  · obtain ⟨-, -, hkey⟩ := (lt32_true_iff _ _).1 hlt
    rw [he]
    exact hkey.le
  · rw [he]

/-- After a step the running maximum is not below the word's magnitude. -/
theorem peakStep_not_lt (m x : Word) : lt32 (peakStep m x) (abs32 x) = false := by
  rcases peakStep_cases m x with ⟨-, he⟩ | ⟨hlt, he⟩
  · rw [he, Bool.eq_false_iff, Ne, lt32_true_iff]
    exact fun ⟨_, _, h⟩ => lt_irrefl _ h
  · rw [he, hlt]

/-! ## The running maximum of a window -/

theorem foldl_peakStep_not_isNaN (m : Word) (window : List Word) (hm : isNaN m = false) :
    isNaN (window.foldl peakStep m) = false := by
  induction window generalizing m with
  | nil => exact hm
  | cons x xs ih => exact ih _ (peakStep_not_isNaN m x hm)

theorem orderKey_le_foldl_peakStep (m : Word) (window : List Word) :
    orderKey m ≤ orderKey (window.foldl peakStep m) := by
  induction window generalizing m with
  | nil => exact le_rfl
  | cons x xs ih => exact (orderKey_le_peakStep m x).trans (ih _)

/-- The first word is passed by its own step, and the maximum does not fall in the steps after it. -/
theorem foldl_peakStep_not_lt (m : Word) (window : List Word) (hm : isNaN m = false) :
    ∀ x ∈ window, lt32 (window.foldl peakStep m) (abs32 x) = false := by
  induction window generalizing m with
  | nil => exact fun x hx => absurd hx List.not_mem_nil
  | cons y ys ih =>
    have hstep := peakStep_not_isNaN m y hm
    rw [List.foldl_cons, List.forall_mem_cons]
    refine ⟨(not_lt32_iff _ _ (foldl_peakStep_not_isNaN _ ys hstep)).2 ?_, ih _ hstep⟩
    exact ((not_lt32_iff _ _ hstep).1 (peakStep_not_lt m y)).imp_right
      fun hkey => hkey.trans (orderKey_le_foldl_peakStep _ ys)

/-- The maximum is the start value or the magnitude that some step took. -/
theorem foldl_peakStep_eq_or_mem (m : Word) (window : List Word) :
    window.foldl peakStep m = m ∨ ∃ x ∈ window, window.foldl peakStep m = abs32 x := by
  induction window generalizing m with
  | nil => exact .inl rfl
  | cons y ys ih =>
    rw [List.foldl_cons]
    rcases ih (peakStep m y) with he | ⟨x, hx, he⟩
    · rcases peakStep_cases m y with ⟨-, hy⟩ | ⟨-, hy⟩
      · exact .inr ⟨y, List.mem_cons_self, he.trans hy⟩
      · exact .inl (he.trans hy)
    · exact .inr ⟨x, List.mem_cons_of_mem y hx, he⟩

/-- Settles O35: the running maximum of a window by induction on it, and "less than" by the order keys. -/
theorem peakIsTheLargestMagnitude : Obligations.PeakIsTheLargestMagnitude :=
  ⟨fun window => ⟨foldl_peakStep_not_isNaN _ window rfl, foldl_peakStep_not_lt _ window rfl,
      foldl_peakStep_eq_or_mem _ window⟩,
    fun a b => ⟨lt32_iff_units a b, lt32_of_nan a b, lt32_posInf a, lt32_negInf a⟩⟩

/-! ## One push onto a ring of zeros -/

/-- From +0.0 a step gives the word's magnitude; a magnitude of zero is +0.0 itself. -/
theorem peakStep_zero (v : Word) : peakStep 0#32 v = if isNaN v then 0#32 else abs32 v := by
  cases hn : isNaN v with
  | true => rw [peakStep, lt32_of_nan _ _ (.inr ((abs32_isNaN v).trans hn))]; rfl
  | false =>
    rw [if_neg Bool.false_ne_true]
    rcases peakStep_cases 0#32 v with ⟨-, he⟩ | ⟨hlt, he⟩
    · exact he
    · have hkey := ((not_lt32_iff _ _ rfl).1 hlt).resolve_left (by rw [abs32_isNaN, hn]; exact Bool.false_ne_true)
      rw [orderKey_abs32, show orderKey 0#32 = 0 by decide] at hkey
      rw [he, abs32_eq_pack, show v.toNat % 2 ^ 31 = 0 by omega]
      rfl

/-- Zeros do not raise a maximum that is not negative. -/
theorem foldl_peakStep_zeros (m : Word) (n : Nat) (h : 0 ≤ orderKey m) :
    (List.replicate n 0#32).foldl peakStep m = m := by
  induction n with
  | zero => rfl
  | succ n ih =>
    rcases peakStep_cases m 0#32 with ⟨hlt, -⟩ | ⟨-, he⟩
    · obtain ⟨-, -, hkey⟩ := (lt32_true_iff _ _).1 hlt
      rw [orderKey_abs32] at hkey
      exact absurd h (not_le.2 hkey)
    · rw [List.replicate_succ, List.foldl_cons, he, ih]

theorem historyOf_reset (size : Nat) : historyOf size Ring.reset = List.replicate size 0#32 := by
  simp [historyOf, Ring.reset]

/-- The newest samples after one push onto a ring at reset: the sample, then zeros. -/
theorem newestOf_push_reset (size range : Nat) (v : Word) (hsize : 0 < size) (hrange : 1 ≤ range) :
    newestOf size (ringPush size Ring.reset v) range = v :: List.replicate (min (range - 1) (size - 1)) 0#32 := by
  obtain ⟨n, rfl⟩ := Nat.exists_eq_add_of_le' hsize
  obtain ⟨k, rfl⟩ := Nat.exists_eq_add_of_le' hrange
  rw [newestOf, historyOf_ringPush _ _ _ (ring_reset_wf _ hsize), historyOf_reset, List.replicate_succ]
  simp [List.take_replicate]

/-- Settles O36: the sample's own step sets the maximum, and the zeros after it leave it. -/
theorem peakAfterOnePush : Obligations.PeakAfterOnePush := by
  intro size range v hsize hrange
  have hstart : 0 ≤ orderKey (peakStep 0#32 v) := orderKey_le_peakStep 0#32 v
  rw [newestOf_push_reset size range v hsize hrange, peakOf, List.foldl_cons, foldl_peakStep_zeros _ _ hstart,
    peakStep_zero]

/-! ## The root mean square of zeros -/

theorem isFinite_of_isZero (x : Word) (h : isZero x = true) : isFinite x = true := by
  rw [isZero_iff] at h
  rw [isFinite_iff]
  omega

theorem roundUnits_zero (d : Nat) : roundUnits 0 d = 0 := by
  simp [roundUnits, nearestEven]

/-- The square of either zero is +0.0. -/
theorem mul32_self_of_isZero (x : Word) (h : isZero x = true) : mul32 x x = 0#32 := by
  have hf := isFinite_of_isZero x h
  rw [mul32_of_finite x x hf hf, (magnitude_eq_zero_iff x).2 h, Nat.zero_mul, roundUnits_zero, bne_self_eq_false]
  rfl

theorem sumSquares_zeros (window : List Word) (h : ∀ x ∈ window, isZero x = true) : sumSquares window = 0#32 := by
  unfold sumSquares
  induction window with
  | nil => rfl
  | cons x xs ih =>
    obtain ⟨hx, hxs⟩ := List.forall_mem_cons.1 h
    rw [List.foldl_cons, mul32_self_of_isZero x hx, show add32 0#32 0#32 = 0#32 by decide]
    exact ih hxs

/-- +0.0 divided by a finite word above zero is +0.0. -/
theorem div32_zero_of_pos (b : Word) (hf : isFinite b = true) (hpos : 0 < units b) : div32 0#32 b = 0#32 := by
  have hsign := not_signBit_of_units_pos b hpos
  have hzero : isZero b = false := by
    rw [← Bool.not_eq_true, ← magnitude_eq_zero_iff, ← units_natAbs]
    omega
  rw [div32_of_finite _ _ rfl hf, hzero, if_neg Bool.false_ne_true, hsign, show magnitude 0#32 = 0 by decide,
    Nat.zero_mul, roundUnits_zero]
  rfl

/-- Settles O37: the sum of squares is +0.0, the count is a finite word above zero, and the root of +0.0 is +0.0. -/
theorem rmsOfSilenceIsZero : Obligations.RmsOfSilenceIsZero := by
  intro r window hpos hle hzero
  obtain ⟨hfinite, hunits⟩ := smallIntegersAreExact r hle
  have hcount : 0 < units (u2f r) := by
    rw [hunits]
    positivity
  rw [rmsOf, sumSquares_zeros window hzero, div32_zero_of_pos _ hfinite hcount]
  decide

end Sys2Proof.Machine
end

section
/-! What the queries of an idle port Q answer about a ring (42_ring_buffer.md R73 to R77, 44_commands.md R96 to R98): they
read the present history, and a BAND above 3 is turned away. -/

namespace Sys2Proof.Machine

/-! ## The newest samples of a history -/

/-- A count beyond the size counts the whole history. -/
theorem newestOf_min (size : Nat) (r : Ring) (n : Nat) : newestOf size r (min n size) = newestOf size r n := by
  rw [newestOf, newestOf, ← List.take_take, List.take_of_length_le (l := (historyOf size r).reverse) (by simp)]

/-- The newest samples oldest first are the end of the history. -/
theorem newestOf_reverse (size : Nat) (r : Ring) (n : Nat) :
    (newestOf size r n).reverse = (historyOf size r).drop (size - n) := by
  rw [newestOf, List.take_reverse, List.reverse_reverse, historyOf_length]

/-! ## What an idle port reads -/

section
variable (s : State) (b : Band) (hidle : s.queryIdle)
include hidle

theorem sample_of_idle (e : Nat) : s.view.sample e = s.shared :=
  sample_of_no_past s.view e (view_past_of_idle s hidle)

theorem cursor_of_idle : s.view.cursor b = (s.shared.rings.get b).cursor := by
  rw [View.cursor, sample_of_idle s hidle]

theorem ringWord_of_idle (k i : Nat) : s.view.ringWord b k i = memRead (s.shared.rings.get b).mem i := by
  rw [View.ringWord, sample_of_idle s hidle]

theorem recentWindow_of_idle (n : Nat) (hn : n ≤ s.capacity) :
    recentWindow s.view b n = newestOf s.capacity (s.shared.rings.get b) n := by
  apply List.ext_getElem
  · simp [hn]
  · intro k hk _
    have hk : k < n := by simpa using hk
    simp only [recentWindow, newestOf, List.getElem_map, List.getElem_range, List.getElem_take, List.getElem_reverse,
      historyOf_length, view_capacity, ringWord_of_idle s b hidle, cursor_of_idle s b hidle]
    exact read_slot _ _ _ (hk.trans_le hn)

theorem copyRecent_of_idle (n : Nat) :
    copyRecent s.view b n = (newestOf s.capacity (s.shared.rings.get b) n).reverse := by
  rw [newestOf_reverse]
  apply List.ext_getElem
  · rw [copyRecent_length, view_capacity, List.length_drop, historyOf_length]
    omega
  · intro k _ _
    have hstart : s.capacity - min n s.capacity = s.capacity - n := by omega
    simp only [copyRecent, List.getElem_map, List.getElem_range, List.getElem_drop, historyOf_getElem, view_capacity,
      ringWord_of_idle s b hidle, cursor_of_idle s b hidle, hstart, Nat.add_assoc]

/-- The clamp of R75: a range of 0 counts as 1, and the newest samples are never more than the capacity. -/
theorem peakQuery_of_idle (range : Nat) :
    peakQuery s.view b range = peakOf (newestOf s.capacity (s.shared.rings.get b) (max range 1)) := by
  rw [peakQuery, view_capacity, recentWindow_of_idle s b hidle _ (min_le_right _ _), newestOf_min]

theorem rmsQuery_of_idle (range : Nat) (h : range ≠ 0) :
    rmsQuery s.view b range
      = .ok (rmsOf (min range s.capacity) (newestOf s.capacity (s.shared.rings.get b) range)) := by
  have hpos : min range s.capacity ≠ 0 := by have := capacity_pos s; omega
  rw [rmsQuery, view_capacity, if_neg hpos, recentWindow_of_idle s b hidle _ (min_le_right _ _), newestOf_min]

end

/-! ## A BAND above 3 -/

theorem bandOperand_of_ge (field : BitVec 4) (hband : 4 ≤ field.toNat) : bandOperand field = .error .errBand := by
  rcases bandOperand_cases field with ⟨-, -, -, hlt⟩ | ⟨-, herror, -⟩
  · exact absurd hlt (not_lt.2 hband)
  · exact herror

section
variable (s : State) (field : BitVec 4) (arg : Word) (hband : 4 ≤ field.toNat)
include hband

theorem exec_copyWaveform_of_band_ge : exec (.copyWaveform field arg) s = .next (s.afterQuery .errBand []) := by
  simp only [exec, execCopyWaveform, bandOperand_of_ge field hband]
  rfl

theorem exec_peakN_of_band_ge : exec (.peakN field arg) s = .next (s.afterQuery .errBand []) := by
  simp only [exec, execPeakN, bandOperand_of_ge field hband]
  rfl

theorem exec_rmsN_of_band_ge : exec (.rmsN field arg) s = .next (s.afterQuery .errBand []) := by
  simp only [exec, execRmsN, bandOperand_of_ge field hband]
  rfl

end

/-! ## The statements -/

/-- Settles O27: the words an idle port copies are the newest of the history, oldest first. -/
theorem copyWaveformResult : Obligations.CopyWaveformResult := by
  refine fun s field length hidle => ⟨fun b hb => ?_, exec_copyWaveform_of_band_ge s field length⟩
  rw [exec_copyWaveform_of_band s field b length hb, copyRecent_of_idle s b hidle]

/-- Settles O28: the peak is taken over the newest samples of the clamped count. -/
theorem peakNResult : Obligations.PeakNResult := by
  refine fun s field range hidle => ⟨fun b hb => ?_, exec_peakN_of_band_ge s field range⟩
  rw [exec_peakN_of_band s field b range hb, peakQuery_of_idle s b hidle]
  rfl

/-- Settles O29: the root mean square of the newest samples; a range of 0 leaves none. -/
theorem rmsNResult : Obligations.RmsNResult := by
  refine fun s field range hidle => ⟨fun b hb => ⟨fun hrange => ?_, fun hzero => ?_⟩, exec_rmsN_of_band_ge s field range⟩
  · have hne : range.toNat ≠ 0 := fun h => hrange (BitVec.eq_of_toNat_eq h)
    rw [exec_rmsN_of_band s field b range hb, rmsQuery_of_idle s b hidle _ hne]
    rfl
  · rw [exec_rmsN_of_band s field b range hb, hzero, BitVec.toNat_zero, rmsQuery_zero]
    rfl

end Sys2Proof.Machine
end

section
/-! Rounding at the words themselves (00_scope.md R12): a quotient on one side of a word's magnitude is not rounded past the
word. So adding +0.0, dividing by 1.0 and taking a group of one leave a magnitude as it is (43_spectral.md R83, R85). -/

namespace Sys2Proof.Machine

/-! ## Rounding does not pass a word -/

theorem le_roundUnits_of_le (n d m : Nat) (hd : 0 < d) (hm : m ≤ 0x7F800000) (h : magOf m * d ≤ n) :
    m ≤ roundUnits n d := by
  rcases Nat.eq_zero_or_pos m with rfl | hpos
  · exact Nat.zero_le _
  have hpred : magOf (m - 1) < magOf m := magOf_strictMono (by omega)
  refine (le_roundUnits_iff n d m hd hpos hm).2 (.inl ?_)
  calc (magOf (m - 1) + magOf m) * d < (magOf m + magOf m) * d := Nat.mul_lt_mul_of_pos_right (by omega) hd
    _ ≤ 2 * n := by rw [Nat.add_mul]; omega

theorem roundUnits_le_of_le (n d m : Nat) (hd : 0 < d) (h : n ≤ magOf m * d) : roundUnits n d ≤ m := by
  rcases Nat.lt_or_ge m 0x7F800000 with hm | hm
  · have hsucc : magOf m * d < magOf (m + 1) * d := Nat.mul_lt_mul_of_pos_right (magOf_lt_succ m) hd
    have hiff := le_roundUnits_iff n d (m + 1) hd (Nat.succ_pos m) hm
    rw [Nat.add_sub_cancel, Nat.add_mul] at hiff
    omega
  · exact (roundUnits_le n d).trans hm

/-- A quotient that is a word's magnitude is that word. -/
theorem roundUnits_magOf_mul (m d : Nat) (hd : 0 < d) (hm : m ≤ 0x7F800000) : roundUnits (magOf m * d) d = m :=
  le_antisymm (roundUnits_le_of_le _ _ _ hd le_rfl) (le_roundUnits_of_le _ _ _ hd hm le_rfl)

/-! ## The neutral operands -/

theorem pack_low_of_not_signBit (w : Word) (h : signBit w = false) : pack false (w.toNat % 2 ^ 31) = w := by
  rw [← h, pack_of_word]

/-- A word that is no NaN is finite or an infinity. -/
theorem isFinite_or_isInf (w : Word) (h : isNaN w = false) : isFinite w = true ∨ isInf w = true := by
  cases hf : isFinite w with
  | true => exact .inl rfl
  | false => exact .inr (((not_isFinite_iff w).1 hf).resolve_left (by simp [h]))

/-- +0.0 added to the canonical NaN or to a word without a sign is that word. -/
theorem add32_zero_left (w : Word) (h : w = qNaN ∨ (isNaN w = false ∧ signBit w = false)) : add32 0#32 w = w := by
  rcases h with rfl | ⟨hnan, hsign⟩
  · rfl
  rcases isFinite_or_isInf w hnan with hf | hi
  · have hzero : units 0#32 = 0 := by decide
    have hunits := units_of_not_signBit w hsign
    have hword := pack_low_of_not_signBit w hsign
    rw [add32_of_finite _ _ rfl hf, hzero, Int.zero_add, hsign, Bool.and_false]
    split
    · next h =>
      have hlow := (isZero_iff w).1 ((magnitude_eq_zero_iff w).1 (by omega))
      rwa [hlow] at hword
    · have hexact := roundUnits_magOf_mul (w.toNat % 2 ^ 31) 1 Nat.one_pos ((isFinite_iff w).1 hf).le
      rw [Nat.mul_one, ← magnitude_eq] at hexact
      rwa [units_natAbs, hexact, decide_eq_false (by omega)]
  · exact (add32_of_inf w 0#32 hi rfl (.inl rfl)).2

/-- The canonical NaN, or a word without a sign, divided by 1.0 is that word. -/
theorem div32_one_right (w : Word) (h : w = qNaN ∨ (isNaN w = false ∧ signBit w = false)) : div32 w one32 = w := by
  rcases h with rfl | ⟨hnan, hsign⟩
  · rfl
  have hone : signBit one32 = false := rfl
  rcases isFinite_or_isInf w hnan with hf | hi
  · have hmagnitude : magnitude one32 = 2 ^ 149 := by decide +kernel
    rw [div32_of_finite w one32 hf rfl, if_neg (by decide), hsign, hone, bne_self_eq_false, hmagnitude, magnitude_eq,
      roundUnits_magOf_mul _ _ (Nat.two_pow_pos 149) ((isFinite_iff w).1 hf).le]
    exact pack_low_of_not_signBit w hsign
  · rw [div32_of_inf_left w one32 hi rfl, if_neg (by decide), hsign, hone]
    have hword := eq_of_isInf w hi
    rw [hsign] at hword
    exact hword.symm

/-! ## Groups of one -/

theorem u2f_one : u2f 1 = one32 := by decide +kernel

/-- The mean of one magnitude adds it to +0.0 and divides by 1.0 (R83). -/
theorem mean_single (mag : List Word) (i : Nat) (h : i < mag.length) :
    mean mag i (i + 1) = div32 (add32 0#32 mag[i]) one32 := by
  rw [mean, Nat.add_sub_cancel_left, List.drop_eq_getElem_cons h, u2f_one]
  rfl

/-- Settles O42: each group holds one magnitude, and its mean is that magnitude. -/
theorem linearReductionOfFullLengthIsIdentity : Obligations.LinearReductionOfFullLengthIsIdentity := by
  intro mag hlength hmag
  rcases reduceLinear_cases mag 64 with ⟨-, -, hr⟩ | ⟨hrange, -⟩
  · rw [hr]
    refine congrArg Except.ok (List.ext_getElem (by simp [hlength]) fun i _ hi => ?_)
    have hword := hmag mag[i] (List.getElem_mem hi)
    rw [List.getElem_map, List.getElem_range, Nat.div_self (by decide), Nat.mul_one, Nat.mul_one, mean_single mag i hi,
      add32_zero_left _ hword, div32_one_right _ hword]
  · omega

end Sys2Proof.Machine
end

section
/-! The number of octaves (43_spectral.md R86): the loop stops at the first value below 60, and a halving lowers the exponent
field's bound by one. -/

namespace Sys2Proof.Machine

/-- One halving of the octave loop. -/
def halve (f : Word) : Word := div32 f 0x40000000#32

theorem nyquist_eq_halve (rate : Word) : nyquist rate = halve rate := rfl

/-- Where some number of halvings below the fuel leads below MIN_BW_HZ, the loop counts the fewest that do. -/
theorem octaveCount_spec (fuel n : Nat) (f : Word) (hn : n < fuel) (h : lt32 (halve^[n] f) Config.minBwHz = true) :
    octaveCount fuel f ≤ n ∧ lt32 (halve^[octaveCount fuel f] f) Config.minBwHz = true
      ∧ ∀ k, k < octaveCount fuel f → lt32 (halve^[k] f) Config.minBwHz = false := by
  induction fuel generalizing n f with
  | zero => exact absurd hn (Nat.not_lt_zero n)
  | succ fuel ih =>
    rcases octaveCount_succ fuel f with ⟨hbelow, hcount⟩ | ⟨hnot, hcount⟩
    · rw [hcount]
      exact ⟨Nat.zero_le n, hbelow, fun k hk => absurd hk (Nat.not_lt_zero k)⟩
    · cases n with
      | zero => exact absurd (h.symm.trans hnot) (by decide)
      | succ n =>
        obtain ⟨hle, hbelow, hbefore⟩ := ih n (halve f) (Nat.lt_of_succ_lt_succ hn) h
        rw [hcount]
        refine ⟨Nat.succ_le_succ hle, hbelow, fun k hk => ?_⟩
        cases k with
        | zero => exact hnot
        | succ k => exact hbefore k (Nat.lt_of_succ_lt_succ hk)

/-- A finite word without a sign that is at most the power of two with exponent field `e`. -/
def BoundedByExponent (e : Nat) (w : Word) : Prop := ∃ m, m ≤ e * 2 ^ 23 ∧ m < 0x7F800000 ∧ w = pack false m

/-- Halving a power of two of exponent field above 1 lowers the field by one, and rounding passes no word. -/
theorem BoundedByExponent.halve {e : Nat} {w : Word} (h : BoundedByExponent (e + 2) w) :
    BoundedByExponent (e + 1) (halve w) := by
  obtain ⟨m, hle, hfin, rfl⟩ := h
  have hlow := pack_low false m (by omega)
  have hmagnitude : magnitude 0x40000000#32 = 2 * 2 ^ 149 := by decide +kernel
  have hpower : magOf m ≤ magOf ((e + 1) * 2 ^ 23) * 2 := by
    calc magOf m ≤ magOf (2 ^ 23 + (e + 1) * 2 ^ 23) := magOf_strictMono.monotone (by omega)
      _ = magOf (2 ^ 23 + e * 2 ^ 23) * 2 := by
        rw [magOf_binade _ _ le_rfl (by decide), magOf_binade _ _ le_rfl (by decide)]
        ring
      _ = magOf ((e + 1) * 2 ^ 23) * 2 := by rw [Nat.add_comm, ← Nat.succ_mul]
  have hhalf : ∀ k, magOf m ≤ magOf k * 2 → roundUnits (magOf m * 2 ^ 149) (2 * 2 ^ 149) ≤ k := fun k hk =>
    roundUnits_le_of_le _ _ _ (by decide) (by rw [← Nat.mul_assoc]; exact Nat.mul_le_mul_right _ hk)
  refine ⟨_, hhalf _ hpower, (hhalf m (by omega)).trans_lt hfin, ?_⟩
  rw [Machine.halve, div32_of_finite _ _ (pack_isFinite false m hfin) rfl, if_neg (by decide), magnitude_eq, hlow,
    hmagnitude, pack_signBit false m (by omega)]
  rfl

theorem BoundedByExponent.iterate_halve {e : Nat} {w : Word} (n : Nat) (h : BoundedByExponent (e + n + 1) w) :
    BoundedByExponent (e + 1) (Machine.halve^[n] w) := by
  induction n generalizing w with
  | zero => exact h
  | succ n ih => exact ih h.halve

/-- The largest finite word has exponent field 254. -/
theorem boundedByExponent_of_finite (w : Word) (hf : isFinite w = true) (hpos : lt32 0#32 w = true) :
    BoundedByExponent 255 w := by
  obtain ⟨-, -, hkey⟩ := (lt32_true_iff _ _).1 hpos
  have hlow := (isFinite_iff w).1 hf
  have hsign : signBit w = false := by
    by_contra hs
    rw [show orderKey 0#32 = 0 by decide, orderKey, if_pos (by simpa using hs)] at hkey
    omega
  exact ⟨_, by omega, hlow, (pack_low_of_not_signBit w hsign).symm⟩

/-- The power of two with exponent field 132 is 32.0. -/
theorem BoundedByExponent.lt_minBwHz {w : Word} (h : BoundedByExponent 132 w) : lt32 w Config.minBwHz = true := by
  obtain ⟨m, hle, hfin, rfl⟩ := h
  have hnan := (not_isNaN_of_isFinite _ (pack_isFinite false m hfin)).1
  have hkey : orderKey Config.minBwHz = 0x42700000 := by decide
  rw [lt32_iff_orderKey _ _ hnan rfl, orderKey_pack false m (by omega), hkey, if_neg Bool.false_ne_true]
  omega

/-- Settles O43: half a finite rate is bounded by the exponent field 254, so 122 halvings more lead to 32.0 at most. -/
theorem octaveCountEndsBelowMinBandwidth : Obligations.OctaveCountEndsBelowMinBandwidth := by
  intro rate hf hpos
  have hnyquist : BoundedByExponent 254 (nyquist rate) := by
    rw [nyquist_eq_halve]
    exact (boundedByExponent_of_finite rate hf hpos).halve
  exact octaveCount_spec 128 122 (nyquist rate) (by decide) (hnyquist.iterate_halve (e := 131) 122).lt_minBwHz

end Sys2Proof.Machine
end

section
/-! The signs of the magnitudes, and what the spectral engine answers for a silent window (43_spectral.md R81, R82, R99). -/

namespace Sys2Proof.Machine

/-! ## No magnitude is negative -/

/-- A NaN, or a word without a sign: what squares, their sums and roots are. -/
def NotNegative (w : Word) : Prop := isNaN w = true ∨ signBit w = false

theorem notNegative_qNaN : NotNegative qNaN := .inl rfl

theorem mul32_self_notNegative (a : Word) : NotNegative (mul32 a a) := by
  unfold mul32
  simp only [bne_self_eq_false]
  split
  · exact notNegative_qNaN
  split
  · split
    · exact notNegative_qNaN
    · exact .inr rfl
  · exact .inr (pack_signBit _ _ (roundUnits_lt _ _))

theorem NotNegative.add32 {a b : Word} (ha : NotNegative a) (hb : NotNegative b) : NotNegative (add32 a b) := by
  rcases ha with na | sa
  · rw [add32_of_nan a b (.inl na)]
    exact notNegative_qNaN
  rcases hb with nb | sb
  · rw [add32_of_nan a b (.inr nb)]
    exact notNegative_qNaN
  have hsum : ¬ units a + units b < 0 := by
    rw [units_of_not_signBit a sa, units_of_not_signBit b sb]
    omega
  unfold Machine.add32
  split
  · exact notNegative_qNaN
  split
  · split
    · exact notNegative_qNaN
    · exact .inr sa
  split
  · exact .inr sb
  split
  · exact .inr (by rw [sa, pack_signBit _ 0 (by decide)]; rfl)
  · rw [decide_eq_false hsum]
    exact .inr (pack_signBit _ _ (roundUnits_lt _ _))

theorem NotNegative.sqrt32 {a : Word} (ha : NotNegative a) : NotNegative (sqrt32 a) := by
  unfold Machine.sqrt32
  split
  · exact notNegative_qNaN
  split
  · exact ha
  split
  · exact notNegative_qNaN
  split
  · exact ha
  · exact .inr (pack_signBit _ _ (roundUnits_lt _ _))

/-- Settles O41: a magnitude is the root of a sum of two squares. -/
theorem magnitudesAreNeverNegative : Obligations.MagnitudesAreNeverNegative := by
  intro v m hm
  obtain ⟨j, -, rfl⟩ := List.mem_map.1 hm
  exact ((mul32_self_notNegative _).add32 (mul32_self_notNegative _)).sqrt32

/-! ## The magnitudes of a silent window -/

theorem isZero_sign_of_word (a : Word) : isZero (a &&& 0x80000000#32) = true := by
  rw [isZero_iff, BitVec.toNat_and, Nat.and_mod_two_pow]
  exact Nat.and_zero _

theorem mul32_isZero (a b : Word) (ha : isZero a = true) (hb : isFinite b = true) : isZero (mul32 a b) = true := by
  rw [mul32_of_finite a b (isFinite_of_isZero a ha) hb, (magnitude_eq_zero_iff a).2 ha, Nat.zero_mul, roundUnits_zero,
    isZero_iff, pack_low _ 0 (by decide)]

theorem hann32_isFinite (i : Nat) (h : i < 128) : isFinite (hann32 i 128) = true := by
  rcases Nat.eq_zero_or_pos i with rfl | hpos
  · rfl
  · obtain ⟨m, hm, heq, -⟩ := hann32_isRounding i (by omega) h
    rw [heq]
    exact pack_isFinite false m hm

/-- Zeros stay zeros under the weights, all of which are finite. -/
theorem windowed_zeros (xs : List Word) (hlength : xs.length = 128) (h : ∀ x ∈ xs, isZero x = true) :
    ∀ y ∈ windowed xs, isZero y = true := by
  intro y hy
  rw [windowed_eq_map_range xs hlength] at hy
  obtain ⟨i, hi, rfl⟩ := List.mem_map.1 hy
  have hi := List.mem_range.1 hi
  rw [List.getD_eq_getElem _ _ (hlength ▸ hi)]
  exact mul32_isZero _ _ (h _ (List.getElem_mem _)) (hann32_isFinite i hi)

theorem magnitudeOf_zeros (a b : Word) (ha : isZero a = true) (hb : isZero b = true) : magnitudeOf (a, b) = 0#32 := by
  rw [magnitudeOf, mul32_self_of_isZero a ha, mul32_self_of_isZero b hb]
  decide

/-- Whatever the transform is, it leaves of a silent input only signs (R81, P2). -/
theorem magnitudes_zeros (xw : List Word) (h : ∀ x ∈ xw, isZero x = true) : magnitudes xw = List.replicate 64 0#32 := by
  refine List.eq_replicate_iff.2 ⟨magnitudes_length xw, fun m hm => ?_⟩
  obtain ⟨j, -, rfl⟩ := List.mem_map.1 hm
  obtain ⟨a, b, hdft⟩ := dft32_of_zero xw (j + 1) h
  rw [hdft]
  exact magnitudeOf_zeros _ _ (isZero_sign_of_word a) (isZero_sign_of_word b)

theorem analyze_zeros (v : View) (h : ∀ k i, isZero (v.windowWord k i) = true) : analyze v = List.replicate 64 0#32 := by
  refine magnitudes_zeros _ (windowed_zeros _ (chronological_length v) fun x hx => ?_)
  obtain ⟨i, -, rfl⟩ := List.mem_map.1 hx
  exact h _ _

/-! ## The averages of zero magnitudes -/

/-- Every word is +0.0. -/
def AllZero (ws : List Word) : Prop := ∀ w ∈ ws, w = 0#32

theorem AllZero.foldl_add32 {ws : List Word} (h : AllZero ws) : ws.foldl add32 0#32 = 0#32 := by
  induction ws with
  | nil => rfl
  | cons w ws ih =>
    obtain ⟨rfl, hws⟩ := List.forall_mem_cons.1 h
    exact ih hws

/-- The mean of a group of zeros that is not empty (R83): of an empty one it would be 0/0. -/
theorem AllZero.mean {mag : List Word} (h : AllZero mag) (a e : Nat) (hlt : a < e) (hle : e ≤ 64) :
    mean mag a e = 0#32 := by
  have hgroup : AllZero ((mag.drop a).take (e - a)) := fun w hw => h w (List.mem_of_mem_drop (List.mem_of_mem_take hw))
  obtain ⟨hfinite, hunits⟩ := smallIntegersAreExact (e - a) (by omega)
  rw [Machine.mean, hgroup.foldl_add32]
  refine div32_zero_of_pos _ hfinite ?_
  rw [hunits]
  exact mul_pos (by omega) (by positivity)

/-- The words of a result, where it has any, are all +0.0. -/
def ZeroResult (r : Except Status (List Word)) : Prop := ∀ ws, r = .ok ws → AllZero ws

theorem zeroResult_ok {ws : List Word} (h : AllZero ws) : ZeroResult (.ok ws) := fun _ heq => Except.ok.inj heq ▸ h

theorem zeroResult_error (st : Status) : ZeroResult (.error st) := fun _ heq => nomatch heq

theorem AllZero.reduceLinear {mag : List Word} (h : AllZero mag) (l : Nat) : ZeroResult (reduceLinear mag l) := by
  rcases reduceLinear_cases mag l with ⟨hpos, hle, hr⟩ | ⟨-, hr⟩
  · rw [hr]
    refine zeroResult_ok fun w hw => ?_
    obtain ⟨i, hi, rfl⟩ := List.mem_map.1 hw
    have hsize : 0 < 64 / l := Nat.div_pos hle hpos
    refine h.mean _ _ (Nat.mul_lt_mul_of_pos_right (Nat.lt_succ_self i) hsize) ?_
    calc (i + 1) * (64 / l) ≤ l * (64 / l) := Nat.mul_le_mul_right _ (List.mem_range.1 hi)
      _ ≤ 64 := Nat.mul_div_le _ _
  · rw [hr]
    exact zeroResult_error _

theorem AllZero.subBands {mag : List Word} (h : AllZero mag) (rate step hi : Word) (n : Nat) (f : Word) :
    AllZero (subBands mag rate step hi n f) := by
  induction n generalizing f with
  | zero => exact fun w hw => absurd hw List.not_mem_nil
  | succ n ih =>
    have hf := binIndex_lt rate f
    have hg := binIndex_lt rate (min32 (Machine.add32 f step) hi)
    exact List.forall_mem_cons.2 ⟨h.mean _ _ (by omega) (by omega), ih _⟩

theorem AllZero.reduceLog {mag : List Word} (h : AllZero mag) (rate : Word) (l : Nat) :
    ZeroResult (reduceLog mag rate l) := by
  rcases reduceLog_cases mag rate l with ⟨-, hr⟩ | ⟨-, hr⟩
  · rw [hr]
    refine zeroResult_ok fun w hw => ?_
    rcases List.mem_append.1 hw with hband | hspare
    · obtain ⟨i, -, hw⟩ := List.mem_flatMap.1 hband
      exact h.subBands _ _ _ _ _ w hw
    · exact List.eq_of_mem_replicate hspare
  · rw [hr]
    exact zeroResult_error _

/-! ## GET_BAND_AVERAGES of a silent window -/

theorem ZeroResult.answer {r : Except Status (List Word)} (h : ZeroResult r) (s : State) :
    ∃ n st, s.answer r = s.afterQuery st (List.replicate n 0#32) := by
  cases r with
  | ok ws => exact ⟨ws.length, .ok, by rw [answer_ok_eq_afterQuery, ← List.eq_replicate_of_mem (h ws rfl)]⟩
  | error st => exact ⟨0, st, answer_error_eq_afterQuery s st⟩

/-- Every mode answers the linear reduction, the logarithmic one or ERR_ARG (R99). -/
theorem exec_getBandAverages_cases (mode : BitVec 4) (length : Word) (s : State) :
    ∃ r, exec (.getBandAverages mode length) s = .next (s.answer r)
      ∧ (r = reduceLinear (analyze s.view) length.toNat ∨ r = reduceLog (analyze s.view) s.view.rate length.toNat
        ∨ r = .error .errArg) := by
  refine ⟨_, rfl, ?_⟩
  split
  · exact .inl rfl
  split
  · exact .inr (.inl rfl)
  · exact .inr (.inr rfl)

/-- Settles O40: the magnitudes of a silent window are zeros, and the mean of a group of zeros is zero. -/
theorem silentWindowHasZeroAverages : Obligations.SilentWindowHasZeroAverages := by
  refine ⟨analyze_zeros, fun s mode length t hidle hsilent hexec => ?_⟩
  have hzero : AllZero (analyze s.view) := by
    rw [analyze_zeros s.view fun k i => by rw [View.windowWord, sample_of_idle s hidle]; exact hsilent i]
    exact fun w hw => List.eq_of_mem_replicate hw
  obtain ⟨r, hr, hcases⟩ := exec_getBandAverages_cases mode length s
  obtain rfl := Host.Outcome.next.inj (hr.symm.trans hexec)
  rcases hcases with rfl | rfl | rfl
  · exact (hzero.reduceLinear _).answer s
  · exact (hzero.reduceLog _ _).answer s
  · exact (zeroResult_error _).answer s

end Sys2Proof.Machine
end

section
/-! What the commands of port P answer (44_commands.md R89 to R91): one FEED, a FEED_BLOCK sample by sample, and
SET_SAMPLE_RATE with an unchanged, a valid and an invalid rate. -/

namespace Sys2Proof.Machine

/-! ## One write and one response -/

theorem commit_eq_afterWrite (s : State) (sh : Shared) : s.commit sh = s.afterWrite sh := by
  obtain ⟨old, p, ⟨input, output, bytes, phase⟩, cap, draws, schedule, host⟩ := s
  cases phase <;> rfl

theorem endProducer_eq_afterCommand (s : State) (st : Status) : s.endProducer st [] = s.afterCommand st := by
  rw [State.afterCommand, ← statusWord_eq_codeWord]
  rfl

/-- Settles O15: one FEED step and one response. -/
theorem feedResult : Obligations.FeedResult := by
  intro s x
  rw [exec_feed, State.feedStep, commit_eq_afterWrite, endProducer_eq_afterCommand]
  rfl

/-- Settles O18: CNT is zero or not. -/
theorem feedBlockIsAccepted : Obligations.FeedBlockIsAccepted := by
  intro s cnt
  rcases exec_feedBlock cnt s with ⟨hzero, he⟩ | ⟨hne, he⟩
  · have hcnt : cnt = 0#16 := BitVec.eq_of_toNat_eq hzero
    exact ⟨fun _ => by rw [he, endProducer_eq_afterCommand], fun h => absurd hcnt h⟩
  · exact ⟨fun h => absurd (congrArg BitVec.toNat h) hne, fun _ => he⟩

/-! ## The samples of a block (R90) -/

theorem remember_nil (phase : ConsumerPhase) : phase.remember [] = phase := by
  cases phase with
  | query i past => rw [ConsumerPhase.remember, List.append_nil]
  | _ => rfl

theorem remember_remember (phase : ConsumerPhase) (olds news : List Shared) :
    (phase.remember olds).remember news = phase.remember (olds ++ news) := by
  cases phase with
  | query i past => simp only [ConsumerPhase.remember, List.append_assoc]
  | _ => rfl

theorem afterFeeds_nil (s : State) : s.afterFeeds [] = s := by
  simp only [State.afterFeeds, List.length_nil, List.range_zero, List.map_nil, remember_nil, List.foldl_nil]

/-- The state before each of the samples and one more: those before the first ones, and the state after them. -/
theorem states_before_concat (c : Nat) (sh : Shared) (xs : List Word) (x : Word) :
    ((List.range (xs ++ [x]).length).map fun k => ((xs ++ [x]).take k).foldl (feedShared c) sh)
      = ((List.range xs.length).map fun k => (xs.take k).foldl (feedShared c) sh) ++ [xs.foldl (feedShared c) sh] := by
  have hbefore : ∀ k ∈ List.range xs.length,
      ((xs ++ [x]).take k).foldl (feedShared c) sh = (xs.take k).foldl (feedShared c) sh := fun k hk => by
    rw [List.take_append_of_le_length (List.mem_range.1 hk).le]
  rw [List.length_append, List.length_singleton, List.range_succ, List.map_append, List.map_congr_left hbefore,
    List.map_singleton, List.take_left]

/-- One sample more is one FEED step more. -/
theorem afterFeeds_concat (s : State) (xs : List Word) (x : Word) :
    s.afterFeeds (xs ++ [x]) = (s.afterFeeds xs).feedStep x := by
  rw [State.feedStep, commit_eq_afterWrite]
  simp only [State.afterFeeds, State.afterWrite, states_before_concat, List.foldl_append, List.foldl_cons,
    List.foldl_nil, remember_remember]
  rfl

/-- The state with port P inside a block: `left` samples are still to come, the words `ws` are untaken. -/
def State.insideBlock (s : State) (ws : List Word) (left : Nat) : State :=
  { s with p := { s.p with input := ws, phase := .block left } }

/-- A sample that is not the last one. -/
theorem takeTurn_insideBlock (s : State) (x : Word) (ws : List Word) (left : Nat) (h : 0 < left) :
    takeTurn .producer (s.insideBlock (x :: ws) (left + 1)) = .next ((s.feedStep x).insideBlock ws left) := by
  have hturn := producerTurn_of_block (s.insideBlock (x :: ws) (left + 1)) (left + 1) x ws rfl rfl
  rw [takeTurn, hturn, State.blockSample, if_neg (by omega)]
  simp only [State.feedStep, commit_eq_afterWrite]
  rfl

/-- The last sample answers (R90 (c)). -/
theorem takeTurn_insideBlock_last (s : State) (x : Word) (ws : List Word) :
    takeTurn .producer (s.insideBlock (x :: ws) 1)
      = .next (((s.setProducerInput ws).feedStep x).afterCommand .ok) := by
  have hturn := producerTurn_of_block (s.insideBlock (x :: ws) 1) 1 x ws rfl rfl
  rw [takeTurn, hturn, State.blockSample, if_pos le_rfl, endProducer_eq_afterCommand]
  simp only [State.feedStep, commit_eq_afterWrite]
  rfl

/-- The turn that takes the command word of a block. -/
theorem takeTurn_encodeBlock (s : State) (xs rest : List Word) (hphase : s.p.phase = .command)
    (hinput : s.p.input = encodeBlock xs ++ rest) :
    takeTurn .producer s
      = exec (.feedBlock (BitVec.ofNat 16 xs.length)) (s.setProducerInput (xs ++ rest)) := by
  have hdecode : decode .p s.p.input = .command (.feedBlock (BitVec.ofNat 16 xs.length)) (xs ++ rest) := by
    rw [hinput, encodeBlock, List.append_assoc]
    exact decodeOfEncodeIsTheCommand (.feedBlock _) (xs ++ rest)
  exact producerTurn_of_command s _ _ hphase hdecode

/-- The count field holds the number of samples. -/
theorem blockCount_toNat (xs : List Word) (h : xs.length ≤ 65535) :
    (BitVec.ofNat 16 xs.length).toNat = xs.length :=
  Nat.mod_eq_of_lt (by omega)

theorem runTurns_singleton (turn : Turn) (s : State) : runTurns [turn] s = takeTurn turn s := by
  rw [runTurns]
  cases takeTurn turn s <;> rfl

/-- A run of one turn for the command word and one for each sample, when a sample is added. -/
theorem runTurns_one_more (turn : Turn) (xs : List Word) (x : Word) (s t : State)
    (h : runTurns (List.replicate (1 + xs.length) turn) s = .next t) :
    runTurns (List.replicate (1 + (xs ++ [x]).length) turn) s = takeTurn turn t := by
  rw [List.length_append, List.length_singleton, ← Nat.add_assoc, List.replicate_succ', runTurns_append _ _ _ _ h,
    runTurns_singleton]

/-- Settles O20, by induction on the samples fed, the newest one last. -/
theorem feedBlockStepsSampleBySample : Obligations.FeedBlockStepsSampleBySample := by
  intro s xs
  induction xs using List.reverseRecOn with
  | nil =>
    intro ys rest hlength hne hphase hinput
    rw [List.nil_append] at hlength hinput
    have hcount := blockCount_toNat ys hlength
    have hnonempty : BitVec.ofNat 16 ys.length ≠ 0#16 := fun h =>
      hne (List.length_eq_zero_iff.1 (hcount.symm.trans (congrArg BitVec.toNat h)))
    obtain ⟨-, hopen⟩ := feedBlockIsAccepted (s.setProducerInput (ys ++ rest)) (BitVec.ofNat 16 ys.length)
    rw [afterFeeds_nil, List.length_nil, Nat.add_zero, List.replicate_one, runTurns_singleton,
      takeTurn_encodeBlock s ys rest hphase hinput, hopen hnonempty, hcount]
    rfl
  | append_singleton xs x ih =>
    intro ys rest hlength hne hphase hinput
    rw [List.append_assoc, List.singleton_append] at hlength hinput
    have hfed := ih (x :: ys) rest hlength (List.cons_ne_nil x ys) hphase hinput
    rw [runTurns_one_more _ xs x _ _ hfed]
    refine (takeTurn_insideBlock (s.afterFeeds xs) x (ys ++ rest) ys.length (List.length_pos_iff.2 hne)).trans ?_
    rw [← afterFeeds_concat]
    rfl

/-- Settles O19: an empty block is answered at once, the last sample of any other one answers. -/
theorem feedBlockEqualsItsFeeds : Obligations.FeedBlockEqualsItsFeeds := by
  intro s xs rest hlength hphase hinput
  rcases List.eq_nil_or_concat xs with rfl | ⟨init, x, rfl⟩
  · obtain ⟨hempty, -⟩ := feedBlockIsAccepted (s.setProducerInput rest) 0#16
    rw [afterFeeds_nil, List.length_nil, Nat.add_zero, List.replicate_one, runTurns_singleton,
      takeTurn_encodeBlock s [] rest hphase hinput]
    exact hempty rfl
  · rw [List.concat_eq_append] at hlength hinput ⊢
    have hfed := feedBlockStepsSampleBySample s init [x] rest hlength (List.cons_ne_nil x []) hphase hinput
    rw [runTurns_one_more _ init x _ _ hfed]
    refine (takeTurn_insideBlock_last (s.afterFeeds init) x rest).trans ?_
    rw [afterFeeds_concat]
    rfl

/-! ## SET_SAMPLE_RATE (R91) -/

theorem eq32_iff (a b : Word) : eq32 a b = true ↔ isNaN a = false ∧ isNaN b = false ∧ orderKey a = orderKey b := by
  simp [eq32, and_assoc]

/-- The two zeros, and no other word, have the order key 0. -/
theorem orderKey_eq_zero_iff (a : Word) : orderKey a = 0 ↔ a = 0x00000000#32 ∨ a = 0x80000000#32 := by
  constructor
  · intro h
    have hlow : a.toNat % 2 ^ 31 = 0 := by
      unfold orderKey at h
      split at h <;> omega
    rw [← pack_of_word a, hlow, pack_zero]
    cases signBit a with
    | false => exact .inl rfl
    | true => exact .inr rfl
  · rintro (rfl | rfl) <;> decide

/-- Words have the same order key when they are the same or both zeros. -/
theorem orderKey_eq_iff (a b : Word) :
    orderKey a = orderKey b
      ↔ a = b ∨ (a = 0x00000000#32 ∨ a = 0x80000000#32) ∧ (b = 0x00000000#32 ∨ b = 0x80000000#32) := by
  rw [← orderKey_eq_zero_iff, ← orderKey_eq_zero_iff]
  constructor
  · intro h
    by_cases hz : orderKey a = 0
    · exact .inr ⟨hz, h ▸ hz⟩
    · exact .inl (eq_of_orderKey_eq a b h hz)
  · rintro (rfl | ⟨ha, hb⟩)
    · rfl
    · rw [ha, hb]

/-- Settles O21: the command by its two cases, equality of rates by the order keys. -/
theorem unchangedRateIsANoOp : Obligations.UnchangedRateIsANoOp := by
  refine ⟨fun s rate hsame => ?_, fun a b => by rw [eq32_iff, orderKey_eq_iff]⟩
  rcases exec_setSampleRate rate s with ⟨-, he⟩ | ⟨hchanged, -⟩
  · rw [he, endProducer_eq_afterCommand]
  · rw [hsame] at hchanged; cases hchanged

theorem exec_changedRate (rate : Word) (s : State) (h : eq32 rate s.shared.sampleRate = false) :
    exec (.setSampleRate rate) s = .next { (s.afterWrite (rateShared s.draws s.shared rate)).afterCommand .ok with
      draws := s.draws + 1 } := by
  rcases exec_setSampleRate rate s with ⟨hsame, -⟩ | ⟨-, he⟩
  · rw [hsame] at h; cases h
  · rw [he, commit_eq_afterWrite, endProducer_eq_afterCommand]

/-- Settles O22: with Q above zero the cutoff is valid, and `configure` derives the coefficients from it. -/
theorem changedRateReconfiguresTheBank : Obligations.ChangedRateReconfiguresTheBank := by
  intro s rate hchanged fc hpos hhalf
  have hq : lt32 0#32 Config.qFactor = true := by decide
  have hvalid : validFc (cutoffOf rate) Config.qFactor = true := by
    rw [validFc, Bool.and_eq_true, Bool.and_eq_true]
    exact ⟨⟨hpos, hhalf⟩, hq⟩
  rw [exec_changedRate rate s hchanged, rateShared, configure_of_valid _ _ _ hvalid]
  rfl

/-- Settles O23: no reconfiguration writes a filter register. -/
theorem invalidRateIsStoredAndAnsweredOk : Obligations.InvalidRateIsStoredAndAnsweredOk := by
  intro s rate hchanged _
  refine ⟨_, exec_changedRate rate s hchanged, rateShared_sampleRate _ _ _, fun id => ?_, rateShared_rings _ _ _,
    rateShared_win _ _ _, rfl⟩
  exact configure_registers s.draws s.shared.bank rate Config.crossoverHz Config.qFactor id

end Sys2Proof.Machine
end

section
/-! What the queries without an overlap answer (44_commands.md R92 to R95), the count of a duration (R93), the errors that
need no view (60_exceptions.md R104), and the queries before any SET_SAMPLE_RATE (70_reset_and_hazards.md R114). -/

namespace Sys2Proof.Machine

/-! ## The rate and the count of a duration -/

theorem rate_of_idle (s : State) (hidle : s.queryIdle) : s.view.rate = s.shared.sampleRate := by
  rw [View.rate, sample_of_idle s hidle]

/-- Settles O33: an idle port reads the register. -/
theorem getSampleRateResult : Obligations.GetSampleRateResult := by
  intro s hidle
  rw [← rate_of_idle s hidle]
  rfl

theorem sampleCount_of_error (d rate : Word) (h : isNaN (mul32 d rate) = true ∨ lt32 (mul32 d rate) 0#32 = true) :
    sampleCount d rate = .error .errArg := by
  rw [sampleCount, if_pos (by simpa using h)]

theorem sampleCount_of_posInf (d rate : Word) (h : mul32 d rate = 0x7F800000#32) :
    sampleCount d rate = .ok (2 ^ 32 - 1) := by
  rw [sampleCount, h]
  rfl

/-- A finite product that is not negative counts its floor, saturated (R93). -/
theorem sampleCount_of_finite (d rate : Word) (hf : isFinite (mul32 d rate) = true) (hpos : 0 ≤ units (mul32 d rate)) :
    sampleCount d rate = .ok (min (units (mul32 d rate) / 2 ^ 149).toNat (2 ^ 32 - 1)) := by
  obtain ⟨hnan, hinf⟩ := not_isNaN_of_isFinite _ hf
  have hzero : units 0#32 = 0 := by decide
  have hlt : lt32 (mul32 d rate) 0#32 = false := by
    rw [← Bool.not_eq_true, lt32_iff_units _ _ hf rfl, hzero]
    exact hpos.not_gt
  simp only [sampleCount, hnan, hlt, hinf, Bool.or_self, Bool.false_eq_true, if_false, floorZ]

/-- Settles O32, by the class of the product. -/
theorem sampleCountIsTheFloor : Obligations.SampleCountIsTheFloor := by
  intro d rate
  refine ⟨sampleCount_of_error d rate, sampleCount_of_posInf d rate, fun hf hpos =>
    ⟨_, sampleCount_of_finite d rate hf hpos, min_le_right _ _, ?_⟩⟩
  generalize units (mul32 d rate) = u at hpos
  omega

/-! ## The duration queries -/

section
variable (s : State) (field : BitVec 4) (d : Word) (hband : 4 ≤ field.toNat)
include hband

theorem exec_getPeak_of_band_ge : exec (.getPeak field d) s = .next (s.afterQuery .errBand []) := by
  simp only [exec, execGetPeak, bandOperand_of_ge field hband]
  rfl

theorem exec_getRms_of_band_ge : exec (.getRms field d) s = .next (s.afterQuery .errBand []) := by
  simp only [exec, execGetRms, bandOperand_of_ge field hband]
  rfl

end

/-- A count of zero examines the newest sample (R75, R94). -/
theorem exec_getPeak_of_idle (s : State) (field : BitVec 4) (b : Band) (d : Word) (n : Nat) (hidle : s.queryIdle)
    (hb : bandOfField field = some b) (hn : sampleCount d s.shared.sampleRate = .ok n) :
    exec (.getPeak field d) s
      = .next (s.afterQuery .ok [peakOf (newestOf s.capacity (s.shared.rings.get b) (max n 1))]) := by
  rw [← rate_of_idle s hidle] at hn
  rw [exec_getPeak_of_count s field b d hb n hn, peakQuery_of_idle s b hidle]

theorem exec_getRms_of_no_sample (s : State) (field : BitVec 4) (b : Band) (d : Word) (hidle : s.queryIdle)
    (hb : bandOfField field = some b) (hn : sampleCount d s.shared.sampleRate = .ok 0) :
    exec (.getRms field d) s = .next (s.afterQuery .errRange []) := by
  rw [← rate_of_idle s hidle] at hn
  rw [exec_getRms_of_count s field b d hb 0 hn, rmsQuery_zero]
  rfl

/-- Settles O30, by what the duration counts. -/
theorem getPeakResult : Obligations.GetPeakResult := by
  refine fun s field d hidle => ⟨fun b hb => ⟨fun n hn => exec_getPeak_of_idle s field b d n hidle hb hn,
    fun st hst => ?_⟩, exec_getPeak_of_band_ge s field d⟩
  rw [← rate_of_idle s hidle] at hst
  obtain ⟨hpeak, -⟩ := exec_duration_of_error s field b d hb st hst
  exact hpeak

/-- Settles O31, by what the duration counts. -/
theorem getRmsResult : Obligations.GetRmsResult := by
  refine fun s field d hidle => ⟨fun b hb => ⟨fun n hn hne => ?_,
    fun hzero => exec_getRms_of_no_sample s field b d hidle hb hzero, fun st hst => ?_⟩,
    exec_getRms_of_band_ge s field d⟩
  · rw [← rate_of_idle s hidle] at hn
    rw [exec_getRms_of_count s field b d hb n hn, rmsQuery_of_idle s b hidle n hne]
    rfl
  · rw [← rate_of_idle s hidle] at hst
    obtain ⟨-, hrms⟩ := exec_duration_of_error s field b d hb st hst
    exact hrms

/-! ## Errors in every state -/

theorem exec_getBandAverages_of_mode_ge (s : State) (mode : BitVec 4) (length : Word) (hmode : 2 ≤ mode.toNat) :
    exec (.getBandAverages mode length) s = .next (s.afterQuery .errArg []) := by
  simp only [exec, execGetBandAverages, if_neg (show mode.toNat ≠ 0 by omega), if_neg (show mode.toNat ≠ 1 by omega)]
  rfl

/-- Settles O34: none of these answers depends on what a query may read. -/
theorem bandOrModeOutOfRangeIsAnError : Obligations.BandOrModeOutOfRangeIsAnError := by
  intro s field arg
  refine ⟨exec_getBandAverages_of_mode_ge s field arg, fun hband => ⟨exec_getPeak_of_band_ge s field arg hband,
    exec_getRms_of_band_ge s field arg hband, exec_peakN_of_band_ge s field arg hband,
    exec_rmsN_of_band_ge s field arg hband, exec_copyWaveform_of_band_ge s field arg hband⟩, fun hband => ?_⟩
  rcases bandOperand_cases field with ⟨b, hb, -, -⟩ | ⟨-, -, hge⟩
  · rw [exec_rmsN_of_band s field b 0#32 hb, BitVec.toNat_zero, rmsQuery_zero]
    rfl
  · omega

/-! ## Before any SET_SAMPLE_RATE (R114) -/

/-- The rate +0.0 makes every finite duration count no sample. -/
theorem sampleCount_of_rate_zero (d : Word) (hf : isFinite d = true) : sampleCount d 0#32 = .ok 0 := by
  have hzero : isZero (mul32 d 0#32) = true := by
    rw [mul32_comm]
    exact mul32_isZero 0#32 d rfl hf
  have hunits : units (mul32 d 0#32) = 0 := by
    rw [← Int.natAbs_eq_zero, units_natAbs, magnitude_eq_zero_iff, hzero]
  rw [sampleCount_of_finite d 0#32 (isFinite_of_isZero _ hzero) hunits.ge, hunits]
  rfl

/-- The rate +0.0 gives no octaves: it is not above zero (R87). -/
theorem reduceLog_of_rate_zero (mag : List Word) (l : Nat) : reduceLog mag 0#32 l = .error .errArg := by
  rcases reduceLog_cases mag 0#32 l with ⟨haccepted, -⟩ | ⟨-, h⟩
  · exact absurd ((logRejected_iff _ _).2 (.inr (.inl (by decide)))) haccepted
  · exact h

/-- Settles O51: the register +0.0 counts no sample and has no octaves. -/
theorem unconfiguredQueries : Obligations.UnconfiguredQueries := by
  intro s field b d length hidle hrate hb hf
  have hcount : sampleCount d s.shared.sampleRate = .ok 0 := by rw [hrate, sampleCount_of_rate_zero d hf]
  refine ⟨exec_getRms_of_no_sample s field b d hidle hb hcount, exec_getPeak_of_idle s field b d 0 hidle hb hcount, ?_⟩
  rw [exec_log_averages, rate_of_idle s hidle, hrate, reduceLog_of_rate_zero, answer_error_eq_afterQuery]

end Sys2Proof.Machine
end

section
/-! Turns that wait, and that no turn faults or refuses (60_exceptions.md R100, R106, R107). -/

namespace Sys2Proof.Machine

/-! ## Waiting for words (R107 (c)) -/

theorem producerTurn_of_wait (s : State) (hphase : s.p.phase = .command) (hd : decode .p s.p.input = .wait) :
    producerTurn s = .next s := by
  simp only [producerTurn, hphase, hd]

theorem consumerTurn_of_wait (s : State) (hphase : s.q.phase = .command) (hd : decode .q s.q.input = .wait) :
    consumerTurn s = .next s := by
  simp only [consumerTurn, hphase, hd]

/-- Between queries, only a whole query is accepted. -/
theorem acceptTurn_of_wait (s : State) (hd : decode .q s.q.input = .wait) : acceptTurn s = s := by
  rcases acceptTurn_cases s with h | ⟨i, rest, -, hc, -⟩
  · exact h
  · rw [hd] at hc; cases hc

/-- While arguments are consumed no query is accepted, whatever words are there. -/
theorem acceptTurn_of_discard (s : State) (left : Nat) (hphase : s.q.phase = .discard left) : acceptTurn s = s := by
  rcases acceptTurn_cases s with h | ⟨i, rest, hc, -, -⟩
  · exact h
  · rw [hphase] at hc; cases hc

theorem producerTurn_of_block_nil (s : State) (left : Nat) (hphase : s.p.phase = .block left) (hinput : s.p.input = []) :
    producerTurn s = .next s := by
  simp only [producerTurn, hphase, hinput]

theorem producerTurn_of_discard_nil (s : State) (left : Nat) (hphase : s.p.phase = .discard left)
    (hinput : s.p.input = []) : producerTurn s = .next s := by
  simp only [producerTurn, hphase, hinput]

theorem consumerTurn_of_discard_nil (s : State) (left : Nat) (hphase : s.q.phase = .discard left)
    (hinput : s.q.input = []) : consumerTurn s = .next s := by
  simp only [consumerTurn, hphase, hinput]

/-- Settles O10, one waiting phase of a port at a time. -/
theorem incompleteCommandWaits : Obligations.IncompleteCommandWaits := by
  refine ⟨producerTurn_of_wait, fun s hphase hd => ?_, fun s left hphase hinput => ?_, fun s left hphase hinput => ?_⟩
  · exact ⟨consumerTurn_of_wait s hphase hd, congrArg _ (acceptTurn_of_wait s hd)⟩
  · rcases hphase with hblock | hdiscard
    · exact producerTurn_of_block_nil s left hblock hinput
    · exact producerTurn_of_discard_nil s left hdiscard hinput
  · exact ⟨consumerTurn_of_discard_nil s left hphase hinput, congrArg _ (acceptTurn_of_discard s left hphase)⟩

/-! ## Every turn completes (R100, R106) -/

/-- Every command completes: a query with its answer, a producer command with its response or an open block. -/
theorem exec_answers_next (i : Instr) (s : State) : ∃ t, exec i s = .next t := by
  cases hport : i.port with
  | q =>
    obtain ⟨r, hr⟩ := exec_query_answers i s hport
    exact ⟨_, hr⟩
  | p =>
    cases i with
    | feed x => exact ⟨_, exec_feed x s⟩
    | feedBlock cnt => rcases exec_feedBlock cnt s with ⟨-, h⟩ | ⟨-, h⟩ <;> exact ⟨_, h⟩
    | setSampleRate rate => rcases exec_setSampleRate rate s with ⟨-, h⟩ | ⟨-, h⟩ <;> exact ⟨_, h⟩
    | _ => cases hport

theorem producerTurn_of_discard_cons (s : State) (left : Nat) (x : Word) (rest : List Word)
    (hphase : s.p.phase = .discard left) (hinput : s.p.input = x :: rest) :
    producerTurn s = .next ((s.setProducerInput rest).rejectProducer .reservedField (left - 1)) := by
  simp only [producerTurn, hphase, hinput]

theorem consumerTurn_of_discard_cons (s : State) (left : Nat) (x : Word) (rest : List Word)
    (hphase : s.q.phase = .discard left) (hinput : s.q.input = x :: rest) :
    consumerTurn s = .next ((s.setConsumerInput rest).rejectConsumer .reservedField (left - 1)) := by
  simp only [consumerTurn, hphase, hinput]

theorem producerTurn_answers_next (s : State) : ∃ t, producerTurn s = .next t := by
  cases hphase : s.p.phase with
  | command =>
    cases hd : decode .p s.p.input with
    | wait => exact ⟨s, producerTurn_of_wait s hphase hd⟩
    | command i rest =>
      rw [producerTurn_of_command s i rest hphase hd]
      exact exec_answers_next i _
    | reject e n rest => exact ⟨_, producerTurn_of_reject s e n rest hphase hd⟩
  | discard left =>
    cases hinput : s.p.input with
    | nil => exact ⟨s, producerTurn_of_discard_nil s left hphase hinput⟩
    | cons x rest => exact ⟨_, producerTurn_of_discard_cons s left x rest hphase hinput⟩
  | block left =>
    cases hinput : s.p.input with
    | nil => exact ⟨s, producerTurn_of_block_nil s left hphase hinput⟩
    | cons x rest => exact ⟨_, producerTurn_of_block s left x rest hphase hinput⟩

theorem consumerTurn_answers_next (s : State) : ∃ t, consumerTurn s = .next t := by
  cases hphase : s.q.phase with
  | query i past =>
    rw [consumerTurn_of_query s i past hphase]
    exact exec_answers_next i s
  | command =>
    cases hd : decode .q s.q.input with
    | wait => exact ⟨s, consumerTurn_of_wait s hphase hd⟩
    | command i rest =>
      rw [consumerTurn_of_command s i rest hphase hd]
      exact exec_answers_next i _
    | reject e n rest => exact ⟨_, consumerTurn_of_reject s e n rest hphase hd⟩
  | discard left =>
    cases hinput : s.q.input with
    | nil => exact ⟨s, consumerTurn_of_discard_nil s left hphase hinput⟩
    | cons x rest => exact ⟨_, consumerTurn_of_discard_cons s left x rest hphase hinput⟩

/-- Whichever agent moves, its turn answers a next state. -/
theorem takeTurn_answers_next (turn : Turn) (s : State) : ∃ t, takeTurn turn s = .next t := by
  cases turn with
  | producer => exact producerTurn_answers_next s
  | consumer => exact consumerTurn_answers_next s
  | accept => exact ⟨acceptTurn s, rfl⟩
  | host => exact ⟨hostTurn s, rfl⟩

/-- Settles O9: a step is the turn of one agent. -/
theorem everyStepAnswersNext : Obligations.EveryStepAnswersNext :=
  fun s => takeTurn_answers_next (nextTurn s).1 (nextTurn s).2

end Sys2Proof.Machine
end


section
/-! The values after reset, and that the state after reset is legal (70_reset_and_hazards.md R112, 10_state.md R32): the
base case of the two invariants that every step keeps. -/

namespace Sys2Proof.Machine

/-! ## The elements at reset -/

@[simp] theorem bank_reset_get (id : SectionId) : Bank.reset.get id = Section.reset := by
  cases id <;> rfl

@[simp] theorem rings_reset_get (b : Band) : Rings.reset.get b = Ring.reset := by
  cases b <;> rfl

/-- A ring at reset lists no word, so each of its words is the unlisted one, +0.0. -/
@[simp] theorem memRead_ring_reset (i : Nat) : memRead Ring.reset.mem i = 0#32 := memRead_nil i

@[simp] theorem ring_reset_cursor : Ring.reset.cursor = 0 := rfl

/-- The reset event from any state gives the shared state and the ports of the state after reset. -/
theorem hostEvent_reset_architectural (s : State) :
    (s.hostEvent .reset).shared = State.reset.shared ∧ (s.hostEvent .reset).p = State.reset.p
      ∧ (s.hostEvent .reset).q = State.reset.q :=
  ⟨resetEvent_shared s, resetEvent_p s, resetEvent_q s⟩

/-- Settles O50, element by element: the sections of the bank, the four rings, the window, the rate and the ports. -/
theorem resetValues : Obligations.ResetValues := by
  have hrings (b : Band) : State.reset.shared.rings.get b = Ring.reset := rings_reset_get b
  refine ⟨bank_reset_get, fun b i => ?_, memRead_ring_reset, ring_reset_cursor, rfl, rfl, rfl,
    hostEvent_reset_architectural⟩
  rw [hrings b]
  exact ⟨memRead_ring_reset i, ring_reset_cursor⟩

/-! ## The base case of the invariants -/

/-- The state after reset is legal whatever the capacity is: both ports await a command and hold no byte. -/
theorem state_reset_wf : State.reset.wf = true :=
  have hshared := shared_reset_wf State.reset.capacity (capacity_pos State.reset)
  (state_wf_iff State.reset).2 ⟨hshared, rfl, rfl, Nat.zero_lt_succ 3, Nat.zero_lt_succ 3⟩

/-- Settles O53: the rate at reset gives no valid cutoff, so the coefficients follow it. -/
theorem resetMeetsTheInvariants : Obligations.ResetMeetsTheInvariants :=
  ⟨state_reset_wf, reset_coeffsFollowRate⟩

end Sys2Proof.Machine
end
